-- ==== Sys2Proof/Word.lean ====
section
/-! DEFINITION. The words of the controller and the two lines: command and response words (12 bits), bytes, the opaque line
identifiers, the exact microsecond quotients carried by wait events. -/

namespace Sys2Proof

/-- A command word, `cmd_word[11:0]` (30_encoding.md R70). -/
abbrev CmdWord := BitVec 12

/-- A response word, `rsp_word[11:0]` (30_encoding.md R73). -/
abbrev RspWord := BitVec 12

/-- An 8-bit datum: the `arg` and `val` fields, `SHR`, `ACC` (30_encoding.md R72, R76; 10_state.md R31). -/
abbrev Byte := BitVec 8

/-- The frequency field, `FREQ_WIDTH` = 32 bits (00_scope.md R8, 10_state.md R24). -/
abbrev Hertz := BitVec 32

/-- A line identifier (00_scope.md R8, `LineId`): opaque, with decidable equality.
DESIGN CHOICE (log 7, safe): the labels are numbered; nothing but equality of two of them is ever read. -/
structure LineId where
  label : Nat
  deriving DecidableEq, Repr, Inhabited

/-- The two lines (00_scope.md R11): the clock line and the data line. -/
inductive Line where
  | scl
  | sda
  deriving DecidableEq, Repr, Inhabited

/-- A logic level, `false` = 0 (low), `true` = 1 (high) (00_scope.md R10). -/
abbrev Level := Bool

/-- An exact non-negative quotient of microseconds in lowest terms (00_scope.md R10, 10_state.md R26): the argument
of `WaitUs`. How a realisation rounds it is outside the spec (log 11). -/
structure Micros where
  num : Nat
  den : Nat
  deriving DecidableEq, Repr, Inhabited

end Sys2Proof
end

