-- ==== Sys2Proof/Config.lean ====
section
/-! DEFINITION. What one controller instance fixes (00_scope.md R8) and the values the spec leaves free. -/

namespace Sys2Proof

/-- The numeric parameters of one instance (00_scope.md R8): constants that no command changes. A field of State holds them, so
that a claim speaks about every instance; no step ever writes that field (log 10). -/
structure Params where
  /-- `POLL_MAX`: most polls of one bounded wait in RELWAIT. -/
  pollMax : Nat
  /-- `POLL_INTERVAL_MS`: delay before each poll, milliseconds. -/
  pollIntervalMs : Nat
  /-- `BURST_PULSES`: clock pulses in one burst of RESET. -/
  burstPulses : Nat
  /-- `BURST_MAX`: most bursts of one RESET. -/
  burstMax : Nat
  /-- `BURST_DELAY_MS`: delay between two bursts, milliseconds. -/
  burstDelayMs : Nat
  deriving DecidableEq, Repr, Inhabited

/-- The reference values of the parameter table (00_scope.md R8). -/
def Config.reference : Params :=
  { pollMax := 50, pollIntervalMs := 100, burstPulses := 10, burstMax := 100, burstDelayMs := 10 }

/-- `HALF_PERIOD_NUM`, fixed by the half-period formula (00_scope.md R8). -/
def Config.halfPeriodNum : Nat := 500000

/-- `FREQ_STD`, the standard value of `frequencyHz` (00_scope.md R8). -/
def Config.freqStd : Hertz := 100000

/-- FREE VALUE (log 3). The level the environment gives the `n`-th sample of a run when that sample is of the released line `l`
and the list of answers in State is used up: any value, under no law (20_memory.md R54, 93_implementation_defined.md U7). -/
opaque Config.freeLevel : Line → Nat → Level

/-- FREE VALUE (log 4). What `SHR` holds after the `n`-th completed command (10_state.md R31, 93_implementation_defined.md U8). -/
opaque Config.freeShr : Nat → Byte

/-- FREE VALUE (log 4). What `ACC` holds after the `n`-th completed command (10_state.md R31, 93_implementation_defined.md U8). -/
opaque Config.freeAcc : Nat → Byte

/-- FREE VALUE (log 4). What `BITCNT` holds after the `n`-th completed command (10_state.md R31, 93_implementation_defined.md U8). -/
opaque Config.freeBitCnt : Nat → BitVec 4

/-- FREE VALUE (log 4). What `POLLCNT` holds after the `n`-th completed command (93_implementation_defined.md U8). -/
opaque Config.freePollCnt : Nat → Nat

/-- FREE VALUE (log 4). What `PULSECNT` holds after the `n`-th completed command (93_implementation_defined.md U8). -/
opaque Config.freePulseCnt : Nat → Nat

/-- FREE VALUE (log 4). What `BURSTCNT` holds after the `n`-th completed command (93_implementation_defined.md U8). -/
opaque Config.freeBurstCnt : Nat → Nat

end Sys2Proof
end

