-- ==== Sys2Proof/Syntax.lean ====
section
/-! DEFINITION. The eight commands (30_encoding.md R70, R71) and the four pseudo-instructions of the assembler (R81). -/

namespace Sys2Proof

/-- The command set (30_encoding.md R71): one constructor per row of spec/opcode_table.json. The four operands of `OPEN` are not
in its word (R83): the meaning reads them from the configuration inputs. -/
inductive Instr where
  /-- `OPEN`, construct the handle and bring the bus to idle (41_open.md R100). -/
  | openBus
  /-- `START`, make a START condition (44_sequence_control.md R121). -/
  | start
  /-- `STOP`, make a STOP condition (44_sequence_control.md R122). -/
  | stop
  /-- `RESET`, reset the bus (44_sequence_control.md R123). -/
  | reset
  /-- `SENDBIT arg`, send one bit (42_bit_transfer.md R105). -/
  | sendBit (arg : Byte)
  /-- `READBIT`, receive one bit (42_bit_transfer.md R106). -/
  | readBit
  /-- `SENDBYTE arg`, send eight bits and read the acknowledge bit (43_byte_transfer.md R110). -/
  | sendByte (arg : Byte)
  /-- `READBYTE`, receive eight bits (43_byte_transfer.md R111). -/
  | readByte
  deriving DecidableEq, Repr, Inhabited

/-- The pseudo-instructions of the assembler (30_encoding.md R81). -/
inductive Pseudo where
  /-- `ACK`: `SENDBIT 0`. -/
  | ack
  /-- `NACK`: `SENDBIT 1`. -/
  | nack
  /-- `ADDRW a`: `SENDBYTE (2a + 0)`. -/
  | addrW (a : Nat)
  /-- `ADDRR a`: `SENDBYTE (2a + 1)`. -/
  | addrR (a : Nat)
  deriving DecidableEq, Repr

end Sys2Proof
end

