-- ==== Sys2Proof/WellFormed.lean ====
section
/-! DEFINITION. The checks on what is written down outside a run: instances, commands and pseudo-instructions. -/

namespace Sys2Proof

/-- The constraints of the parameter table (00_scope.md R8): with `POLL_MAX`, `BURST_PULSES` or `BURST_MAX` equal to 0 a loop would
be degenerate, and a model refuses such an instance. -/
def Params.wellFormed (p : Params) : Bool :=
  decide (1 ≤ p.pollMax) && decide (1 ≤ p.burstPulses) && decide (1 ≤ p.burstMax)

/-- A command has no ill-formed term: its operand, if it has one, is any 8-bit value (30_encoding.md R72). -/
def Instr.wellFormed : Instr → Bool
  | .openBus => true
  | .start => true
  | .stop => true
  | .reset => true
  | .sendBit _ => true
  | .readBit => true
  | .sendByte _ => true
  | .readByte => true

/-- The assembler refuses a device address above 127 (30_encoding.md R81). -/
def Pseudo.wellFormed : Pseudo → Bool
  | .ack => true
  | .nack => true
  | .addrW a => decide (a ≤ 127)
  | .addrR a => decide (a ≤ 127)

end Sys2Proof
end

