-- ==== Sys2Proof/Decode.lean ====
section
/-! DEFINITION. The command decoder, total on the 4096 words and rejecting by name (30_encoding.md R70 to R72, R77), the encoder,
and the expansion of the assembler's pseudo-instructions (R81, R82). -/

namespace Sys2Proof

/-- `op`, bits [11:8] of the command word (30_encoding.md R70). -/
def opField (w : CmdWord) : BitVec 4 := w.extractLsb' 8 4

/-- `arg`, bits [7:0] of the command word (30_encoding.md R70). -/
def argField (w : CmdWord) : Byte := w.extractLsb' 0 8

/-- The command word of an opcode and an operand: `op ++ arg`, `op` in the high bits (30_encoding.md R70). -/
def assembleWord (op : BitVec 4) (arg : Byte) : CmdWord := op ++ arg

/-- Why a word is a reserved encoding (30_encoding.md R77). -/
inductive Reserved where
  /-- `op` is 0x0 or 0x9 to 0xF. -/
  | opcode
  /-- `op` is that of a command without operand and `arg` is not 0x00. -/
  | operand
  deriving DecidableEq, Repr

/-- A command without operand: `arg` must be 0x00 (30_encoding.md R72). -/
def withoutOperand (arg : Byte) (i : Instr) : Except Reserved Instr :=
  if arg = 0 then .ok i else .error .operand

/-- The opcode map (30_encoding.md R71), total on every word; a reserved word is rejected by name (R77). -/
def decodeNamed (w : CmdWord) : Except Reserved Instr :=
  match (opField w).toNat with
  | 0x1 => withoutOperand (argField w) .openBus
  | 0x2 => withoutOperand (argField w) .start
  | 0x3 => withoutOperand (argField w) .stop
  | 0x4 => withoutOperand (argField w) .reset
  | 0x5 => .ok (.sendBit (argField w))
  | 0x6 => withoutOperand (argField w) .readBit
  | 0x7 => .ok (.sendByte (argField w))
  | 0x8 => withoutOperand (argField w) .readByte
  | _ => .error .opcode

/-- The command a word selects, if it selects one. -/
def decode (w : CmdWord) : Option Instr :=
  (decodeNamed w).toOption

/-- `op` of each command (30_encoding.md R71). -/
def Instr.opcode : Instr → BitVec 4
  | .openBus => 0x1
  | .start => 0x2
  | .stop => 0x3
  | .reset => 0x4
  | .sendBit _ => 0x5
  | .readBit => 0x6
  | .sendByte _ => 0x7
  | .readByte => 0x8

/-- `arg` of each command; 0x00 where it has no operand (30_encoding.md R71). -/
def Instr.operand : Instr → Byte
  | .openBus => 0
  | .start => 0
  | .stop => 0
  | .reset => 0
  | .sendBit arg => arg
  | .readBit => 0
  | .sendByte arg => arg
  | .readByte => 0

/-- The word of a command (30_encoding.md R70, R71). -/
def encode (i : Instr) : CmdWord :=
  assembleWord i.opcode i.operand

/-- The `mask` column of the opcode map (30_encoding.md R71). -/
def Instr.mask : Instr → CmdWord
  | .openBus => 0xFFF
  | .start => 0xFFF
  | .stop => 0xFFF
  | .reset => 0xFFF
  | .sendBit _ => 0xF00
  | .readBit => 0xFFF
  | .sendByte _ => 0xF00
  | .readByte => 0xFFF

/-- The `match` column of the opcode map (30_encoding.md R71). -/
def Instr.pattern : Instr → CmdWord
  | .openBus => 0x100
  | .start => 0x200
  | .stop => 0x300
  | .reset => 0x400
  | .sendBit _ => 0x500
  | .readBit => 0x600
  | .sendByte _ => 0x700
  | .readByte => 0x800

/-- The decoder over a word numbered as the opcode table numbers it: bits [11:0] of `w`; a value above 12 bits is no command
word (30_encoding.md R79: a decoder reads 12 bits; log 23). -/
def decodeTableWord (nbits w : Nat) : Option Instr :=
  if w % 2 ^ nbits < 4096 then decode (BitVec.ofNat 12 (w % 2 ^ nbits)) else none

/-- The device-addressing convention `(address << 1) | rwFlag`, `rwFlag` 0 for write and 1 for read (30_encoding.md R82). -/
def addressByte (address : BitVec 7) (rwFlag : Bool) : Byte :=
  (address.setWidth 8 <<< 1) ||| (BitVec.ofBool rwFlag).setWidth 8

/-- The expansion of a pseudo-instruction (30_encoding.md R81); `none` where the assembler refuses it. -/
def Pseudo.expand (p : Pseudo) : Option Instr :=
  if p.wellFormed then
    match p with
    | .ack => some (.sendBit 0)
    | .nack => some (.sendBit 1)
    | .addrW a => some (.sendByte (addressByte (BitVec.ofNat 7 a) false))
    | .addrR a => some (.sendByte (addressByte (BitVec.ofNat 7 a) true))
  else none

/-- The mnemonic of a command (30_encoding.md R71). -/
def Instr.mnemonic : Instr → String
  | .openBus => "OPEN"
  | .start => "START"
  | .stop => "STOP"
  | .reset => "RESET"
  | .sendBit _ => "SENDBIT"
  | .readBit => "READBIT"
  | .sendByte _ => "SENDBYTE"
  | .readByte => "READBYTE"

end Sys2Proof
end

