-- ==== Sys2Proof/Machine/State.lean ====
section
/-! DEFINITION. The state of the controller as plain data (10_state.md R20), the inputs the host and the environment hold for it,
the record of what has left its ports, its value right after power-on reset (10_state.md R45), and the reasons a step stops. -/

namespace Sys2Proof.Machine

/-- What a soft failure reports on the diagnostic channel (60_exceptions.md R134, R135). -/
inductive DiagCode where
  /-- `WAIT_TIMEOUT`: a RELWAIT ran out of polls. -/
  | waitTimeout
  /-- `RESET_GIVEUP`: a RESET_SEQ ran out of bursts. -/
  | resetGiveup
  deriving DecidableEq, Repr

/-- The event alphabet (00_scope.md R12). -/
inductive Event where
  /-- The controller starts, or goes on, driving the line low. -/
  | drive (l : Line)
  /-- The controller stops driving the line; the line floats. -/
  | release (l : Line)
  /-- The controller asks the GPIO layer to enable the pull-up of the line. -/
  | pullup (l : Line)
  /-- The controller reads the level of the line and gets `v`. -/
  | sample (l : Line) (v : Level)
  /-- The controller waits `t` microseconds. -/
  | waitUs (t : Micros)
  /-- The controller waits `t` milliseconds. -/
  | waitMs (t : Nat)
  /-- One diagnostic message leaves on the diagnostic channel. -/
  | diag (code : DiagCode) (l : Line)
  deriving DecidableEq, Repr

/-- One entry of the record of what has left the controller: an event, a pulse of `rsp_valid` with the word on the response port
(10_state.md R41), or the mark of a power-on reset, which emits no event (70_reset_and_hazards.md R160). -/
inductive Out where
  | ev (e : Event)
  | rsp (w : RspWord)
  | powerOn
  deriving DecidableEq, Repr

/-- The four values of a Bus Handle (10_state.md R22 to R25): latched, they are CR0 to CR3; on the configuration inputs, they are
the operands of the next `OPEN` (10_state.md R42). -/
structure Handle where
  /-- `SCL_ID` (CR0), `clockLine`. -/
  sclId : LineId
  /-- `SDA_ID` (CR1), `dataLine`. -/
  sdaId : LineId
  /-- `FREQ` (CR2), `frequencyHz`. -/
  freq : Hertz
  /-- `WARN` (CR3), `warnOnTimeout`. -/
  warn : Bool
  deriving DecidableEq, Repr

/-- The two drive bits `DRV[SCL]`, `DRV[SDA]` (10_state.md R21): `true` is driven-low, `false` is released. -/
structure Drv where
  scl : Bool
  sda : Bool
  deriving DecidableEq, Repr

/-- The private registers, which the host cannot see (10_state.md R31, R32). -/
structure PrivateRegs where
  /-- `SHR`, the shift register of SENDBYTE_SEQ. -/
  shr : Byte
  /-- `ACC`, the accumulator of READBYTE_SEQ. -/
  acc : Byte
  /-- `BITCNT`, the bit transfers of a byte. -/
  bitCnt : BitVec 4
  /-- `POLLCNT`, the polls of one RELWAIT; wide enough for `POLL_MAX`. -/
  pollCnt : Nat
  /-- `PULSECNT`, the pulses of one burst; wide enough for `BURST_PULSES`. -/
  pulseCnt : Nat
  /-- `BURSTCNT`, the failed checks of one RESET_SEQ; wide enough for `BURST_MAX`. -/
  burstCnt : Nat
  deriving DecidableEq, Repr

/-- What the environment will answer (00_scope.md R16, 20_memory.md R54): for each line the levels of its next samples while
released, in order. Past the end of a list the level is the free value `Config.freeLevel`. `taken` counts the samples of the
whole run, so that no two of them share a free value. -/
structure Env where
  scl : List Level
  sda : List Level
  taken : Nat
  deriving DecidableEq, Repr

/-- The one pending return a nested invocation needs (10_state.md R33, 44_sequence_control.md R126). -/
inductive Pending where
  /-- The RESET_SEQ in progress is the last act of the command. -/
  | nothing
  /-- START_SEQ invoked the RESET_SEQ in progress and continues after it. -/
  | toStart
  deriving DecidableEq, Repr

/-- The sequencer position `SEQ` (10_state.md R33).
DESIGN CHOICE (log 1): a step runs a command as one function of the sample answers, as R33 allows, up to its response or to the point where the
STOP_SEQ of a RESET_SEQ invokes RESET_SEQ again, so only `rest` and `resetNext` stand between two steps. -/
inductive Seq where
  /-- `REST`: no command is in progress. -/
  | rest
  /-- A command's own sequence is being run; it never stands between two steps. -/
  | inCommand
  /-- The STOP_SEQ at the end of a RESET_SEQ found SDA low: the next thing is a fresh RESET_SEQ, then what is pending. -/
  | resetNext (ret : Pending)
  deriving DecidableEq, Repr

/-- The state of the controller (10_state.md R20), with its instance parameters, the inputs that the host and the environment
hold for it, and the record of what it has put out. -/
structure State where
  /-- The instance parameters (00_scope.md R8); no step writes them. -/
  params : Params
  /-- The configuration inputs `CFG_SCL_ID`, `CFG_SDA_ID`, `CFG_FREQ`, `CFG_WARN` (10_state.md R42). -/
  cfg : Handle
  /-- The words the host presents on the command port, one after the other: the first is `cmd_word`, and `cmd_valid` is 1 while
  there is one (10_state.md R40; log 18). -/
  cmds : List CmdWord
  /-- The answers of the environment (20_memory.md R54). -/
  env : Env
  /-- The input `rst` (70_reset_and_hazards.md R160): `some k` when it will be asserted once `k` more events or responses have
  left (DESIGN CHOICE, log 8). -/
  rstIn : Option Nat
  /-- CR0 to CR3, the latched handle (10_state.md R22 to R25). -/
  handle : Handle
  /-- `DRV[SCL]`, `DRV[SDA]`: CR4 bits 3 and 4 (10_state.md R21). -/
  drv : Drv
  /-- `OPENED`, CR4 bit 0 (10_state.md R28). -/
  opened : Bool
  /-- `BUSY`, CR4 bit 1 (10_state.md R29). -/
  busy : Bool
  /-- `XFER`, CR4 bit 2, the ghost transfer state: `true` is ACTIVE (10_state.md R30). -/
  xfer : Bool
  /-- `SFACC`, bit 0 `TMO`, bit 1 `RST` (10_state.md R32). -/
  sfAcc : BitVec 2
  /-- The private registers (10_state.md R31, R32). -/
  regs : PrivateRegs
  /-- `SEQ`, the sequencer position (10_state.md R33). -/
  seq : Seq
  /-- `RSP`, CR5 (10_state.md R34). -/
  rsp : RspWord
  /-- What has left the ports, newest first: the event trace (00_scope.md R12) and the responses. It is the
  modelling device of 60_exceptions.md R147, not a port of the hardware (log 9). -/
  log : List Out
  /-- THE MODEL'S OWN (log 4): the number of completed commands, the argument of the free values of the private registers. -/
  completed : Nat
  deriving DecidableEq, Repr

/-- The state right after power-on reset (10_state.md R45): both lines released, `OPENED`, `BUSY`, `XFER`, `SFACC`, `RSP` 0,
`SEQ` at `REST`, reference parameters, no word presented. DESIGN CHOICE (log 2, unsafe): the handle fields and the private
registers, which R45 leaves unspecified, are 0. DESIGN CHOICE (log 6): the configuration inputs hold the standard rate and two
distinct identifiers, the environment's lists are empty, and `rst` is not about to be asserted. -/
def State.reset : State :=
  { params := Config.reference
    cfg := { sclId := ⟨0⟩, sdaId := ⟨1⟩, freq := Config.freqStd, warn := false }
    cmds := []
    env := { scl := [], sda := [], taken := 0 }
    rstIn := none
    handle := { sclId := ⟨0⟩, sdaId := ⟨0⟩, freq := 0, warn := false }
    drv := { scl := false, sda := false }
    opened := false
    busy := false
    xfer := false
    sfAcc := 0
    regs := { shr := 0, acc := 0, bitCnt := 0, pollCnt := 0, pulseCnt := 0, burstCnt := 0 }
    seq := .rest
    rsp := 0
    log := []
    completed := 0 }

/-- Why the machine stops with a fault. The spec's own errors are not here: they are answered with a response
(60_exceptions.md R130 to R132) or survived (R134, R135). -/
inductive Fault where
  /-- Raised by `step` alone, when `BUSY` is 1 and `SEQ` names no sequence that could go on: no run reaches such a state, since
  `SEQ` is `REST` exactly when `BUSY` is 0 (10_state.md R29, R33). Safe: nothing is claimed of a state the spec rules out (log 20). -/
  | noSequence
  deriving DecidableEq, Repr

/-- Why the model gives a step no meaning. -/
inductive Refusal where
  /-- Raised by no meaning: the name under which `exec` rejects an instruction without one. Safe. -/
  | notModelled (mnemonic : String)
  /-- Raised by `step` alone, for instance parameters outside the constraints of 00_scope.md R8 ("a model refuses such an
  instance"). Safe (log 10). -/
  | illegalInstance
  deriving DecidableEq, Repr

end Sys2Proof.Machine
end

