-- ==== Sys2Proof/Machine/Flags.lean ====
section
/-! DEFINITION. The flag and code computations: the soft-failure bits `SFACC` (10_state.md R32), the error codes and the response
word (30_encoding.md R73 to R76), the diagnostic codes (60_exceptions.md R136), the STATUS view (10_state.md R35). -/

namespace Sys2Proof.Machine

/-- The hard errors, raised at command acceptance (60_exceptions.md R130 to R132). -/
inductive HardError where
  | illegalCommand
  | notOpen
  | configError
  deriving DecidableEq, Repr

/-- The two bits of `err` (30_encoding.md R74). -/
def HardError.code : HardError → BitVec 2
  | .illegalCommand => 0b01
  | .notOpen => 0b10
  | .configError => 0b11

/-- `err` of a command that ran to completion (30_encoding.md R74). -/
def noError : BitVec 2 := 0b00

/-- `SFACC.TMO <- 1`: bit 0, sticky (10_state.md R32). -/
def setTmo (sf : BitVec 2) : BitVec 2 := sf ||| 0b01

/-- `SFACC.RST <- 1`: bit 1, sticky (10_state.md R32). -/
def setRst (sf : BitVec 2) : BitVec 2 := sf ||| 0b10

/-- The response word: `err` [11:10], `sf` [9:8], `val` [7:0] (30_encoding.md R73). -/
def rspWord (err sf : BitVec 2) (val : Byte) : RspWord := err ++ sf ++ val

/-- The field `err` of a response (30_encoding.md R73). -/
def rspErr (w : RspWord) : BitVec 2 := w.extractLsb' 10 2

/-- The field `sf` of a response (30_encoding.md R73). -/
def rspSf (w : RspWord) : BitVec 2 := w.extractLsb' 8 2

/-- The field `val` of a response (30_encoding.md R73). -/
def rspVal (w : RspWord) : Byte := w.extractLsb' 0 8

/-- `zext_8` of a level: 0x00 or 0x01 (30_encoding.md R76). -/
def levelByte (v : Level) : Byte := (BitVec.ofBool v).setWidth 8

/-- `diag_code` (60_exceptions.md R136): 0 and 3 are never sent. -/
def DiagCode.bits : DiagCode → BitVec 2
  | .waitTimeout => 1
  | .resetGiveup => 2

/-- `diag_line` (60_exceptions.md R136): 0 for SCL, 1 for SDA. -/
def diagLineBit : Line → BitVec 1
  | .scl => 0
  | .sda => 1

/-- The register CR4, STATUS (10_state.md R35): [0] `OPENED`, [1] `BUSY`, [2] `XFER`, [3] `DRV[SCL]`, [4] `DRV[SDA]`, and
[11:5] hard-wired to 0. -/
def State.status (s : State) : BitVec 12 :=
  (0 : BitVec 7) ++ BitVec.ofBool s.drv.sda ++ BitVec.ofBool s.drv.scl ++ BitVec.ofBool s.xfer ++ BitVec.ofBool s.busy
    ++ BitVec.ofBool s.opened

/-- `cmd_ready = not BUSY` (10_state.md R40). -/
def State.cmdReady (s : State) : Bool := !s.busy

/-- `cmd_valid` (10_state.md R40). -/
def State.cmdValid (s : State) : Bool := !s.cmds.isEmpty

end Sys2Proof.Machine
end

