-- ==== Sys2Proof/Machine/Operands.lean ====
section
/-! DEFINITION. What the operands of the commands stand for (30_encoding.md R72, R83) and the half-period they lead to
(10_state.md R26). -/

namespace Sys2Proof

/-- A quotient in lowest terms. -/
def Micros.quotient (num den : Nat) : Micros :=
  { num := num / Nat.gcd num den, den := den / Nat.gcd num den }

/-- The number a quotient stands for. -/
def Micros.toRat (t : Micros) : Rat := (t.num : Rat) / (t.den : Rat)

end Sys2Proof

namespace Sys2Proof.Machine

/-- The bit `SENDBIT` sends: 1 if the operand is not 0x00, else 0 (30_encoding.md R72). -/
def sentBit (arg : Byte) : Level := arg != 0

/-- The top bit of the shift register as an operand of SENDBIT_SEQ, `SHR & 0x80` (43_byte_transfer.md R110, R115). -/
def topBit (shr : Byte) : Byte := shr &&& 0x80

/-- `(SHR << 1) & 0xFF`: bit 7 is lost, 0 enters at bit 0 (43_byte_transfer.md R115). -/
def shiftOut (shr : Byte) : Byte := shr <<< 1

/-- `((ACC << 1) | s) & 0xFF`: the bit received enters at bit 0 (43_byte_transfer.md R115). -/
def shiftIn (acc : Byte) (v : Level) : Byte := (acc <<< 1) ||| (BitVec.ofBool v).setWidth 8

/-- The four operands of `OPEN`: the configuration inputs at the instant the word is taken (30_encoding.md R83). -/
def State.openOperands (s : State) : Handle := s.cfg

/-- The two configuration checks of `OPEN` (60_exceptions.md R132): distinct identifiers and a frequency that is not 0. -/
def Handle.acceptable (h : Handle) : Bool := h.sclId != h.sdaId && h.freq != 0

/-- The half-period `T = HALF_PERIOD_NUM / FREQ` microseconds of a latched handle, exact (10_state.md R26). -/
def Handle.halfPeriod (h : Handle) : Micros := Micros.quotient Config.halfPeriodNum h.freq.toNat

/-- The half-period in force. -/
def State.T (s : State) : Micros := s.handle.halfPeriod

end Sys2Proof.Machine
end

