-- ==== Sys2Proof/Machine/Ops.lean ====
section
/-! DEFINITION. The named operations every meaning is made of: the events (00_scope.md R12, 20_memory.md R51 to R56), the line
primitives PULL, RELEASE and RELWAIT (40_line_primitives.md R90, R91, R93), acceptance, completion and rejection of a command
(60_exceptions.md R130 to R133), and power-on reset (70_reset_and_hazards.md R160). -/

namespace Sys2Proof.Machine

/-- `DRV[l]` (10_state.md R21). -/
def Drv.get (d : Drv) : Line → Bool
  | .scl => d.scl
  | .sda => d.sda

/-- `DRV[l] <- b`. -/
def Drv.set (d : Drv) (l : Line) (b : Bool) : Drv :=
  match l with
  | .scl => { d with scl := b }
  | .sda => { d with sda := b }

/-- The answers that wait for line `l`. -/
def Env.queue (e : Env) : Line → List Level
  | .scl => e.scl
  | .sda => e.sda

/-- The level of the next sample of the released line `l`: any value the environment gives (20_memory.md R54). -/
def Env.answer (e : Env) (l : Line) : Level :=
  (e.queue l).headD (Config.freeLevel l e.taken)

/-- The environment after a sample of the released line `l`. -/
def Env.afterSample (e : Env) (l : Line) : Env :=
  match l with
  | .scl => { scl := e.scl.tail, sda := e.sda, taken := e.taken + 1 }
  | .sda => { scl := e.scl, sda := e.sda.tail, taken := e.taken + 1 }

/-- `emit E`, the part every event shares: the event joins the trace (00_scope.md R13). -/
def emit (e : Event) (s : State) : State := { s with log := .ev e :: s.log }

/-- `DRV[l] <- b`. -/
def setDrv (l : Line) (b : Bool) (s : State) : State := { s with drv := s.drv.set l b }

/-- Write the environment's remaining answers. -/
def setEnv (e : Env) (s : State) : State := { s with env := e }

/-- Write the private registers. -/
def setRegs (r : PrivateRegs) (s : State) : State := { s with regs := r }

/-- Write `SFACC`. -/
def setSfAcc (sf : BitVec 2) (s : State) : State := { s with sfAcc := sf }

/-- Write the ghost flag `XFER`: `true` is ACTIVE, `false` is IDLE (10_state.md R30). -/
def setXfer (b : Bool) (s : State) : State := { s with xfer := b }

/-- Write the sequencer position `SEQ`. -/
def setSeq (q : Seq) (s : State) : State := { s with seq := q }

/-- Latch the handle, CR0 to CR3 together (10_state.md R27). -/
def setHandle (h : Handle) (s : State) : State := { s with handle := h }

/-- Write `OPENED`. -/
def setOpened (b : Bool) (s : State) : State := { s with opened := b }

/-- The event `Drive(l)` (20_memory.md R51): one atomic event, `DRV[l] <- 1` (log 13). -/
def drive (l : Line) (s : State) : State := emit (.drive l) (setDrv l true s)

/-- The event `Release(l)` (20_memory.md R52): `DRV[l] <- 0`. -/
def float (l : Line) (s : State) : State := emit (.release l) (setDrv l false s)

/-- The event `Pullup(l)` (20_memory.md R53): no state of the controller changes. -/
def pullup (l : Line) (s : State) : State := emit (.pullup l) s

/-- The event `WaitUs(T)` (20_memory.md R55): `T` is the only argument ever passed. -/
def waitHalf (s : State) : State := emit (.waitUs s.T) s

/-- The event `WaitMs(t)` (20_memory.md R55). -/
def waitMs (t : Nat) (s : State) : State := emit (.waitMs t) s

/-- The event `Diag(code, l)`, emitted only when `WARN = 1` (60_exceptions.md R136). -/
def warn (code : DiagCode) (l : Line) (s : State) : State :=
  if s.handle.warn then emit (.diag code l) s else s

/-- The event `Sample(l) -> v` (20_memory.md R54): 0 on a line the controller itself drives (log 12), else what the environment answers. -/
def sample (l : Line) (s : State) : Level × State :=
  if s.drv.get l then
    (false, emit (.sample l false) (setEnv { s.env with taken := s.env.taken + 1 } s))
  else
    (s.env.answer l, emit (.sample l (s.env.answer l)) (setEnv (s.env.afterSample l) s))

/-- `PULL(l)` (40_line_primitives.md R90). -/
def pull (l : Line) (s : State) : State := waitHalf (drive l s)

/-- `RELEASE(l) -> v` (40_line_primitives.md R91): release, wait one half-period, sample once. -/
def release (l : Line) (s : State) : Level × State := sample l (waitHalf (float l s))

/-- `POLLCNT <- n`. -/
def setPollCnt (n : Nat) (s : State) : State := setRegs { s.regs with pollCnt := n } s

/-- One poll of RELWAIT: wait `POLL_INTERVAL_MS`, sample, count (40_line_primitives.md R93). -/
def poll (l : Line) (s : State) : Level × State :=
  ((sample l (waitMs s.params.pollIntervalMs s)).1,
    setPollCnt (s.regs.pollCnt + 1) (sample l (waitMs s.params.pollIntervalMs s)).2)

/-- The loop of RELWAIT (40_line_primitives.md R93): `while v = 0 and POLLCNT < POLL_MAX`. The first argument bounds the rounds. -/
def pollLoop : Nat → Line → Level × State → Level × State
  | 0, _, r => r
  | n + 1, l, r =>
    if r.1 = false ∧ r.2.regs.pollCnt < r.2.params.pollMax then pollLoop n l (poll l r.2) else r

/-- The soft failure `WAIT_TIMEOUT` (60_exceptions.md R134): the sticky bit, and the diagnostic if `WARN = 1`. -/
def timeOut (l : Line) (s : State) : State := warn .waitTimeout l (setSfAcc (setTmo s.sfAcc) s)

/-- `RELWAIT(l) -> v` (40_line_primitives.md R93), the clock-stretching recovery FSM. -/
def relwait (l : Line) (s : State) : Level × State :=
  let r := release l s
  let w := pollLoop s.params.pollMax l (r.1, setPollCnt 0 r.2)
  (w.1, if w.1 then w.2 else timeOut l w.2)

/-- A command is accepted (60_exceptions.md R133): `BUSY <- 1`, `SFACC <- 0`, and its sequence is what runs. -/
def accept (s : State) : State := { s with busy := true, sfAcc := 0, seq := .inCommand }

/-- A command responds (10_state.md R41): `RSP` takes the word and `rsp_valid` pulses. -/
def respond (w : RspWord) (s : State) : State := { s with rsp := w, log := .rsp w :: s.log }

/-- What the private registers hold once a command has ended: free values, since they are dead between commands and their
values there are unspecified (10_state.md R31, 93_implementation_defined.md U8; log 4). -/
def freeRegs (n : Nat) : PrivateRegs :=
  { shr := Config.freeShr n
    acc := Config.freeAcc n
    bitCnt := Config.freeBitCnt n
    pollCnt := Config.freePollCnt n
    pulseCnt := Config.freePulseCnt n
    burstCnt := Config.freeBurstCnt n }

/-- An accepted command ends (60_exceptions.md R133): `RSP <- (err = 0, sf = SFACC, val)`, `BUSY <- 0`, `SEQ` at `REST`. -/
def complete (val : Byte) (s : State) : State :=
  { respond (rspWord noError s.sfAcc val) s with
    busy := false
    seq := .rest
    regs := freeRegs s.completed
    completed := s.completed + 1 }

/-- A HARD ERROR IS TAKEN (60_exceptions.md R130 to R133, R140), the one shared operation for the three of them: no event, no state
change but `RSP <- (err, sf = 0, val = 0)`, and one response; control goes nowhere and nothing is saved. -/
def reject (e : HardError) (s : State) : State := respond (rspWord e.code 0 0) s

/-- POWER-ON RESET (70_reset_and_hazards.md R160): every item of state takes its value of 10_state.md R45; the inputs, which are
the host's and the environment's, stay. No event is emitted; the record shows where it happened. -/
def powerOn (s : State) : State :=
  { s with
    rstIn := none
    handle := State.reset.handle
    drv := State.reset.drv
    opened := State.reset.opened
    busy := State.reset.busy
    xfer := State.reset.xfer
    sfAcc := State.reset.sfAcc
    regs := State.reset.regs
    seq := State.reset.seq
    rsp := State.reset.rsp
    log := .powerOn :: s.log }

end Sys2Proof.Machine
end

