-- ==== Sys2Proof/Machine/BitTransfer.lean ====
section
/-! DEFINITION. The bit-transfer engine (42_bit_transfer.md): the sequences SENDBIT_SEQ and READBIT_SEQ, and the meanings of
`SENDBIT` and `READBIT`. -/

namespace Sys2Proof.Machine

/-- The first micro-operation of SENDBIT_SEQ (R105): `RELEASE(SDA)` for a 1, its result ignored, `PULL(SDA)` for a 0. -/
def presentBit (b : Level) (s : State) : State :=
  if b then (release .sda s).2 else pull .sda s

/-- The end of every bit transfer (R105, R106): `PULL(SCL)`, then `PULL(SDA)`, the idle-safe default. -/
def endBit (s : State) : State := pull .sda (pull .scl s)

/-- SENDBIT_SEQ(x) (R105): the operand is the 8-bit `x`. -/
def sendBitSeq (x : Byte) (s : State) : State :=
  endBit (relwait .scl (presentBit (sentBit x) s)).2

/-- READBIT_SEQ() -> s (R106): the result is the bare sample of SDA after RELWAIT(SCL). -/
def readBitSeq (s : State) : Level × State :=
  let r := sample .sda (relwait .scl (release .sda s).2).2
  (r.1, endBit r.2)

/-- `SENDBIT arg` (R105). -/
def execSendBit (arg : Byte) (s : State) : Host.Outcome State Fault Refusal :=
  if s.opened then
    .next (complete 0 (sendBitSeq arg (accept s)))
  else
    .next (reject .notOpen s)

/-- `READBIT` (R106): `val = zext_8` of the bit. -/
def execReadBit (s : State) : Host.Outcome State Fault Refusal :=
  if s.opened then
    let r := readBitSeq (accept s)
    .next (complete (levelByte r.1) r.2)
  else
    .next (reject .notOpen s)

end Sys2Proof.Machine
end

