-- ==== Sys2Proof/Machine/ByteTransfer.lean ====
section
/-! DEFINITION. The byte-transfer frame engine (43_byte_transfer.md): the sequences SENDBYTE_SEQ and READBYTE_SEQ, and the meanings
of `SENDBYTE` and `READBYTE`. -/

namespace Sys2Proof.Machine

/-- `SHR <- x ; BITCNT <- 0` (R110). -/
def loadShr (x : Byte) (s : State) : State := setRegs { s.regs with shr := x, bitCnt := 0 } s

/-- `ACC <- 0x00 ; BITCNT <- 0` (R111). -/
def clearAcc (s : State) : State := setRegs { s.regs with acc := 0, bitCnt := 0 } s

/-- After a bit is sent (R110): `SHR <- (SHR << 1) & 0xFF ; BITCNT <- BITCNT + 1`. -/
def shiftShr (s : State) : State := setRegs { s.regs with shr := shiftOut s.regs.shr, bitCnt := s.regs.bitCnt + 1 } s

/-- After a bit is received (R111): `ACC <- ((ACC << 1) | s) & 0xFF ; BITCNT <- BITCNT + 1`. -/
def shiftAcc (v : Level) (s : State) : State :=
  setRegs { s.regs with acc := shiftIn s.regs.acc v, bitCnt := s.regs.bitCnt + 1 } s

/-- `repeat n` of SENDBYTE_SEQ (R110): send the top bit of `SHR`, shift, count. -/
def sendBits : Nat → State → State
  | 0, s => s
  | n + 1, s => sendBits n (shiftShr (sendBitSeq (topBit s.regs.shr) s))

/-- `repeat n` of READBYTE_SEQ (R111): receive a bit, shift it in, count. -/
def readBits : Nat → State → State
  | 0, s => s
  | n + 1, s => readBits n (shiftAcc (readBitSeq s).1 (readBitSeq s).2)

/-- SENDBYTE_SEQ(x) -> a (R110): eight bits, then the ack slot. -/
def sendByteSeq (x : Byte) (s : State) : Level × State := readBitSeq (sendBits 8 (loadShr x s))

/-- READBYTE_SEQ() -> y (R111). -/
def readByteSeq (s : State) : Byte × State :=
  let t := readBits 8 (clearAcc s)
  (t.regs.acc, t)

/-- `SENDBYTE arg` (R110): `val = zext_8` of the acknowledge bit, 0 = ACK, 1 = NACK. -/
def execSendByte (arg : Byte) (s : State) : Host.Outcome State Fault Refusal :=
  if s.opened then
    let r := sendByteSeq arg (accept s)
    .next (complete (levelByte r.1) r.2)
  else
    .next (reject .notOpen s)

/-- `READBYTE` (R111): `val` is the byte assembled. -/
def execReadByte (s : State) : Host.Outcome State Fault Refusal :=
  if s.opened then
    let r := readByteSeq (accept s)
    .next (complete r.1 r.2)
  else
    .next (reject .notOpen s)

end Sys2Proof.Machine
end

