-- ==== Sys2Proof/Machine/SequenceControl.lean ====
section
/-! DEFINITION. The start/stop/reset sequencer (44_sequence_control.md): the sequences START_SEQ, STOP_SEQ and RESET_SEQ, the way a
RESET_SEQ goes on after a step that left it pending, and the meanings of `START`, `STOP` and `RESET`. -/

namespace Sys2Proof.Machine

/-- `PULSECNT <- n`. -/
def setPulseCnt (n : Nat) (s : State) : State := setRegs { s.regs with pulseCnt := n } s

/-- `BURSTCNT <- n`. -/
def setBurstCnt (n : Nat) (s : State) : State := setRegs { s.regs with burstCnt := n } s

/-- One clock pulse of a burst (R124): `PULL(SCL)`, plain `RELEASE(SCL)`, its result ignored, count. -/
def pulse (s : State) : State :=
  let t := (release .scl (pull .scl s)).2
  setPulseCnt (t.regs.pulseCnt + 1) t

/-- `repeat n: pulse`. -/
def pulses : Nat → State → State
  | 0, s => s
  | n + 1, s => pulses n (pulse s)

/-- One burst and its check (R124): `BURST_PULSES` pulses, then a bare `Sample(SDA)`. -/
def burst (s : State) : Level × State := sample .sda (pulses s.params.burstPulses (setPulseCnt 0 s))

/-- The loop of RESET_SEQ (R124): `true` when a check read 1, `false` when the bound was reached. The first argument bounds the
rounds. -/
def burstLoop : Nat → State → Bool × State
  | 0, s => (false, s)
  | n + 1, s =>
    let r := burst s
    if r.1 then (true, r.2)
    else
      let t := setBurstCnt (r.2.regs.burstCnt + 1) r.2
      if t.regs.burstCnt = t.params.burstMax then (false, t)
      else burstLoop n (waitMs t.params.burstDelayMs t)

/-- The soft failure `RESET_GIVEUP` (60_exceptions.md R135): the sticky bit, the diagnostic if `WARN = 1`, `XFER <- IDLE`. -/
def giveUp (s : State) : State := setXfer false (warn .resetGiveup .sda (setSfAcc (setRst s.sfAcc) s))

/-- The line activity of STOP_SEQ (R122): `RELWAIT(SCL)`, its result ignored, then `v <- RELEASE(SDA)`. -/
def stopLines (s : State) : Level × State := release .sda (relwait .scl s).2

/-- The success path of RESET_SEQ up to its last act (R124): `PULL(SCL)`, `PULL(SDA)`, in this order
(log 14), then the line activity of STOP_SEQ. -/
def recoverLines (s : State) : Level × State := stopLines (pull .sda (pull .scl s))

/-- RESET_SEQ() once through (R124), with the STOP_SEQ it ends with (R122): `true` when the sequence is over; `false` when that
STOP_SEQ saw SDA fail to rise and so invokes RESET_SEQ again (R126). -/
def resetRound (s : State) : Bool × State :=
  let b := burstLoop s.params.burstMax (setBurstCnt 0 (release .sda s).2)
  if b.1 then
    let v := recoverLines b.2
    if v.1 then (true, setXfer false v.2) else (false, v.2)
  else (true, giveUp b.2)

/-- What START_SEQ does after its check (R121): `RELWAIT(SCL)`, `PULL(SDA)`, the START condition, `PULL(SCL)`, `XFER <- ACTIVE`. -/
def startTail (s : State) : State := setXfer true (pull .scl (pull .sda (relwait .scl s).2))

/-- A command whose RESET_SEQ is over ends, by way of the one pending return if there is one (R126). -/
def finish (ret : Pending) (s : State) : State :=
  match ret with
  | .nothing => complete 0 s
  | .toStart => complete 0 (startTail s)

/-- RESET_SEQ with what follows it. When its STOP_SEQ invokes it again the command is still in progress, `BUSY` stays 1, and `SEQ`
holds what comes next (R126, 70_reset_and_hazards.md R170; log 1). -/
def runReset (ret : Pending) (s : State) : State :=
  let r := resetRound s
  if r.1 then finish ret r.2 else setSeq (.resetNext ret) r.2

/-- START_SEQ (R121). -/
def startSeq (s : State) : State :=
  let r := release .sda s
  if r.1 then finish .toStart r.2 else runReset .toStart r.2

/-- STOP_SEQ (R122). -/
def stopSeq (s : State) : State :=
  let r := stopLines s
  if r.1 then complete 0 (setXfer false r.2) else runReset .nothing r.2

/-- A command in progress goes on from the sequencer position (10_state.md R33). -/
def resume (s : State) : Host.Outcome State Fault Refusal :=
  match s.seq with
  | .rest => .fault .noSequence
  | .inCommand => .fault .noSequence
  | .resetNext ret => .next (runReset ret s)

/-- `START` (R121). -/
def execStart (s : State) : Host.Outcome State Fault Refusal :=
  if s.opened then .next (startSeq (accept s)) else .next (reject .notOpen s)

/-- `STOP` (R122). -/
def execStop (s : State) : Host.Outcome State Fault Refusal :=
  if s.opened then .next (stopSeq (accept s)) else .next (reject .notOpen s)

/-- `RESET`, the command (R123). -/
def execReset (s : State) : Host.Outcome State Fault Refusal :=
  if s.opened then .next (runReset .nothing (accept s)) else .next (reject .notOpen s)

end Sys2Proof.Machine
end

