-- ==== Sys2Proof/Machine/Open.lean ====
section
/-! DEFINITION. Handle construction (41_open.md): the meaning of `OPEN`. -/

namespace Sys2Proof.Machine

/-- The construction of the handle at acceptance (R100): the four fields together, `OPENED <- 1`. -/
def construct (h : Handle) (s : State) : State := setOpened true (setHandle h s)

/-- Step 1 of OPEN_SEQ (R101): both lines to input, then both pull-ups, with no wait and no sample. -/
def openLines (s : State) : State := pullup .sda (pullup .scl (float .sda (float .scl s)))

/-- `OPEN` (R100): the configuration checks before anything else; then the handle, OPEN_SEQ, and the response. -/
def execOpen (s : State) : Host.Outcome State Fault Refusal :=
  if s.openOperands.acceptable then
    .next (runReset .nothing (openLines (accept (construct s.openOperands s))))
  else
    .next (reject .configError s)

end Sys2Proof.Machine
end

