-- ==== Sys2Proof/Machine/Dispatch.lean ====
section
/-! DEFINITION. One arm per command, each one direct call of the command's meaning. -/

namespace Sys2Proof.Machine

/-- What a taken and decoded command does: the acceptance checks that follow decoding (60_exceptions.md R133) and the sequence. -/
def exec (i : Instr) (s : State) : Host.Outcome State Fault Refusal :=
  match i with
  | .openBus => Sys2Proof.Machine.execOpen s
  | .start => Sys2Proof.Machine.execStart s
  | .stop => Sys2Proof.Machine.execStop s
  | .reset => Sys2Proof.Machine.execReset s
  | .sendBit arg => Sys2Proof.Machine.execSendBit arg s
  | .readBit => Sys2Proof.Machine.execReadBit s
  | .sendByte arg => Sys2Proof.Machine.execSendByte arg s
  | .readByte => Sys2Proof.Machine.execReadByte s

end Sys2Proof.Machine
end

