-- ==== Sys2Proof/Machine/CommandPort.lean ====
section
/-! DEFINITION. The command port (10_state.md R40) and the reset input (70_reset_and_hazards.md R160): what a step does with the
word that is presented, with a command in progress, and with `rst`. -/

namespace Sys2Proof.Machine

/-- The word presented on the command port and the state in which it has been taken (10_state.md R40). -/
def fetchWord (s : State) : Option (CmdWord × State) :=
  match s.cmds with
  | [] => none
  | w :: ws => some (w, { s with cmds := ws })

/-- A word is taken (60_exceptions.md R133): decoded, else rejected with `IllegalCommand`. -/
def takeWord (w : CmdWord) (s : State) : Host.Outcome State Fault Refusal :=
  match decode w with
  | some i => exec i s
  | none => .next (reject .illegalCommand s)

/-- One step without the reset input: a command in progress goes on and a presented word waits (R40); else the presented word is
taken; with no word presented the controller stays at rest (log 18). -/
def stepPort (s : State) : Host.Outcome State Fault Refusal :=
  if s.busy then resume s
  else
    match fetchWord s with
    | none => .next s
    | some p => takeWord p.1 p.2

/-- The events of a record, oldest first. -/
def eventsOf : List Out → List Event
  | [] => []
  | .ev e :: r => eventsOf r ++ [e]
  | .rsp _ :: r => eventsOf r
  | .powerOn :: r => eventsOf r

/-- The event trace since the beginning of the record (00_scope.md R12), oldest first. -/
def State.trace (s : State) : List Event := eventsOf s.log

/-- The events that `t`, a later state of the same run, has seen and `s` has not. -/
def eventsSince (s t : State) : List Event := t.trace.drop s.trace.length

/-- How many events and responses have left between `s` and `t`, a later state of the same run. -/
def entriesSince (s t : State) : Nat := t.log.length - s.log.length

/-- How many of the events are samples of line `l`. -/
def samplesOf (l : Line) (es : List Event) : Nat :=
  es.countP fun e => match e with
    | .sample m _ => m == l
    | .drive _ => false
    | .release _ => false
    | .pullup _ => false
    | .waitUs _ => false
    | .waitMs _ => false
    | .diag _ _ => false

/-- The events `es` have happened: they join the record and the environment has given its answers. -/
def happened (es : List Event) (s : State) : State :=
  { s with
    log := (es.map Out.ev).reverse ++ s.log
    env := { scl := s.env.scl.drop (samplesOf .scl es)
             sda := s.env.sda.drop (samplesOf .sda es)
             taken := s.env.taken + samplesOf .scl es + samplesOf .sda es } }

/-- A command abandoned by `rst` once the events `es` have happened (70_reset_and_hazards.md R160): no response, and the state of
power-on reset. `s` is the state in which the step began; the word the step took is gone. -/
def abandon (es : List Event) (s : State) : State :=
  powerOn (happened es { s with cmds := if s.busy then s.cmds else s.cmds.tail })

/-- One step with the reset input (70_reset_and_hazards.md R160): `rst` at once, or in the middle of what the step would do, or
still to come. -/
def stepReset (s : State) : Host.Outcome State Fault Refusal :=
  match s.rstIn with
  | none => stepPort s
  | some 0 => .next (powerOn s)
  | some (k + 1) =>
    match stepPort s with
    | .next t =>
      if entriesSince s t ≤ k + 1 then .next { t with rstIn := some (k + 1 - entriesSince s t) }
      else .next (abandon ((eventsSince s t).take (k + 1)) s)
    | .fault r => .fault r
    | .refused r => .refused r

/-- Present a word to a controller that can take it: nothing in progress and no reset about to come. -/
def present (w : CmdWord) (s : State) : State :=
  { s with busy := false, seq := .rest, rstIn := none, cmds := w :: s.cmds }

end Sys2Proof.Machine
end

