-- ==== Sys2Proof/Machine/Step.lean ====
section
/-! DEFINITION. One step of the controller, and the placing of a word where a step takes its next command. -/

namespace Sys2Proof.Machine

/-- One step: an instance outside the constraints of 00_scope.md R8 is refused; else the reset input and the command port decide. -/
def step (s : State) : Host.Outcome State Fault Refusal :=
  if s.params.wellFormed then stepReset s else .refused .illegalInstance

/-- The state in which the next step takes and runs the command whose bits are `w`, numbered as spec/opcode_table.json numbers
them: the word is presented first on the command port of a controller at rest (log 5). -/
def State.withFetchWord (s : State) (nbits w : Nat) : State :=
  present (BitVec.ofNat 12 (w % 2 ^ nbits)) s

end Sys2Proof.Machine
end

