-- ==== Sys2Proof/Machine/Assembler.lean ====
section
/-! DEFINITION. The assembler syntax (30_encoding.md R80, R81): one command a line, a mnemonic in capitals and at most one operand, a
comment after a semicolon, `-> name` for the result. It maps a line to a command; nothing of it is state of the controller. What the rule
leaves open about spelling is log 22. -/

namespace Sys2Proof.Machine

/-- A line of the command stream: the command, and the name given to the `val` of its response. -/
structure AsmLine where
  instr : Instr
  resultName : Option (List Char)
  deriving DecidableEq, Repr

/-- The words of a line, cut at blanks, up to the comment; a character in single quotes is kept whole. -/
def asmWords : List Char → List Char → List (List Char)
  | [], cur => if cur.isEmpty then [] else [cur]
  | '\'' :: c :: '\'' :: r, cur => asmWords r (cur ++ ['\'', c, '\''])
  | c :: r, cur =>
    if c = ';' then (if cur.isEmpty then [] else [cur])
    else if c = ' ' ∨ c = '\t' then (if cur.isEmpty then [] else [cur]) ++ asmWords r []
    else asmWords r (cur ++ [c])

/-- The value of a digit in base 16 or below. -/
def digitValue (c : Char) : Option Nat :=
  let n := c.toNat
  if 48 ≤ n ∧ n ≤ 57 then some (n - 48)
  else if 65 ≤ n ∧ n ≤ 70 then some (n - 55)
  else if 97 ≤ n ∧ n ≤ 102 then some (n - 87)
  else none

/-- A row of digits in a base. -/
def digitsValue (base : Nat) : Nat → List Char → Option Nat
  | acc, [] => some acc
  | acc, c :: r =>
    match digitValue c with
    | none => none
    | some d => if d < base then digitsValue base (acc * base + d) r else none

/-- A numeral in decimal, `0x` hexadecimal or `0b` binary, or a character in single quotes (30_encoding.md R80).
PRESUMED (log 21): the code of a character is its ASCII code. DESIGN CHOICE (log 22): a character that has no ASCII code stands for its
Unicode code point, so that one at 128 to 255 is accepted as a byte. -/
def asmNumber : List Char → Option Nat
  | ['\'', c, '\''] => some c.toNat
  | '0' :: 'x' :: d :: r => digitsValue 16 0 (d :: r)
  | '0' :: 'b' :: d :: r => digitsValue 2 0 (d :: r)
  | d :: r => digitsValue 10 0 (d :: r)
  | [] => none

/-- A byte operand. -/
def asmByte (w : List Char) : Option Byte :=
  match asmNumber w with
  | none => none
  | some n => if n < 256 then some (BitVec.ofNat 8 n) else none

/-- The `-> name` at the end of a line (30_encoding.md R80). DESIGN CHOICE (log 22): R80 gives no form for the name, and any word free of
blanks outside quotes is one, a numeral, a quoted character and another arrow included; the arrow is a word of its own. -/
def splitResult : List (List Char) → List (List Char) × Option (List Char)
  | [] => ([], none)
  | [['-', '>'], name] => ([], some name)
  | w :: r => (w :: (splitResult r).1, (splitResult r).2)

/-- The four configuration inputs written after `OPEN` for the reader's benefit; they are no part of the word (30_encoding.md R80). -/
def openNote : List (List Char) → Bool
  | [] => true
  | [a, b, c, d] =>
    "scl=".toList.isPrefixOf a && "sda=".toList.isPrefixOf b && "freq=".toList.isPrefixOf c && (d = "warn=0".toList || d = "warn=1".toList)
  | _ => false

/-- The command spelled by a mnemonic and its operands (30_encoding.md R80, R81); `none` where the assembler refuses it.
DESIGN CHOICE (log 22): the operand of `ADDRW` and `ADDRR` is spelled in the forms of R80, a quoted character included. -/
def asmCommand (m : List Char) (ops : List (List Char)) : Option Instr :=
  if m = "OPEN".toList then (if openNote ops then some .openBus else none)
  else
    match ops with
    | [] =>
      if m = "START".toList then some .start
      else if m = "STOP".toList then some .stop
      else if m = "RESET".toList then some .reset
      else if m = "READBIT".toList then some .readBit
      else if m = "READBYTE".toList then some .readByte
      else if m = "ACK".toList then Pseudo.ack.expand
      else if m = "NACK".toList then Pseudo.nack.expand
      else none
    | [w] =>
      if m = "SENDBIT".toList then (asmByte w).map .sendBit
      else if m = "SENDBYTE".toList then (asmByte w).map .sendByte
      else if m = "ADDRW".toList then (asmNumber w).bind fun a => (Pseudo.addrW a).expand
      else if m = "ADDRR".toList then (asmNumber w).bind fun a => (Pseudo.addrR a).expand
      else none
    | _ => none

/-- A line of the command stream; `none` when it spells no command. -/
def assemble (line : List Char) : Option AsmLine :=
  match splitResult (asmWords line []) with
  | ([], _) => none
  | (m :: ops, name) => (asmCommand m ops).map fun i => { instr := i, resultName := name }

end Sys2Proof.Machine
end

