-- ==== Sys2Proof/Machine/Ports.lean ====
section
/-! DEFINITION. What the outside sees of the controller: the pins, the control registers and the pulses of the response, pull-up and
diagnostic ports (10_state.md R35, R39 to R43), each a view of State or of one entry of the record. -/

namespace Sys2Proof.Machine

/-- The output `l_drive_low`, equal to `DRV[l]` at all times (10_state.md R39). -/
def State.pinDriveLow (s : State) (l : Line) : Bool := s.drv.get l

/-- The control registers, wires that the host reads whole and cannot write (10_state.md R35, 20_memory.md R61). -/
structure ControlRegs where
  cr0 : LineId
  cr1 : LineId
  cr2 : Hertz
  cr3 : BitVec 1
  cr4 : BitVec 12
  cr5 : RspWord
  deriving DecidableEq, Repr

/-- CR0 to CR5 as they read in a state (10_state.md R35). -/
def State.controlRegs (s : State) : ControlRegs :=
  { cr0 := s.handle.sclId
    cr1 := s.handle.sdaId
    cr2 := s.handle.freq
    cr3 := BitVec.ofBool s.handle.warn
    cr4 := s.status
    cr5 := s.rsp }

/-- The pulse `l_pullup_en` an entry of the record stands for (10_state.md R39). -/
def pullupPulse : Out → Option Line
  | .ev (.pullup l) => some l
  | .ev (.drive _) => none
  | .ev (.release _) => none
  | .ev (.sample _ _) => none
  | .ev (.waitUs _) => none
  | .ev (.waitMs _) => none
  | .ev (.diag _ _) => none
  | .rsp _ => none
  | .powerOn => none

/-- The pulse of `diag_valid` an entry stands for, with `diag_code` and `diag_line` (10_state.md R43, 60_exceptions.md R136). -/
def diagPulse : Out → Option (BitVec 2 × BitVec 1)
  | .ev (.diag code l) => some (code.bits, diagLineBit l)
  | .ev (.drive _) => none
  | .ev (.release _) => none
  | .ev (.pullup _) => none
  | .ev (.sample _ _) => none
  | .ev (.waitUs _) => none
  | .ev (.waitMs _) => none
  | .rsp _ => none
  | .powerOn => none

/-- The pulse of `rsp_valid` an entry stands for, with `rsp_word` (10_state.md R41). -/
def rspPulse : Out → Option RspWord
  | .rsp w => some w
  | .ev _ => none
  | .powerOn => none

end Sys2Proof.Machine
end

