-- ==== Sys2Proof/Machine/Wire.lean ====
section
/-! DEFINITION. The wire (20_memory.md R58, R66): the levels of the two lines as the wired-AND of the controller and the outside,
computed along an event trace, and the START conditions, STOP conditions and data bits they show. -/

namespace Sys2Proof.Machine

/-- What everything but the controller does to the lines at an instant (20_memory.md R58; log 24): whether a peripheral holds a line
low, and whether its pull-up is present. -/
structure Outside where
  sclHeld : Bool
  sdaHeld : Bool
  sclPulledUp : Bool
  sdaPulledUp : Bool
  deriving DecidableEq, Repr

/-- The quiet environment: nobody holds a line low and the pull-ups are present (20_memory.md R58). -/
def Outside.quiet : Outside :=
  { sclHeld := false, sdaHeld := false, sclPulledUp := true, sdaPulledUp := true }

/-- The levels of the two lines at an instant. -/
structure Levels where
  scl : Level
  sda : Level
  deriving DecidableEq, Repr

/-- The wired-AND (20_memory.md R58): 0 if the controller drives the line, or a peripheral holds it, or it has no pull-up. -/
def wireLevel (driven held pulledUp : Bool) : Level := !driven && !held && pulledUp

/-- The levels of both lines (20_memory.md R58). -/
def busLevels (d : Drv) (o : Outside) : Levels :=
  { scl := wireLevel d.scl o.sclHeld o.sclPulledUp
    sda := wireLevel d.sda o.sdaHeld o.sdaPulledUp }

/-- What an event does to the drive bits (10_state.md R21): only `Drive` and `Release` write them. -/
def Drv.after (d : Drv) : Event → Drv
  | .drive l => d.set l true
  | .release l => d.set l false
  | .pullup _ => d
  | .sample _ _ => d
  | .waitUs _ => d
  | .waitMs _ => d
  | .diag _ _ => d

/-- The levels after each event of a trace, the outside given event by event. -/
def levelsAlong : Drv → List (Outside × Event) → List Levels
  | _, [] => []
  | d, (o, e) :: r => busLevels (d.after e) o :: levelsAlong (d.after e) r

/-- The levels before a trace and after each of its events, under the quiet environment. -/
def quietLevels (d : Drv) (es : List Event) : List Levels :=
  busLevels d .quiet :: levelsAlong d (es.map fun e => (Outside.quiet, e))

/-- A condition on the wire (20_memory.md R66). -/
inductive Condition where
  | start
  | stop
  deriving DecidableEq, Repr

/-- A START is a fall of SDA, a STOP a rise of SDA, while SCL is 1 (20_memory.md R66). -/
def conditionAt (a b : Levels) : Option Condition :=
  if a.scl && b.scl then
    if a.sda && !b.sda then some .start
    else if !a.sda && b.sda then some .stop
    else none
  else none

/-- The conditions along a sequence of levels, in order. -/
def conditions : List Levels → List Condition
  | [] => []
  | [_] => []
  | a :: b :: r => (conditionAt a b).toList ++ conditions (b :: r)

/-- The level of SDA at each falling edge of SCL along a sequence of levels: the data bits of the wire (20_memory.md R66,
95_test_vectors.md Part 3). -/
def bitsAtClockFall : List Levels → List Level
  | [] => []
  | [_] => []
  | a :: b :: r => (if a.scl && !b.scl then [a.sda] else []) ++ bitsAtClockFall (b :: r)

/-- The bits of a byte in the order of the wire, most-significant first (20_memory.md R59, 43_byte_transfer.md R110). -/
def wireBits (x : Byte) : List Level :=
  [x.getLsbD 7, x.getLsbD 6, x.getLsbD 5, x.getLsbD 4, x.getLsbD 3, x.getLsbD 2, x.getLsbD 1, x.getLsbD 0]

end Sys2Proof.Machine
end

