-- ==== Sys2Proof/Safety.lean ====
section
/-! DEFINITION. The terms in which claims speak about a run: the traces of the line primitives and sequences written as lists of events,
the answers of the environment that a bounded wait or a bus reset takes, the state in which a command ends, and the properties
every state and every trace of the controller has. -/

namespace Sys2Proof.Machine

/-- The record after the events `es`, given oldest first. -/
def record (es : List Event) (log : List Out) : List Out := (es.map Out.ev).reverse ++ log

/-- The trace of PULL(l) (40_line_primitives.md R90). -/
def tPull (T : Micros) (l : Line) : List Event := [.drive l, .waitUs T]

/-- The trace of RELEASE(l) answered with `v` (40_line_primitives.md R91). -/
def tRelease (T : Micros) (l : Line) (v : Level) : List Event := [.release l, .waitUs T, .sample l v]

/-- `vs` are the answers that one whole RELWAIT takes (40_line_primitives.md R93): it reads 0 up to `POLL_MAX` times and then 1, or
it reads 0 at the first sample and at every poll. -/
def WholeWait (pollMax : Nat) (vs : List Level) : Prop :=
  (∃ k, k ≤ pollMax ∧ vs = List.replicate k false ++ [true]) ∨ vs = List.replicate (pollMax + 1) false

/-- Whether the line rose during a wait. -/
def rose (vs : List Level) : Bool := vs.any fun v => v

/-- The samples of a RELWAIT with the delays before its polls. -/
def tSamples (intervalMs : Nat) (l : Line) : List Level → List Event
  | [] => []
  | v :: vs => .sample l v :: vs.flatMap fun u => [.waitMs intervalMs, .sample l u]

/-- The trace of RELWAIT(SCL) answered with `vs` (40_line_primitives.md R93). -/
def tWait (p : Params) (h : Handle) (vs : List Level) : List Event :=
  [.release .scl, .waitUs h.halfPeriod] ++ tSamples p.pollIntervalMs .scl vs
    ++ if rose vs || !h.warn then [] else [.diag .waitTimeout .scl]

/-- `SFACC` after a RELWAIT answered with `vs`. -/
def waitSf (vs : List Level) (sf : BitVec 2) : BitVec 2 := if rose vs then sf else setTmo sf

/-- What the environment answers during one bit transfer: SDA when `RELEASE(SDA)` samples it, SCL during RELWAIT, and SDA at the bare
sample that reads a bit. Sending a 0 takes only the SCL answers, sending a 1 no bare sample. -/
structure BitSlot where
  first : Level
  wait : List Level
  result : Level
  deriving DecidableEq, Repr

/-- The trace of SENDBIT_SEQ for the bit `b` (42_bit_transfer.md R105). -/
def tSendBit (p : Params) (h : Handle) (b : Level) (a : BitSlot) : List Event :=
  (if b then tRelease h.halfPeriod .sda a.first else tPull h.halfPeriod .sda)
    ++ tWait p h a.wait ++ tPull h.halfPeriod .scl ++ tPull h.halfPeriod .sda

/-- The trace of READBIT_SEQ (42_bit_transfer.md R106). -/
def tReadBit (p : Params) (h : Handle) (a : BitSlot) : List Event :=
  tRelease h.halfPeriod .sda a.first ++ tWait p h a.wait ++ [.sample .sda a.result]
    ++ tPull h.halfPeriod .scl ++ tPull h.halfPeriod .sda

/-- The SDA answers a sent bit takes. -/
def sdaOfSend (b : Level) (a : BitSlot) : List Level := if b then [a.first] else []

/-- The SDA answers a received bit takes. -/
def sdaOfRead (a : BitSlot) : List Level := [a.first, a.result]

/-- `SFACC` after a row of bit transfers. -/
def slotsSf (sf : BitVec 2) : List BitSlot → BitVec 2
  | [] => sf
  | a :: r => slotsSf (waitSf a.wait sf) r

/-- How one RESET_SEQ ends (44_sequence_control.md R124, R126). -/
inductive ResetEnd where
  /-- The last check read 1; RELWAIT of the final STOP_SEQ took `wait`, and SDA rose. -/
  | recovered (wait : List Level)
  /-- The last check read 1; RELWAIT of the final STOP_SEQ took `wait`, and SDA failed to rise. -/
  | again (wait : List Level)
  /-- Every one of `BURST_MAX` checks read 0. -/
  | gaveUp
  deriving DecidableEq, Repr

/-- What the environment answers during one RESET_SEQ: SDA at its `RELEASE(SDA)`, SCL at the pulses of each burst, and the end. -/
structure ResetPass where
  first : Level
  bursts : List (List Level)
  last : ResetEnd
  deriving DecidableEq, Repr

/-- The pass fits the parameters: at least one burst, `BURST_PULSES` pulses in each, at most `BURST_MAX` of them, and all of them when
it gave up (44_sequence_control.md R124). -/
def ResetPass.Fits (p : Params) (r : ResetPass) : Prop :=
  r.bursts ≠ [] ∧ (∀ b ∈ r.bursts, b.length = p.burstPulses) ∧
    match r.last with
    | .recovered vs => r.bursts.length ≤ p.burstMax ∧ WholeWait p.pollMax vs
    | .again vs => r.bursts.length ≤ p.burstMax ∧ WholeWait p.pollMax vs
    | .gaveUp => r.bursts.length = p.burstMax

/-- The SCL answers of a pass. -/
def ResetPass.sclAnswers (r : ResetPass) : List Level :=
  r.bursts.flatten ++
    match r.last with
    | .recovered vs => vs
    | .again vs => vs
    | .gaveUp => []

/-- The SDA answers of a pass: its `RELEASE(SDA)`, a 0 at every check but the last, and the end. -/
def ResetPass.sdaAnswers (r : ResetPass) : List Level :=
  r.first :: List.replicate (r.bursts.length - 1) false ++
    match r.last with
    | .recovered _ => [true, true]
    | .again _ => [true, false]
    | .gaveUp => [false]

/-- The trace of one burst of clock pulses. -/
def tBurst (T : Micros) (b : List Level) : List Event := b.flatMap fun v => tPull T .scl ++ tRelease T .scl v

/-- The bursts of a RESET_SEQ: every check but the last reads 0 and is followed by the delay; the last reads `check`. -/
def tBursts (T : Micros) (delayMs : Nat) (check : Level) : List (List Level) → List Event
  | [] => []
  | [b] => tBurst T b ++ [.sample .sda check]
  | b :: c :: r => tBurst T b ++ [.sample .sda false, .waitMs delayMs] ++ tBursts T delayMs check (c :: r)

/-- What follows the bursts: the two pulls and STOP_SEQ, or giving up (44_sequence_control.md R124). -/
def tResetEnd (p : Params) (h : Handle) : ResetEnd → List Event
  | .recovered vs =>
    tPull h.halfPeriod .scl ++ tPull h.halfPeriod .sda ++ tWait p h vs ++ tRelease h.halfPeriod .sda true
  | .again vs =>
    tPull h.halfPeriod .scl ++ tPull h.halfPeriod .sda ++ tWait p h vs ++ tRelease h.halfPeriod .sda false
  | .gaveUp => if h.warn then [.diag .resetGiveup .sda] else []

/-- Whether the last check of a pass read 1. -/
def ResetEnd.checkedHigh : ResetEnd → Level
  | .recovered _ => true
  | .again _ => true
  | .gaveUp => false

/-- The trace of one RESET_SEQ (44_sequence_control.md R124). -/
def tReset (p : Params) (h : Handle) (r : ResetPass) : List Event :=
  tRelease h.halfPeriod .sda r.first ++ tBursts h.halfPeriod p.burstDelayMs r.last.checkedHigh r.bursts
    ++ tResetEnd p h r.last

/-- `SFACC` after one RESET_SEQ. -/
def resetSf (r : ResetPass) (sf : BitVec 2) : BitVec 2 :=
  match r.last with
  | .recovered vs => waitSf vs sf
  | .again vs => waitSf vs sf
  | .gaveUp => setRst sf

/-- Whether a pass is the end of its command's resets (44_sequence_control.md R126). -/
def ResetPass.isLast (r : ResetPass) : Bool :=
  match r.last with
  | .recovered _ => true
  | .again _ => false
  | .gaveUp => true

/-- Both lines driven low. -/
def Drv.low : Drv := { scl := true, sda := true }

/-- Both lines released. -/
def Drv.released : Drv := { scl := false, sda := false }

/-- What a completed command leaves: its soft-failure bits and its result, the drive bits, the transfer state, what remains of the
environment's answers, and the events it emitted, oldest first. -/
structure Effect where
  sf : BitVec 2
  val : Byte
  drv : Drv
  xfer : Bool
  scl : List Level
  sda : List Level
  samples : Nat
  events : List Event

/-- The state in which an accepted command ends with effect `e`: everything not named here is as before (60_exceptions.md R133), and
the sequencer's registers hold free values (log 4). -/
def State.ended (s : State) (e : Effect) : State :=
  { s with
    busy := false
    seq := .rest
    sfAcc := e.sf
    drv := e.drv
    xfer := e.xfer
    env := { scl := e.scl, sda := e.sda, taken := s.env.taken + e.samples }
    regs := freeRegs s.completed
    completed := s.completed + 1
    rsp := rspWord noError e.sf e.val
    log := .rsp (rspWord noError e.sf e.val) :: record e.events s.log }

/-- What a run has done that left its command in progress: the soft-failure bits so far, what remains of the environment's answers,
and the events emitted, oldest first. -/
structure Progress where
  sf : BitVec 2
  scl : List Level
  sda : List Level
  samples : Nat
  events : List Event

/-- The state in which a command is left in progress by a failed rise in its RESET_SEQ, with a fresh RESET_SEQ next and `ret` after it
(44_sequence_control.md R126, 10_state.md R33; that a step ends there is the model's choice, log 1): both lines released, no
response, the sequencer's registers at `r`, and everything not named here as before. -/
def State.paused (s : State) (ret : Pending) (r : PrivateRegs) (p : Progress) : State :=
  { s with
    busy := true
    seq := .resetNext ret
    sfAcc := p.sf
    drv := .released
    env := { scl := p.scl, sda := p.sda, taken := s.env.taken + p.samples }
    regs := r
    log := record p.events s.log }

/-- The SCL and SDA answers of the quiet environment: 1 to every sample. -/
def State.QuietFor (s : State) (nscl nsda : Nat) : Prop :=
  (∃ cs, s.env.scl = List.replicate nscl true ++ cs) ∧ ∃ ds, s.env.sda = List.replicate nsda true ++ ds

/-- The drive bits a record leads to: only `Drive`, `Release` and power-on reset change them (10_state.md R21). -/
def drvOf : List Out → Drv
  | [] => .released
  | .ev e :: r => (drvOf r).after e
  | .rsp _ :: r => drvOf r
  | .powerOn :: _ => .released

/-- What holds of the controller between any two steps. -/
structure State.Inv (s : State) : Prop where
  /-- `SEQ` is `REST` when `BUSY` is 0 (10_state.md R29, R33); that `BUSY` is 1 between steps only while a fresh RESET_SEQ is next is the
  model's choice of where a step ends (log 1). -/
  busySeq : (s.busy = false ∧ s.seq = .rest) ∨ (s.busy = true ∧ ∃ ret, s.seq = .resetNext ret)
  /-- The two drive bits are equal (10_state.md R46). -/
  linesEqual : s.drv.scl = s.drv.sda
  /-- A command in progress between steps has let both lines go, since only a failed rise leaves it there (44_sequence_control.md
  R122; log 1). -/
  busyReleased : s.busy = true → s.drv = .released
  /-- A command can be in progress only when a handle exists (60_exceptions.md R131). -/
  busyOpened : s.busy = true → s.opened = true
  /-- A handle that exists has two distinct identifiers and a frequency that is not 0 (10_state.md R24, R47). -/
  handleChecked : s.opened = true → s.handle.acceptable = true
  /-- The drive bits are what the record says (10_state.md R21). -/
  drvRecorded : s.drv = drvOf s.log

/-- Every `Drive` and every `Release` of a trace is followed at once by `WaitUs(T)` (40_line_primitives.md R92 (2)). -/
def Settled (T : Micros) : List Event → Prop
  | [] => True
  | .drive _ :: r => r.head? = some (.waitUs T) ∧ Settled T r
  | .release _ :: r => r.head? = some (.waitUs T) ∧ Settled T r
  | .pullup _ :: r => Settled T r
  | .sample _ _ :: r => Settled T r
  | .waitUs _ :: r => Settled T r
  | .waitMs _ :: r => Settled T r
  | .diag _ _ :: r => Settled T r

/-- The record shows the events `es` since `s`, and after them the response if one has been given. -/
def Emitted (s t : State) (es : List Event) : Prop := t.log = record es s.log ∨ t.log = .rsp t.rsp :: record es s.log

/-- No sample of a trace that begins with drive bits `d` is of a line the controller drives (20_memory.md R54). -/
def SamplesReleased (d : Drv) : List Event → Prop
  | [] => True
  | .drive l :: r => SamplesReleased (d.set l true) r
  | .release l :: r => SamplesReleased (d.set l false) r
  | .pullup _ :: r => SamplesReleased d r
  | .sample l _ :: r => d.get l = false ∧ SamplesReleased d r
  | .waitUs _ :: r => SamplesReleased d r
  | .waitMs _ :: r => SamplesReleased d r
  | .diag _ _ :: r => SamplesReleased d r

/-- Whether an entry of a record is a diagnostic. -/
def isDiag : Out → Bool
  | .ev (.diag _ _) => true
  | .ev (.drive _) => false
  | .ev (.release _) => false
  | .ev (.pullup _) => false
  | .ev (.sample _ _) => false
  | .ev (.waitUs _) => false
  | .ev (.waitMs _) => false
  | .rsp _ => false
  | .powerOn => false

/-- A record without its diagnostics. -/
def withoutDiags (log : List Out) : List Out := log.filter fun o => !isDiag o

/-- Two runs from `s` whose records differ in diagnostics alone, and the first of which has emitted none. -/
def DiagsApart (s t u : State) : Prop :=
  withoutDiags t.log = withoutDiags u.log ∧ ∃ new, t.log = new ++ s.log ∧ withoutDiags new = new

/-- The responses of a record, newest first. -/
def responses (log : List Out) : List RspWord := log.filterMap rspPulse

end Sys2Proof.Machine
end

