-- ==== Sys2Proof/Certificates/Slice0/Obligations.lean ====
section
/-! DEFINITION. What is claimed of the controller, one obligation each, from the numbered rules of spec/. -/

open Sys2Proof Sys2Proof.Machine

/-! ### Words -/

/-- Every command's word decodes to that command, with every operand (30_encoding.md R70 to R72). -/
def Obligations.EncodedCommandsDecodeBack : Prop :=
  ∀ i : Instr, i.wellFormed = true → decode (encode i) = some i

/-- A word that decodes to a command is that command's word, and it is so exactly when it matches the command's pattern under its
mask; no two commands share a pattern word (30_encoding.md R71). -/
def Obligations.DecodedWordsMatchTheirPattern : Prop :=
  ∀ (w : CmdWord),
    (∀ i : Instr, decode w = some i → encode i = w ∧ w &&& i.mask = i.pattern) ∧
    (∀ i : Instr, w &&& i.mask = i.pattern → ∃ j, decode w = some j ∧ j.opcode = i.opcode)

/-- Reserved words are exactly those of R77, 3578 of the 4096; taken in any state they are rejected with `IllegalCommand`
(30_encoding.md R77, 60_exceptions.md R130). -/
def Obligations.ReservedWordsAreRejected : Prop :=
  (∀ w : CmdWord, decode w = none ↔
    opField w = 0x0 ∨ 0x9 ≤ (opField w).toNat ∨
      (opField w ∈ [0x1#4, 0x2#4, 0x3#4, 0x4#4, 0x6#4, 0x8#4] ∧ argField w ≠ 0)) ∧
  ((List.range 4096).countP fun n => (decode (BitVec.ofNat 12 n)).isSome) = 518 ∧
  ((List.range 4096).countP fun n => (decode (BitVec.ofNat 12 n)).isNone) = 3578 ∧
  ∀ (s : State) (w : CmdWord) (ws : List CmdWord),
    s.params.wellFormed = true → s.rstIn = none → s.busy = false → s.cmds = w :: ws → decode w = none →
      step s = .next { s with cmds := ws, rsp := 0x400, log := .rsp 0x400 :: s.log }

/-- Words written out from the encoding tables decode as the spec's own vector V1 says. -/
def Obligations.SampleWordsDecode : Prop :=
  decode 0x000 = none ∧ decode 0x100 = some .openBus ∧ decode 0x101 = none ∧ decode 0x200 = some .start ∧
  decode 0x300 = some .stop ∧ decode 0x400 = some .reset ∧ decode 0x501 = some (.sendBit 1) ∧
  decode 0x600 = some .readBit ∧ decode 0x7A0 = some (.sendByte 0xA0) ∧ decode 0x800 = some .readByte ∧
  decode 0x900 = none ∧ decode 0xFFF = none

/-- The device-addressing convention: bits [7:1] of the byte are the address and bit 0 is the flag (30_encoding.md R82). -/
def Obligations.AddressByteCarriesAddressAndFlag : Prop :=
  ∀ (a : BitVec 7) (rw : Bool),
    addressByte a rw = a ++ BitVec.ofBool rw ∧ (addressByte a rw).extractLsb' 1 7 = a ∧
      (addressByte a rw).getLsbD 0 = rw ∧ (addressByte a rw).toNat = 2 * a.toNat + rw.toNat

/-- The pseudo-instructions expand to one command each, with the words of the table, and an address above 127 is refused
(30_encoding.md R81). -/
def Obligations.PseudoInstructionsExpand : Prop :=
  Pseudo.ack.expand = some (.sendBit 0) ∧ Pseudo.nack.expand = some (.sendBit 1) ∧
  (∀ i, Pseudo.ack.expand = some i → encode i = 0x500) ∧ (∀ i, Pseudo.nack.expand = some i → encode i = 0x501) ∧
  ∀ a : Nat,
    (a ≤ 127 → ∃ x y, (Pseudo.addrW a).expand = some (.sendByte x) ∧ (encode (.sendByte x)).toNat = 0x700 + 2 * a ∧
      (Pseudo.addrR a).expand = some (.sendByte y) ∧ (encode (.sendByte y)).toNat = 0x700 + 2 * a + 1) ∧
    (127 < a → (Pseudo.addrW a).expand = none ∧ (Pseudo.addrR a).expand = none)

/-- The response word carries its three fields and nothing else, `err` 0 for a command that ran and 1, 2, 3 for the three hard errors, and
`zext_8` of a level as 0x00 or 0x01 (30_encoding.md R73, R74, R76). -/
def Obligations.ResponseWordCarriesItsFields : Prop :=
  (∀ (err sf : BitVec 2) (val : Byte),
    rspErr (rspWord err sf val) = err ∧ rspSf (rspWord err sf val) = sf ∧ rspVal (rspWord err sf val) = val) ∧
  (∀ w : RspWord, rspWord (rspErr w) (rspSf w) (rspVal w) = w) ∧
  noError = 0 ∧ HardError.illegalCommand.code = 1 ∧ HardError.notOpen.code = 2 ∧ HardError.configError.code = 3 ∧
  levelByte false = 0x00 ∧ levelByte true = 0x01

/-- Lines of the assembler and the words they stand for, operands in decimal, hexadecimal, binary and as a character, with comment and
result name (30_encoding.md R80). That 'X' is 0x58 is PRESUMED (log 21); the spelling of the operand of `ADDRW` and `ADDRR` is the model's
choice (log 22). -/
def Obligations.AssemblerLinesSpellCommands : Prop :=
  (assemble "SENDBYTE 160".toList).map (fun l => encode l.instr) = some 0x7A0 ∧
  (assemble "SENDBYTE 0xA0 ; address 0x50 write".toList).map (fun l => encode l.instr) = some 0x7A0 ∧
  (assemble "SENDBYTE 0b10100000".toList).map (fun l => encode l.instr) = some 0x7A0 ∧
  (assemble "SENDBYTE 'X'".toList).map (fun l => encode l.instr) = some 0x758 ∧
  (assemble "READBYTE -> b0".toList) = some { instr := .readByte, resultName := some "b0".toList } ∧
  (assemble "OPEN scl=9 sda=8 freq=100000 warn=0".toList).map (fun l => encode l.instr) = some 0x100 ∧
  (assemble "ADDRR 127".toList).map (fun l => encode l.instr) = some 0x7FF ∧ assemble "ADDRW 128".toList = none

/-! ### The step, the command port and the reset input -/

/-- When the presented word decodes to a command, the step is `exec` of it in the state in which the word has been taken
(10_state.md R40, 60_exceptions.md R133). -/
def Obligations.StepRunsPresentedCommand : Prop :=
  ∀ (s : State) (w : CmdWord) (ws : List CmdWord) (i : Instr),
    s.params.wellFormed = true → s.rstIn = none → s.busy = false → s.cmds = w :: ws → decode w = some i →
      step s = exec i { s with cmds := ws }

/-- A word placed with `withFetchWord` is the next command run. How a program comes to the port is the model's
choice (log 5). -/
def Obligations.FetchedTableWordRuns : Prop :=
  ∀ (s : State) (nbits w : Nat) (i : Instr),
    s.params.wellFormed = true → decodeTableWord nbits w = some i →
      step (s.withFetchWord nbits w) = exec i { s with busy := false, seq := .rest, rstIn := none }

/-- While `BUSY` is 1 nothing is taken from the command port: a presented word waits, and the configuration inputs are not read
(10_state.md R40, R42). -/
def Obligations.PresentedWordWaitsWhileBusy : Prop :=
  ∀ (s t : State), s.busy = true → step s = .next t →
    t.cmds = s.cmds ∧ t.cfg = s.cfg ∧ ∀ c : Handle, step { s with cfg := c } = .next { t with cfg := c }

/-- With no word presented a controller at rest stays as it is. It holds the lines and waits for the next word (10_state.md R46,
60_exceptions.md R148); that a step is taken there and answers the same state is the model's choice (log 18). -/
def Obligations.RestWithoutWordChangesNothing : Prop :=
  ∀ s : State, s.params.wellFormed = true → s.rstIn = none → s.busy = false → s.cmds = [] → step s = .next s

/-- Power-on reset: the state of R45, no event and no response (70_reset_and_hazards.md R160, 10_state.md R45). That it leaves the
environment's answers, the words presented, the configuration inputs and the parameters as they are, no presented word taken or lost,
is the model's choice (logs 6 and 8), and so is the mark in the record (log 9). -/
def Obligations.PowerOnResetState : Prop :=
  ∀ s : State, s.params.wellFormed = true → s.rstIn = some 0 →
    ∃ t, step s = .next t ∧ t.drv = .released ∧ t.opened = false ∧ t.busy = false ∧ t.xfer = false ∧ t.sfAcc = 0 ∧
      t.seq = .rest ∧ t.rsp = 0 ∧ t.log = .powerOn :: s.log ∧ t.env = s.env ∧ t.cmds = s.cmds ∧ t.cfg = s.cfg ∧
      t.params = s.params

/-- Power-on reset in the middle of a command: the command is abandoned after the events emitted so far, with no response, even right
after its last event (70_reset_and_hazards.md R160). A reset that is still to come when the step has put out all it has changes
nothing in it and comes that much nearer. The input is counted in events and responses (log 8). -/
def Obligations.PowerOnResetAbandonsCommand : Prop :=
  ∀ (s t : State) (k : Nat), s.params.wellFormed = true → s.rstIn = some (k + 1) →
    step { s with rstIn := none } = .next t →
    (k + 1 < entriesSince s t →
      ∃ u, step s = .next u ∧ u.drv = .released ∧ u.opened = false ∧ u.busy = false ∧ u.xfer = false ∧ u.sfAcc = 0 ∧
        u.seq = .rest ∧ u.rsp = 0 ∧ u.log = .powerOn :: record ((eventsSince s t).take (k + 1)) s.log ∧
        responses u.log = responses s.log) ∧
    (entriesSince s t ≤ k + 1 → step s = .next { t with rstIn := some (k + 1 - entriesSince s t) })

/-- An instance outside the constraints of the parameter table is refused, and no other (00_scope.md R8). -/
def Obligations.IllegalInstanceIsRefused : Prop :=
  ∀ s : State,
    (s.params.pollMax = 0 ∨ s.params.burstPulses = 0 ∨ s.params.burstMax = 0 → step s = .refused .illegalInstance) ∧
    (1 ≤ s.params.pollMax → 1 ≤ s.params.burstPulses → 1 ≤ s.params.burstMax → s.rstIn = none → s.busy = false →
      ∃ t, step s = .next t)

/-! ### Acceptance -/

/-- `NotOpen`: every command but `OPEN`, before an accepted `OPEN`, changes nothing but `RSP` (60_exceptions.md R131). -/
def Obligations.CommandBeforeOpenIsRejected : Prop :=
  ∀ (i : Instr) (s : State), i ≠ .openBus → s.opened = false →
    exec i s = .next { s with rsp := 0x800, log := .rsp 0x800 :: s.log }

/-- `ConfigError`: an `OPEN` with equal identifiers or frequency 0 changes nothing but `RSP` (60_exceptions.md R132, 41_open.md
R103). -/
def Obligations.BadConfigurationIsRejected : Prop :=
  ∀ s : State, s.cfg.sclId = s.cfg.sdaId ∨ s.cfg.freq = 0 →
    exec .openBus s = .next { s with rsp := 0xC00, log := .rsp 0xC00 :: s.log }

/-- An accepted `OPEN` latches the four fields together and sets `OPENED`, whatever the environment answers and whether or not a
handle existed, and leaves the inputs of the host alone (41_open.md R100, R102). -/
def Obligations.OpenLatchesHandle : Prop :=
  ∀ s : State, s.cfg.sclId ≠ s.cfg.sdaId → s.cfg.freq ≠ 0 →
    ∃ t, exec .openBus s = .next t ∧ t.handle = s.cfg ∧ t.opened = true ∧ t.params = s.params ∧ t.cfg = s.cfg ∧
      t.cmds = s.cmds ∧ t.rstIn = s.rstIn

/-- The handle changes only by a power-on reset in that very step or when an `OPEN` is accepted, and then to the configuration inputs,
which have two distinct identifiers and a frequency that is not 0 (10_state.md R27, 60_exceptions.md R132). -/
def Obligations.OnlyOpenWritesTheHandle : Prop :=
  ∀ s t : State, step s = .next t →
    t.handle = s.handle ∨ (s.rstIn ≠ none ∧ ∃ es, t.log = .powerOn :: record es s.log) ∨
      (t.handle = s.cfg ∧ s.cfg.sclId ≠ s.cfg.sdaId ∧ s.cfg.freq ≠ 0 ∧ s.busy = false ∧
        ∃ w ws, s.cmds = w :: ws ∧ decode w = some .openBus)

/-! ### What the commands do -/

/-- `SENDBIT` sends 1 for every operand but 0x00 and 0 for 0x00, with the trace of SENDBIT_SEQ, on every set of answers of its RELWAIT,
and leaves everything else alone (42_bit_transfer.md R105, R107). The free values its registers end with
are the model's (log 4). -/
def Obligations.SendBitResult : Prop :=
  ∀ (s : State) (arg : Byte) (a : BitSlot) (cs ds : List Level),
    s.opened = true → WholeWait s.params.pollMax a.wait →
    s.env.scl = a.wait ++ cs → s.env.sda = sdaOfSend (arg != 0) a ++ ds →
      exec (.sendBit arg) s = .next (s.ended
        { sf := waitSf a.wait 0, val := 0x00, drv := .low, xfer := s.xfer, scl := cs, sda := ds
          samples := (sdaOfSend (arg != 0) a).length + a.wait.length
          events := tSendBit s.params s.handle (arg != 0) a })

/-- `READBIT` answers with the bare sample of SDA after its RELWAIT (42_bit_transfer.md R106, R107). The free values its registers end with
are the model's (log 4). -/
def Obligations.ReadBitResult : Prop :=
  ∀ (s : State) (a : BitSlot) (cs ds : List Level),
    s.opened = true → WholeWait s.params.pollMax a.wait →
    s.env.scl = a.wait ++ cs → s.env.sda = sdaOfRead a ++ ds →
      exec .readBit s = .next (s.ended
        { sf := waitSf a.wait 0, val := levelByte a.result, drv := .low, xfer := s.xfer, scl := cs, sda := ds
          samples := 2 + a.wait.length, events := tReadBit s.params s.handle a })

/-- `SENDBYTE` sends the eight bits most-significant first and answers with the sample of the ack slot (43_byte_transfer.md R110). The free values its registers end with
are the model's (log 4). -/
def Obligations.SendByteResult : Prop :=
  ∀ (s : State) (x : Byte) (ws : List BitSlot) (ack : BitSlot) (cs ds : List Level),
    s.opened = true → ws.length = 8 → (∀ w ∈ ack :: ws, WholeWait s.params.pollMax w.wait) →
    s.env.scl = ws.flatMap (·.wait) ++ (ack.wait ++ cs) →
    s.env.sda = (List.zipWith sdaOfSend (wireBits x) ws).flatten ++ (sdaOfRead ack ++ ds) →
      exec (.sendByte x) s = .next (s.ended
        { sf := slotsSf 0 (ws ++ [ack]), val := levelByte ack.result, drv := .low, xfer := s.xfer, scl := cs, sda := ds
          samples := (List.zipWith sdaOfSend (wireBits x) ws).flatten.length + (ws.flatMap (·.wait)).length
            + (2 + ack.wait.length)
          events := (List.zipWith (tSendBit s.params s.handle) (wireBits x) ws).flatten
            ++ tReadBit s.params s.handle ack })

/-- `READBYTE` assembles the byte whose bits, most-significant first, are its eight result samples, for every byte
(43_byte_transfer.md R111, R114). The free values its registers end with
are the model's (log 4). -/
def Obligations.ReadByteResult : Prop :=
  ∀ (s : State) (y : Byte) (ws : List BitSlot) (cs ds : List Level),
    s.opened = true → ws.map (·.result) = wireBits y → (∀ w ∈ ws, WholeWait s.params.pollMax w.wait) →
    s.env.scl = ws.flatMap (·.wait) ++ cs → s.env.sda = ws.flatMap sdaOfRead ++ ds →
      exec .readByte s = .next (s.ended
        { sf := slotsSf 0 ws, val := y, drv := .low, xfer := s.xfer, scl := cs, sda := ds
          samples := 16 + (ws.flatMap (·.wait)).length, events := ws.flatMap (tReadBit s.params s.handle) })

/-- `START` with SDA high at its check: the trace of START_SEQ, both lines driven low, `XFER` ACTIVE, from IDLE and from ACTIVE alike
(44_sequence_control.md R120, R121). The free values its registers end with
are the model's (log 4). -/
def Obligations.StartResult : Prop :=
  ∀ (s : State) (vs cs ds : List Level),
    s.opened = true → WholeWait s.params.pollMax vs → s.env.scl = vs ++ cs → s.env.sda = true :: ds →
      exec .start s = .next (s.ended
        { sf := waitSf vs 0, val := 0x00, drv := .low, xfer := true, scl := cs, sda := ds, samples := 1 + vs.length
          events := tRelease s.handle.halfPeriod .sda true ++ tWait s.params s.handle vs
            ++ tPull s.handle.halfPeriod .sda ++ tPull s.handle.halfPeriod .scl })

/-- `START` with SDA low at its check runs RESET_SEQ first and goes on after it, recovered or not (44_sequence_control.md R121). The free values its registers end with
are the model's (log 4). -/
def Obligations.StartAfterReset : Prop :=
  ∀ (s : State) (p : ResetPass) (vs cs ds : List Level),
    s.params.wellFormed = true → s.opened = true → p.Fits s.params → p.isLast = true → WholeWait s.params.pollMax vs →
    s.env.scl = p.sclAnswers ++ (vs ++ cs) → s.env.sda = false :: (p.sdaAnswers ++ ds) →
      exec .start s = .next (s.ended
        { sf := waitSf vs (resetSf p 0), val := 0x00, drv := .low, xfer := true, scl := cs, sda := ds
          samples := 1 + p.sclAnswers.length + p.sdaAnswers.length + vs.length
          events := tRelease s.handle.halfPeriod .sda false ++ tReset s.params s.handle p ++ tWait s.params s.handle vs
            ++ tPull s.handle.halfPeriod .sda ++ tPull s.handle.halfPeriod .scl })

/-- `STOP` with SDA rising: the trace of STOP_SEQ, both lines released, `XFER` IDLE (44_sequence_control.md R120, R122). The free values its registers end with
are the model's (log 4). -/
def Obligations.StopResult : Prop :=
  ∀ (s : State) (vs cs ds : List Level),
    s.opened = true → WholeWait s.params.pollMax vs → s.env.scl = vs ++ cs → s.env.sda = true :: ds →
      exec .stop s = .next (s.ended
        { sf := waitSf vs 0, val := 0x00, drv := .released, xfer := false, scl := cs, sda := ds, samples := vs.length + 1
          events := tWait s.params s.handle vs ++ tRelease s.handle.halfPeriod .sda true })

/-- `STOP` with SDA failing to rise runs RESET_SEQ (44_sequence_control.md R122, R126). The free values its registers end with
are the model's (log 4). -/
def Obligations.StopAfterFailedRise : Prop :=
  ∀ (s : State) (p : ResetPass) (vs cs ds : List Level),
    s.params.wellFormed = true → s.opened = true → p.Fits s.params → p.isLast = true → WholeWait s.params.pollMax vs →
    s.env.scl = vs ++ (p.sclAnswers ++ cs) → s.env.sda = false :: (p.sdaAnswers ++ ds) →
      exec .stop s = .next (s.ended
        { sf := resetSf p (waitSf vs 0), val := 0x00, drv := .released, xfer := false, scl := cs, sda := ds
          samples := vs.length + 1 + p.sclAnswers.length + p.sdaAnswers.length
          events := tWait s.params s.handle vs ++ tRelease s.handle.halfPeriod .sda false
            ++ tReset s.params s.handle p })

/-- `RESET`: bursts until a check reads 1, then the two pulls and a STOP; or `BURST_MAX` bursts and the soft failure
(44_sequence_control.md R123, R124). The free values its registers end with
are the model's (log 4). -/
def Obligations.ResetResult : Prop :=
  ∀ (s : State) (p : ResetPass) (cs ds : List Level),
    s.params.wellFormed = true → s.opened = true → p.Fits s.params → p.isLast = true →
    s.env.scl = p.sclAnswers ++ cs → s.env.sda = p.sdaAnswers ++ ds →
      exec .reset s = .next (s.ended
        { sf := resetSf p 0, val := 0x00, drv := .released, xfer := false, scl := cs, sda := ds
          samples := p.sclAnswers.length + p.sdaAnswers.length, events := tReset s.params s.handle p })

/-- `OPEN`: the handle, step 1 of OPEN_SEQ, then RESET_SEQ at the new handle's half-period and warning flag (41_open.md R100, R101). The free values its registers end with
are the model's (log 4). -/
def Obligations.OpenResult : Prop :=
  ∀ (s : State) (p : ResetPass) (cs ds : List Level),
    s.params.wellFormed = true → s.cfg.sclId ≠ s.cfg.sdaId → s.cfg.freq ≠ 0 → p.Fits s.params → p.isLast = true →
    s.env.scl = p.sclAnswers ++ cs → s.env.sda = p.sdaAnswers ++ ds →
      exec .openBus s = .next (({ s with handle := s.cfg, opened := true } : State).ended
        { sf := resetSf p 0, val := 0x00, drv := .released, xfer := false, scl := cs, sda := ds
          samples := p.sclAnswers.length + p.sdaAnswers.length
          events := [.release .scl, .release .sda, .pullup .scl, .pullup .sda] ++ tReset s.params s.cfg p })

/-- When the STOP_SEQ of a RESET_SEQ finds SDA low the command is still in progress, without a response, and a fresh RESET_SEQ is next,
after it the tail of `START` or nothing: for each of the four commands that run RESET_SEQ (44_sequence_control.md R126). That a step
ends there is the model's choice (log 1). -/
def Obligations.FailedRiseInResetLeavesCommandInProgress : Prop :=
  ∀ (s : State) (p : ResetPass) (cs ds : List Level),
    s.params.wellFormed = true → p.Fits s.params → p.isLast = false →
    (s.opened = true → s.env.scl = p.sclAnswers ++ cs → s.env.sda = p.sdaAnswers ++ ds →
      ∃ r, exec .reset s = .next (s.paused .nothing r
        { sf := resetSf p 0, scl := cs, sda := ds, samples := p.sclAnswers.length + p.sdaAnswers.length
          events := tReset s.params s.handle p })) ∧
    (s.opened = true → s.env.scl = p.sclAnswers ++ cs → s.env.sda = false :: (p.sdaAnswers ++ ds) →
      ∃ r, exec .start s = .next (s.paused .toStart r
        { sf := resetSf p 0, scl := cs, sda := ds, samples := 1 + p.sclAnswers.length + p.sdaAnswers.length
          events := tRelease s.handle.halfPeriod .sda false ++ tReset s.params s.handle p })) ∧
    (∀ vs, s.opened = true → WholeWait s.params.pollMax vs → s.env.scl = vs ++ (p.sclAnswers ++ cs) →
        s.env.sda = false :: (p.sdaAnswers ++ ds) →
      ∃ r, exec .stop s = .next (s.paused .nothing r
        { sf := resetSf p (waitSf vs 0), scl := cs, sda := ds
          samples := vs.length + 1 + p.sclAnswers.length + p.sdaAnswers.length
          events := tWait s.params s.handle vs ++ tRelease s.handle.halfPeriod .sda false
            ++ tReset s.params s.handle p })) ∧
    (s.cfg.sclId ≠ s.cfg.sdaId → s.cfg.freq ≠ 0 → s.env.scl = p.sclAnswers ++ cs → s.env.sda = p.sdaAnswers ++ ds →
      ∃ r, exec .openBus s = .next (({ s with handle := s.cfg, opened := true } : State).paused .nothing r
        { sf := resetSf p 0, scl := cs, sda := ds, samples := p.sclAnswers.length + p.sdaAnswers.length
          events := [.release .scl, .release .sda, .pullup .scl, .pullup .sda] ++ tReset s.params s.cfg p }))

/-- A command in progress goes on with the RESET_SEQ that is next: it ends when that one is the last, START by way of its own tail, and
stays in progress with the same pending return when that one's STOP_SEQ sees SDA low again (44_sequence_control.md R126, 10_state.md
R33). That a step begins and ends there is the model's choice (log 1), the free values its registers end with are the model's too
(log 4). -/
def Obligations.CommandInProgressGoesOn : Prop :=
  ∀ (s : State) (p : ResetPass) (cs ds : List Level),
    s.params.wellFormed = true → s.rstIn = none → s.busy = true → p.Fits s.params →
    s.env.scl = p.sclAnswers ++ cs → s.env.sda = p.sdaAnswers ++ ds →
      (p.isLast = true → s.seq = .resetNext .nothing →
        step s = .next (s.ended
          { sf := resetSf p s.sfAcc, val := 0x00, drv := .released, xfer := false, scl := cs, sda := ds
            samples := p.sclAnswers.length + p.sdaAnswers.length, events := tReset s.params s.handle p })) ∧
      (∀ vs rs, p.isLast = true → s.seq = .resetNext .toStart → WholeWait s.params.pollMax vs → cs = vs ++ rs →
        step s = .next (s.ended
          { sf := waitSf vs (resetSf p s.sfAcc), val := 0x00, drv := .low, xfer := true, scl := rs, sda := ds
            samples := p.sclAnswers.length + p.sdaAnswers.length + vs.length
            events := tReset s.params s.handle p ++ tWait s.params s.handle vs
              ++ tPull s.handle.halfPeriod .sda ++ tPull s.handle.halfPeriod .scl })) ∧
      (∀ ret, p.isLast = false → s.seq = .resetNext ret →
        ∃ r, step s = .next (s.paused ret r
          { sf := resetSf p s.sfAcc, scl := cs, sda := ds, samples := p.sclAnswers.length + p.sdaAnswers.length
            events := tReset s.params s.handle p }))

/-- The chain of stop and reset has no bound: for every number of steps there are answers of the environment on which a single `RESET`
is still in progress after that many, with no response (70_reset_and_hazards.md R170). That each RESET_SEQ of the chain is a step of its
own is the model's choice (log 1). -/
def Obligations.StopResetChainIsUnbounded : Prop :=
  ∀ n : Nat, ∃ s : State, s.opened = true ∧ s.busy = false ∧ s.cmds = [0x400] ∧ s.params = Config.reference ∧
    ∀ k, k ≤ n → ∃ t, core.run (k + 1) s = .next t ∧ t.busy = true ∧ responses t.log = responses s.log

/-- A command is left in progress only by a STOP_SEQ whose `RELEASE(SDA)` was answered 0, which invokes RESET_SEQ again, and only `OPEN`,
`START`, `STOP` and `RESET` can be (44_sequence_control.md R122, R126, 70_reset_and_hazards.md R170): every other run of a command ends
with its response. That exec leaves a command in progress just there is the model's choice of where a step ends (log 1). -/
def Obligations.UnfinishedOnlyWhenSdaFailsToRise : Prop :=
  ∀ (i : Instr) (s t : State), s.params.wellFormed = true → s.busy = false → exec i s = .next t → t.busy = true →
    (i = .openBus ∨ i = .start ∨ i = .stop ∨ i = .reset) ∧
    ∃ r, t.log = .ev (.sample .sda false) :: .ev (.waitUs t.T) :: .ev (.release .sda) :: r

/-! ### The whole machine -/

/-- Every step keeps the invariant. Its clauses about a command in progress between steps (`busySeq` where `BUSY` is 1, `busyReleased`)
rest on the model's choice of where a step ends (log 1); the others are 10_state.md R21, R24, R33 and R46 and 60_exceptions.md
R131. -/
def Obligations.EveryStepKeepsTheInvariant : Prop :=
  ∀ s t : State, s.Inv → step s = .next t → t.Inv

/-- The state of power-on reset has the invariant (10_state.md R45). -/
def Obligations.ResetStateHasTheInvariant : Prop :=
  State.reset.Inv

/-- From a state with the invariant no step stops, unless the instance itself is refused. -/
def Obligations.InvariantStatesDoNotStop : Prop :=
  ∀ s : State, s.Inv → s.params.wellFormed = true → ∃ t, step s = .next t

/-- The frame of the transfers: on every environment a bit or byte transfer ends, with both lines driven low, and leaves the handle,
the flags, the transfer state, the inputs of the host and the record before it as they were (10_state.md R46, R27). -/
def Obligations.TransferFrame : Prop :=
  ∀ (i : Instr) (s : State), (i = .readBit ∨ i = .readByte ∨ ∃ x, i = .sendBit x ∨ i = .sendByte x) → s.opened = true →
    ∃ t es, exec i s = .next t ∧ t.busy = false ∧ t.seq = .rest ∧ t.drv = .low ∧ t.xfer = s.xfer ∧ t.handle = s.handle ∧
      t.opened = true ∧ t.params = s.params ∧ t.cfg = s.cfg ∧ t.cmds = s.cmds ∧ t.rstIn = s.rstIn ∧
      rspErr t.rsp = 0 ∧ rspSf t.rsp = t.sfAcc ∧ t.sfAcc &&& 0b10 = 0 ∧ t.log = .rsp t.rsp :: record es s.log

/-- The frame of the sequences: `START`, `STOP` and `RESET` leave the handle, `OPENED`, the inputs of the host and the record before them
as they were; when they have ended, `val` is 0x00, the lines and `XFER` are those of the transfer state machine
(44_sequence_control.md R120 to R124). That a step can end with the command in progress, its lines released, no response and a fresh
RESET_SEQ next, is the model's choice (log 1); what follows that RESET_SEQ is 44_sequence_control.md R126. -/
def Obligations.SequenceFrame : Prop :=
  ∀ (i : Instr) (s : State), (i = .start ∨ i = .stop ∨ i = .reset) → s.params.wellFormed = true → s.opened = true →
    ∃ t es, exec i s = .next t ∧ t.handle = s.handle ∧ t.opened = true ∧ t.params = s.params ∧ t.cfg = s.cfg ∧
      t.cmds = s.cmds ∧ t.rstIn = s.rstIn ∧
      (t.busy = true → t.seq = .resetNext (if i = .start then .toStart else .nothing) ∧ t.drv = .released ∧ t.xfer = s.xfer ∧
        t.rsp = s.rsp ∧ t.log = record es s.log) ∧
      (t.busy = false → t.seq = .rest ∧ t.rsp = rspWord 0 t.sfAcc 0 ∧ t.log = .rsp t.rsp :: record es s.log ∧
        t.xfer = decide (i = .start) ∧ t.drv = if i = .start then .low else .released)

/-- The frame of `OPEN` on every environment: the handle is the configuration inputs and `OPENED` is 1; when it has ended both lines are
released, `XFER` is IDLE and `val` is 0x00, also when the bus could not be brought to idle (41_open.md R100, R101,
70_reset_and_hazards.md R165). That a step can end with the `OPEN` in progress, its lines released, no response and a fresh RESET_SEQ
next, is the model's choice (log 1); that nothing is pending after that RESET_SEQ is 44_sequence_control.md R126. -/
def Obligations.OpenFrame : Prop :=
  ∀ s : State, s.params.wellFormed = true → s.cfg.sclId ≠ s.cfg.sdaId → s.cfg.freq ≠ 0 →
    ∃ t es, exec .openBus s = .next t ∧ t.handle = s.cfg ∧ t.opened = true ∧ t.params = s.params ∧ t.cfg = s.cfg ∧
      t.cmds = s.cmds ∧ t.rstIn = s.rstIn ∧ t.drv = .released ∧
      (t.busy = true → t.seq = .resetNext .nothing ∧ t.xfer = s.xfer ∧ t.rsp = s.rsp ∧
        t.log = record ([.release .scl, .release .sda, .pullup .scl, .pullup .sda] ++ es) s.log) ∧
      (t.busy = false → t.seq = .rest ∧ t.rsp = rspWord 0 t.sfAcc 0 ∧ t.xfer = false ∧
        t.log = .rsp t.rsp :: record ([.release .scl, .release .sda, .pullup .scl, .pullup .sda] ++ es) s.log)

/-- `WARN` changes nothing but the diagnostics: the line events, the samples, the response and the state are the same with `WARN` 0 and 1,
in every run of a command, in every step that goes on with a command in progress (log 1), and in every `OPEN`, whose run is under
the `WARN` of its configuration inputs (10_state.md R25, 41_open.md R102). -/
def Obligations.WarnChangesOnlyDiagnostics : Prop :=
  (∀ (i : Instr) (s : State), i ≠ .openBus →
    ∃ t u, exec i { s with handle := { s.handle with warn := false } } = .next t ∧
      exec i { s with handle := { s.handle with warn := true } } = .next u ∧
      t = { u with handle := { u.handle with warn := false }, log := t.log } ∧ DiagsApart s t u) ∧
  (∀ (s : State) (ret : Pending), s.params.wellFormed = true → s.rstIn = none → s.busy = true → s.seq = .resetNext ret →
    ∃ t u, step { s with handle := { s.handle with warn := false } } = .next t ∧
      step { s with handle := { s.handle with warn := true } } = .next u ∧
      t = { u with handle := { u.handle with warn := false }, log := t.log } ∧ DiagsApart s t u) ∧
  (∀ s : State,
    ∃ t u, exec .openBus { s with cfg := { s.cfg with warn := false } } = .next t ∧
      exec .openBus { s with cfg := { s.cfg with warn := true } } = .next u ∧
      t = { u with cfg := t.cfg, handle := t.handle, log := t.log } ∧ DiagsApart s t u)

/-- The ghost flag is never read: two states that differ in `XFER` alone step to states that differ in `XFER` at most
(10_state.md R30). -/
def Obligations.TransferStateIsNeverRead : Prop :=
  ∀ (s t : State) (b : Bool), step s = .next t → ∃ u, step { s with xfer := b } = .next u ∧ u = { t with xfer := u.xfer }

/-- No step reads a private register before writing it: two states that differ in them alone step to states that differ in them at most
(10_state.md R31, R45). -/
def Obligations.PrivateRegistersAreDeadBetweenSteps : Prop :=
  ∀ (s t : State) (r : PrivateRegs), step s = .next t → ∃ u, step { s with regs := r } = .next u ∧ u = { t with regs := u.regs }

/-- The settle rule: in every run of every command, and in every step that goes on with a command in progress, every `Drive` and every
`Release` is followed at once by `WaitUs(T)`, but for the two `Release` events of step 1 of OPEN_SEQ; what follows the four events of
that step settles at the new half-period (40_line_primitives.md R92, 10_state.md R47, 41_open.md R101). -/
def Obligations.EveryLineTransitionSettles : Prop :=
  (∀ (i : Instr) (s t : State), i ≠ .openBus → exec i s = .next t → ∃ es, Emitted s t es ∧ Settled s.T es) ∧
  (∀ s t : State, exec .openBus s = .next t →
    ((s.cfg.sclId = s.cfg.sdaId ∨ s.cfg.freq = 0) ∧ Emitted s t []) ∨
      ∃ es, Emitted s t ([.release .scl, .release .sda, .pullup .scl, .pullup .sda] ++ es) ∧ Settled s.cfg.halfPeriod es) ∧
  (∀ s t : State, s.rstIn = none → s.busy = true → step s = .next t → ∃ es, Emitted s t es ∧ Settled s.T es)

/-- No command and no step ever samples a line the controller is driving, a step cut short by power-on reset included
(20_memory.md R54). -/
def Obligations.DrivenLineIsNeverSampled : Prop :=
  (∀ (i : Instr) (s t : State), exec i s = .next t → ∃ es, Emitted s t es ∧ SamplesReleased s.drv es) ∧
  (∀ s t : State, step s = .next t →
    ∃ es, (Emitted s t es ∨ t.log = .powerOn :: record es s.log) ∧ SamplesReleased s.drv es)

/-- A diagnostic leaves only when `WARN` is 1: `WAIT_TIMEOUT` names SCL always and sets `sf.TMO`, `RESET_GIVEUP` names SDA and sets
`sf.RST`; in every run of every command and in every step, one that goes on with a command in progress included (60_exceptions.md R134
to R136, 40_line_primitives.md R95). -/
def Obligations.DiagnosticsNameTheirLine : Prop :=
  ∀ s t : State, (∃ i, exec i s = .next t) ∨ (s.rstIn = none ∧ step s = .next t) →
    ∃ es, Emitted s t es ∧
      ∀ code l, Event.diag code l ∈ es → t.handle.warn = true ∧
        ((code = .waitTimeout ∧ l = .scl ∧ t.sfAcc.getLsbD 0 = true) ∨
          (code = .resetGiveup ∧ l = .sda ∧ t.sfAcc.getLsbD 1 = true))

/-- Every taken word gets exactly one response, in the step that ends it (10_state.md R41, 30_encoding.md R84). That a step at rest with
no word presented changes nothing is the model's choice (log 18), and so is where a step leaves `BUSY` 1 (log 1). -/
def Obligations.OneResponsePerTakenWord : Prop :=
  ∀ s t : State, s.rstIn = none → step s = .next t →
    (t.busy = true → responses t.log = responses s.log) ∧
    (t.busy = false → (s.busy = true ∨ s.cmds ≠ []) → responses t.log = t.rsp :: responses s.log) ∧
    (s.busy = false → s.cmds = [] → t = s)

/-- Events and responses are only ever added to the record, in the order they happen (20_memory.md R60). The
record is the model's device (log 9). -/
def Obligations.RecordOnlyGrows : Prop :=
  ∀ s t : State, step s = .next t → ∃ new, t.log = new ++ s.log

/-! ### Line primitives, registers and the wire -/

/-- PULL(l) (40_line_primitives.md R90). -/
def Obligations.PullDrivesAndWaits : Prop :=
  ∀ (s : State) (l : Line),
    (pull l s).log = .ev (.waitUs s.T) :: .ev (.drive l) :: s.log ∧ (pull l s).drv.get l = true ∧
      pull l s = { s with drv := (pull l s).drv, log := (pull l s).log } ∧ ∀ m, m ≠ l → (pull l s).drv.get m = s.drv.get m

/-- RELEASE(l) (40_line_primitives.md R91): the level is whatever the environment answers. -/
def Obligations.ReleaseWaitsThenSamplesOnce : Prop :=
  ∀ (s : State) (l : Line), ∃ t, release l s = (s.env.answer l, t) ∧
    t.log = .ev (.sample l (s.env.answer l)) :: .ev (.waitUs s.T) :: .ev (.release l) :: s.log ∧
    t.drv.get l = false ∧ (∀ m, m ≠ l → t.drv.get m = s.drv.get m) ∧
    t = { s with drv := t.drv, env := s.env.afterSample l, log := t.log }

/-- A sample of a line the controller drives reads 0 (20_memory.md R54); that it takes none of the
environment's answers is the model's (log 12). -/
def Obligations.SampleOfDrivenLineReadsZero : Prop :=
  ∀ (s : State) (l : Line), s.drv.get l = true →
    (sample l s).1 = false ∧ (sample l s).2.log = .ev (.sample l false) :: s.log ∧
      (sample l s).2.env.scl = s.env.scl ∧ (sample l s).2.env.sda = s.env.sda

/-- RELWAIT always ends: at least 3 and at most `3 + 2 × POLL_MAX + 1` events, on every environment (40_line_primitives.md R94). -/
def Obligations.BoundedWaitIsBounded : Prop :=
  ∀ (s : State) (l : Line), ∃ v t es, relwait l s = (v, t) ∧ t.log = record es s.log ∧ 3 ≤ es.length ∧
    es.length ≤ 3 + 2 * s.params.pollMax + 1 ∧ t.drv.get l = false ∧
    (v = false → t.sfAcc = setTmo s.sfAcc) ∧ (v = true → t.sfAcc = s.sfAcc)

/-- The half-period is the exact quotient `500000 / FREQ`, 5 at 100000 Hz, and doubling the frequency halves it (10_state.md R26). -/
def Obligations.HalfPeriodIsExact : Prop :=
  (∀ h : Handle, h.halfPeriod.toRat = 500000 / (h.freq.toNat : Rat)) ∧
  (∀ h : Handle, h.freq = 100000 → h.halfPeriod = { num := 5, den := 1 }) ∧
  ∀ h g : Handle, g.freq.toNat = 2 * h.freq.toNat → g.halfPeriod.toRat = h.halfPeriod.toRat / 2

/-- CR0 to CR5 read as the register table says, bits [11:5] of STATUS as 0 (10_state.md R35). -/
def Obligations.ControlRegistersReadAsLaidOut : Prop :=
  ∀ s : State,
    s.controlRegs.cr0 = s.handle.sclId ∧ s.controlRegs.cr1 = s.handle.sdaId ∧ s.controlRegs.cr2 = s.handle.freq ∧
    s.controlRegs.cr3.toNat = s.handle.warn.toNat ∧ s.controlRegs.cr5 = s.rsp ∧
    s.controlRegs.cr4.getLsbD 0 = s.opened ∧ s.controlRegs.cr4.getLsbD 1 = s.busy ∧ s.controlRegs.cr4.getLsbD 2 = s.xfer ∧
    s.controlRegs.cr4.getLsbD 3 = s.drv.scl ∧ s.controlRegs.cr4.getLsbD 4 = s.drv.sda ∧
    s.controlRegs.cr4.extractLsb' 5 7 = 0

/-- Every operand of `SENDBIT` but 0x00 does the same thing (30_encoding.md R72, 42_bit_transfer.md R105). -/
def Obligations.NonZeroOperandsSendTheSameBit : Prop :=
  ∀ (s : State) (a b : Byte), a ≠ 0 → b ≠ 0 → exec (.sendBit a) s = exec (.sendBit b) s

/-- The wired-AND: a line is 1 exactly when the controller has released it, no peripheral holds it, and it has a pull-up; on the quiet
wire its level is the complement of its drive bit (20_memory.md R58). -/
def Obligations.LineLevelIsWiredAnd : Prop :=
  ∀ (d : Drv) (o : Outside),
    ((busLevels d o).scl = true ↔ d.scl = false ∧ o.sclHeld = false ∧ o.sclPulledUp = true) ∧
    ((busLevels d o).sda = true ↔ d.sda = false ∧ o.sdaHeld = false ∧ o.sdaPulledUp = true) ∧
    (busLevels d .quiet).scl = !d.scl ∧ (busLevels d .quiet).sda = !d.sda

/-- On a quiet wire a `START` makes one START and a `STOP` after it one STOP, and both lines end released (20_memory.md R66). -/
def Obligations.StartThenStopOnTheWire : Prop :=
  ∀ s : State, s.opened = true → s.drv = .low ∨ s.drv = .released → s.QuietFor 2 2 →
    ∃ t u, exec .start s = .next t ∧ exec .stop t = .next u ∧ u.drv = .released ∧ u.xfer = false ∧
      conditions (quietLevels s.drv (eventsSince s t)) = [.start] ∧
      conditions (quietLevels t.drv (eventsSince t u)) = [.stop]

/-- Repeated start: two `START`s in a row raise no error and make two START conditions with no STOP between them
(44_sequence_control.md R125). -/
def Obligations.RepeatedStartOnTheWire : Prop :=
  ∀ s : State, s.opened = true → s.drv = .low ∨ s.drv = .released → s.QuietFor 2 2 →
    ∃ t u, exec .start s = .next t ∧ exec .start t = .next u ∧ rspErr t.rsp = 0 ∧ rspErr u.rsp = 0 ∧
      conditions (quietLevels s.drv (eventsSince s u)) = [.start, .start]

/-- On a quiet wire `SENDBYTE`, entered with both lines driven low, shows its eight bits most-significant first and an ack slot left high,
at nine falling clock edges, and makes no condition (43_byte_transfer.md R110, R113, 42_bit_transfer.md R108). -/
def Obligations.SendByteFrameOnTheWire : Prop :=
  ∀ (s : State) (x : Byte), s.opened = true → s.drv = .low → s.QuietFor 9 10 →
    ∃ t, exec (.sendByte x) s = .next t ∧ t.rsp = 0x001 ∧
      bitsAtClockFall (quietLevels s.drv (eventsSince s t)) = wireBits x ++ [true] ∧
      conditions (quietLevels s.drv (eventsSince s t)) = []

/-- On a quiet wire `RESET` makes one STOP and no START, `BURST_PULSES` + 1 clock pulses, whatever the number of pulses in a burst
(44_sequence_control.md R124, 70_reset_and_hazards.md R175). -/
def Obligations.ResetOnTheWire : Prop :=
  ∀ s : State, s.params.wellFormed = true → s.opened = true → s.drv = .released → s.QuietFor (s.params.burstPulses + 1) 3 →
    ∃ t, exec .reset s = .next t ∧ t.rsp = 0x000 ∧
      conditions (quietLevels s.drv (eventsSince s t)) = [.stop] ∧
      (bitsAtClockFall (quietLevels s.drv (eventsSince s t))).length = s.params.burstPulses + 1
end

