-- ==== Sys2Proof/Laws/State.lean ====
section
/-! SUPPORT. One lemma per field of State per update of it, each true by rfl. -/

namespace Sys2Proof.Machine

@[simp] theorem emit_params (e : Event) (s : State) : (emit e s).params = s.params := rfl
@[simp] theorem emit_cfg (e : Event) (s : State) : (emit e s).cfg = s.cfg := rfl
@[simp] theorem emit_cmds (e : Event) (s : State) : (emit e s).cmds = s.cmds := rfl
@[simp] theorem emit_env (e : Event) (s : State) : (emit e s).env = s.env := rfl
@[simp] theorem emit_rstIn (e : Event) (s : State) : (emit e s).rstIn = s.rstIn := rfl
@[simp] theorem emit_handle (e : Event) (s : State) : (emit e s).handle = s.handle := rfl
@[simp] theorem emit_drv (e : Event) (s : State) : (emit e s).drv = s.drv := rfl
@[simp] theorem emit_opened (e : Event) (s : State) : (emit e s).opened = s.opened := rfl
@[simp] theorem emit_busy (e : Event) (s : State) : (emit e s).busy = s.busy := rfl
@[simp] theorem emit_xfer (e : Event) (s : State) : (emit e s).xfer = s.xfer := rfl
@[simp] theorem emit_sfAcc (e : Event) (s : State) : (emit e s).sfAcc = s.sfAcc := rfl
@[simp] theorem emit_regs (e : Event) (s : State) : (emit e s).regs = s.regs := rfl
@[simp] theorem emit_seq (e : Event) (s : State) : (emit e s).seq = s.seq := rfl
@[simp] theorem emit_rsp (e : Event) (s : State) : (emit e s).rsp = s.rsp := rfl
@[simp] theorem emit_log (e : Event) (s : State) : (emit e s).log = .ev e :: s.log := rfl
@[simp] theorem emit_completed (e : Event) (s : State) : (emit e s).completed = s.completed := rfl

@[simp] theorem setDrv_params (l : Line) (b : Bool) (s : State) : (setDrv l b s).params = s.params := rfl
@[simp] theorem setDrv_cfg (l : Line) (b : Bool) (s : State) : (setDrv l b s).cfg = s.cfg := rfl
@[simp] theorem setDrv_cmds (l : Line) (b : Bool) (s : State) : (setDrv l b s).cmds = s.cmds := rfl
@[simp] theorem setDrv_env (l : Line) (b : Bool) (s : State) : (setDrv l b s).env = s.env := rfl
@[simp] theorem setDrv_rstIn (l : Line) (b : Bool) (s : State) : (setDrv l b s).rstIn = s.rstIn := rfl
@[simp] theorem setDrv_handle (l : Line) (b : Bool) (s : State) : (setDrv l b s).handle = s.handle := rfl
@[simp] theorem setDrv_drv (l : Line) (b : Bool) (s : State) : (setDrv l b s).drv = s.drv.set l b := rfl
@[simp] theorem setDrv_opened (l : Line) (b : Bool) (s : State) : (setDrv l b s).opened = s.opened := rfl
@[simp] theorem setDrv_busy (l : Line) (b : Bool) (s : State) : (setDrv l b s).busy = s.busy := rfl
@[simp] theorem setDrv_xfer (l : Line) (b : Bool) (s : State) : (setDrv l b s).xfer = s.xfer := rfl
@[simp] theorem setDrv_sfAcc (l : Line) (b : Bool) (s : State) : (setDrv l b s).sfAcc = s.sfAcc := rfl
@[simp] theorem setDrv_regs (l : Line) (b : Bool) (s : State) : (setDrv l b s).regs = s.regs := rfl
@[simp] theorem setDrv_seq (l : Line) (b : Bool) (s : State) : (setDrv l b s).seq = s.seq := rfl
@[simp] theorem setDrv_rsp (l : Line) (b : Bool) (s : State) : (setDrv l b s).rsp = s.rsp := rfl
@[simp] theorem setDrv_log (l : Line) (b : Bool) (s : State) : (setDrv l b s).log = s.log := rfl
@[simp] theorem setDrv_completed (l : Line) (b : Bool) (s : State) : (setDrv l b s).completed = s.completed := rfl

@[simp] theorem setEnv_params (e : Env) (s : State) : (setEnv e s).params = s.params := rfl
@[simp] theorem setEnv_cfg (e : Env) (s : State) : (setEnv e s).cfg = s.cfg := rfl
@[simp] theorem setEnv_cmds (e : Env) (s : State) : (setEnv e s).cmds = s.cmds := rfl
@[simp] theorem setEnv_env (e : Env) (s : State) : (setEnv e s).env = e := rfl
@[simp] theorem setEnv_rstIn (e : Env) (s : State) : (setEnv e s).rstIn = s.rstIn := rfl
@[simp] theorem setEnv_handle (e : Env) (s : State) : (setEnv e s).handle = s.handle := rfl
@[simp] theorem setEnv_drv (e : Env) (s : State) : (setEnv e s).drv = s.drv := rfl
@[simp] theorem setEnv_opened (e : Env) (s : State) : (setEnv e s).opened = s.opened := rfl
@[simp] theorem setEnv_busy (e : Env) (s : State) : (setEnv e s).busy = s.busy := rfl
@[simp] theorem setEnv_xfer (e : Env) (s : State) : (setEnv e s).xfer = s.xfer := rfl
@[simp] theorem setEnv_sfAcc (e : Env) (s : State) : (setEnv e s).sfAcc = s.sfAcc := rfl
@[simp] theorem setEnv_regs (e : Env) (s : State) : (setEnv e s).regs = s.regs := rfl
@[simp] theorem setEnv_seq (e : Env) (s : State) : (setEnv e s).seq = s.seq := rfl
@[simp] theorem setEnv_rsp (e : Env) (s : State) : (setEnv e s).rsp = s.rsp := rfl
@[simp] theorem setEnv_log (e : Env) (s : State) : (setEnv e s).log = s.log := rfl
@[simp] theorem setEnv_completed (e : Env) (s : State) : (setEnv e s).completed = s.completed := rfl

@[simp] theorem setRegs_params (r : PrivateRegs) (s : State) : (setRegs r s).params = s.params := rfl
@[simp] theorem setRegs_cfg (r : PrivateRegs) (s : State) : (setRegs r s).cfg = s.cfg := rfl
@[simp] theorem setRegs_cmds (r : PrivateRegs) (s : State) : (setRegs r s).cmds = s.cmds := rfl
@[simp] theorem setRegs_env (r : PrivateRegs) (s : State) : (setRegs r s).env = s.env := rfl
@[simp] theorem setRegs_rstIn (r : PrivateRegs) (s : State) : (setRegs r s).rstIn = s.rstIn := rfl
@[simp] theorem setRegs_handle (r : PrivateRegs) (s : State) : (setRegs r s).handle = s.handle := rfl
@[simp] theorem setRegs_drv (r : PrivateRegs) (s : State) : (setRegs r s).drv = s.drv := rfl
@[simp] theorem setRegs_opened (r : PrivateRegs) (s : State) : (setRegs r s).opened = s.opened := rfl
@[simp] theorem setRegs_busy (r : PrivateRegs) (s : State) : (setRegs r s).busy = s.busy := rfl
@[simp] theorem setRegs_xfer (r : PrivateRegs) (s : State) : (setRegs r s).xfer = s.xfer := rfl
@[simp] theorem setRegs_sfAcc (r : PrivateRegs) (s : State) : (setRegs r s).sfAcc = s.sfAcc := rfl
@[simp] theorem setRegs_regs (r : PrivateRegs) (s : State) : (setRegs r s).regs = r := rfl
@[simp] theorem setRegs_seq (r : PrivateRegs) (s : State) : (setRegs r s).seq = s.seq := rfl
@[simp] theorem setRegs_rsp (r : PrivateRegs) (s : State) : (setRegs r s).rsp = s.rsp := rfl
@[simp] theorem setRegs_log (r : PrivateRegs) (s : State) : (setRegs r s).log = s.log := rfl
@[simp] theorem setRegs_completed (r : PrivateRegs) (s : State) : (setRegs r s).completed = s.completed := rfl

@[simp] theorem setSfAcc_params (sf : BitVec 2) (s : State) : (setSfAcc sf s).params = s.params := rfl
@[simp] theorem setSfAcc_cfg (sf : BitVec 2) (s : State) : (setSfAcc sf s).cfg = s.cfg := rfl
@[simp] theorem setSfAcc_cmds (sf : BitVec 2) (s : State) : (setSfAcc sf s).cmds = s.cmds := rfl
@[simp] theorem setSfAcc_env (sf : BitVec 2) (s : State) : (setSfAcc sf s).env = s.env := rfl
@[simp] theorem setSfAcc_rstIn (sf : BitVec 2) (s : State) : (setSfAcc sf s).rstIn = s.rstIn := rfl
@[simp] theorem setSfAcc_handle (sf : BitVec 2) (s : State) : (setSfAcc sf s).handle = s.handle := rfl
@[simp] theorem setSfAcc_drv (sf : BitVec 2) (s : State) : (setSfAcc sf s).drv = s.drv := rfl
@[simp] theorem setSfAcc_opened (sf : BitVec 2) (s : State) : (setSfAcc sf s).opened = s.opened := rfl
@[simp] theorem setSfAcc_busy (sf : BitVec 2) (s : State) : (setSfAcc sf s).busy = s.busy := rfl
@[simp] theorem setSfAcc_xfer (sf : BitVec 2) (s : State) : (setSfAcc sf s).xfer = s.xfer := rfl
@[simp] theorem setSfAcc_sfAcc (sf : BitVec 2) (s : State) : (setSfAcc sf s).sfAcc = sf := rfl
@[simp] theorem setSfAcc_regs (sf : BitVec 2) (s : State) : (setSfAcc sf s).regs = s.regs := rfl
@[simp] theorem setSfAcc_seq (sf : BitVec 2) (s : State) : (setSfAcc sf s).seq = s.seq := rfl
@[simp] theorem setSfAcc_rsp (sf : BitVec 2) (s : State) : (setSfAcc sf s).rsp = s.rsp := rfl
@[simp] theorem setSfAcc_log (sf : BitVec 2) (s : State) : (setSfAcc sf s).log = s.log := rfl
@[simp] theorem setSfAcc_completed (sf : BitVec 2) (s : State) : (setSfAcc sf s).completed = s.completed := rfl

@[simp] theorem setXfer_params (b : Bool) (s : State) : (setXfer b s).params = s.params := rfl
@[simp] theorem setXfer_cfg (b : Bool) (s : State) : (setXfer b s).cfg = s.cfg := rfl
@[simp] theorem setXfer_cmds (b : Bool) (s : State) : (setXfer b s).cmds = s.cmds := rfl
@[simp] theorem setXfer_env (b : Bool) (s : State) : (setXfer b s).env = s.env := rfl
@[simp] theorem setXfer_rstIn (b : Bool) (s : State) : (setXfer b s).rstIn = s.rstIn := rfl
@[simp] theorem setXfer_handle (b : Bool) (s : State) : (setXfer b s).handle = s.handle := rfl
@[simp] theorem setXfer_drv (b : Bool) (s : State) : (setXfer b s).drv = s.drv := rfl
@[simp] theorem setXfer_opened (b : Bool) (s : State) : (setXfer b s).opened = s.opened := rfl
@[simp] theorem setXfer_busy (b : Bool) (s : State) : (setXfer b s).busy = s.busy := rfl
@[simp] theorem setXfer_xfer (b : Bool) (s : State) : (setXfer b s).xfer = b := rfl
@[simp] theorem setXfer_sfAcc (b : Bool) (s : State) : (setXfer b s).sfAcc = s.sfAcc := rfl
@[simp] theorem setXfer_regs (b : Bool) (s : State) : (setXfer b s).regs = s.regs := rfl
@[simp] theorem setXfer_seq (b : Bool) (s : State) : (setXfer b s).seq = s.seq := rfl
@[simp] theorem setXfer_rsp (b : Bool) (s : State) : (setXfer b s).rsp = s.rsp := rfl
@[simp] theorem setXfer_log (b : Bool) (s : State) : (setXfer b s).log = s.log := rfl
@[simp] theorem setXfer_completed (b : Bool) (s : State) : (setXfer b s).completed = s.completed := rfl

@[simp] theorem setSeq_params (q : Seq) (s : State) : (setSeq q s).params = s.params := rfl
@[simp] theorem setSeq_cfg (q : Seq) (s : State) : (setSeq q s).cfg = s.cfg := rfl
@[simp] theorem setSeq_cmds (q : Seq) (s : State) : (setSeq q s).cmds = s.cmds := rfl
@[simp] theorem setSeq_env (q : Seq) (s : State) : (setSeq q s).env = s.env := rfl
@[simp] theorem setSeq_rstIn (q : Seq) (s : State) : (setSeq q s).rstIn = s.rstIn := rfl
@[simp] theorem setSeq_handle (q : Seq) (s : State) : (setSeq q s).handle = s.handle := rfl
@[simp] theorem setSeq_drv (q : Seq) (s : State) : (setSeq q s).drv = s.drv := rfl
@[simp] theorem setSeq_opened (q : Seq) (s : State) : (setSeq q s).opened = s.opened := rfl
@[simp] theorem setSeq_busy (q : Seq) (s : State) : (setSeq q s).busy = s.busy := rfl
@[simp] theorem setSeq_xfer (q : Seq) (s : State) : (setSeq q s).xfer = s.xfer := rfl
@[simp] theorem setSeq_sfAcc (q : Seq) (s : State) : (setSeq q s).sfAcc = s.sfAcc := rfl
@[simp] theorem setSeq_regs (q : Seq) (s : State) : (setSeq q s).regs = s.regs := rfl
@[simp] theorem setSeq_seq (q : Seq) (s : State) : (setSeq q s).seq = q := rfl
@[simp] theorem setSeq_rsp (q : Seq) (s : State) : (setSeq q s).rsp = s.rsp := rfl
@[simp] theorem setSeq_log (q : Seq) (s : State) : (setSeq q s).log = s.log := rfl
@[simp] theorem setSeq_completed (q : Seq) (s : State) : (setSeq q s).completed = s.completed := rfl

@[simp] theorem setHandle_params (h : Handle) (s : State) : (setHandle h s).params = s.params := rfl
@[simp] theorem setHandle_cfg (h : Handle) (s : State) : (setHandle h s).cfg = s.cfg := rfl
@[simp] theorem setHandle_cmds (h : Handle) (s : State) : (setHandle h s).cmds = s.cmds := rfl
@[simp] theorem setHandle_env (h : Handle) (s : State) : (setHandle h s).env = s.env := rfl
@[simp] theorem setHandle_rstIn (h : Handle) (s : State) : (setHandle h s).rstIn = s.rstIn := rfl
@[simp] theorem setHandle_handle (h : Handle) (s : State) : (setHandle h s).handle = h := rfl
@[simp] theorem setHandle_drv (h : Handle) (s : State) : (setHandle h s).drv = s.drv := rfl
@[simp] theorem setHandle_opened (h : Handle) (s : State) : (setHandle h s).opened = s.opened := rfl
@[simp] theorem setHandle_busy (h : Handle) (s : State) : (setHandle h s).busy = s.busy := rfl
@[simp] theorem setHandle_xfer (h : Handle) (s : State) : (setHandle h s).xfer = s.xfer := rfl
@[simp] theorem setHandle_sfAcc (h : Handle) (s : State) : (setHandle h s).sfAcc = s.sfAcc := rfl
@[simp] theorem setHandle_regs (h : Handle) (s : State) : (setHandle h s).regs = s.regs := rfl
@[simp] theorem setHandle_seq (h : Handle) (s : State) : (setHandle h s).seq = s.seq := rfl
@[simp] theorem setHandle_rsp (h : Handle) (s : State) : (setHandle h s).rsp = s.rsp := rfl
@[simp] theorem setHandle_log (h : Handle) (s : State) : (setHandle h s).log = s.log := rfl
@[simp] theorem setHandle_completed (h : Handle) (s : State) : (setHandle h s).completed = s.completed := rfl

@[simp] theorem setOpened_params (b : Bool) (s : State) : (setOpened b s).params = s.params := rfl
@[simp] theorem setOpened_cfg (b : Bool) (s : State) : (setOpened b s).cfg = s.cfg := rfl
@[simp] theorem setOpened_cmds (b : Bool) (s : State) : (setOpened b s).cmds = s.cmds := rfl
@[simp] theorem setOpened_env (b : Bool) (s : State) : (setOpened b s).env = s.env := rfl
@[simp] theorem setOpened_rstIn (b : Bool) (s : State) : (setOpened b s).rstIn = s.rstIn := rfl
@[simp] theorem setOpened_handle (b : Bool) (s : State) : (setOpened b s).handle = s.handle := rfl
@[simp] theorem setOpened_drv (b : Bool) (s : State) : (setOpened b s).drv = s.drv := rfl
@[simp] theorem setOpened_opened (b : Bool) (s : State) : (setOpened b s).opened = b := rfl
@[simp] theorem setOpened_busy (b : Bool) (s : State) : (setOpened b s).busy = s.busy := rfl
@[simp] theorem setOpened_xfer (b : Bool) (s : State) : (setOpened b s).xfer = s.xfer := rfl
@[simp] theorem setOpened_sfAcc (b : Bool) (s : State) : (setOpened b s).sfAcc = s.sfAcc := rfl
@[simp] theorem setOpened_regs (b : Bool) (s : State) : (setOpened b s).regs = s.regs := rfl
@[simp] theorem setOpened_seq (b : Bool) (s : State) : (setOpened b s).seq = s.seq := rfl
@[simp] theorem setOpened_rsp (b : Bool) (s : State) : (setOpened b s).rsp = s.rsp := rfl
@[simp] theorem setOpened_log (b : Bool) (s : State) : (setOpened b s).log = s.log := rfl
@[simp] theorem setOpened_completed (b : Bool) (s : State) : (setOpened b s).completed = s.completed := rfl

@[simp] theorem accept_params (s : State) : (accept s).params = s.params := rfl
@[simp] theorem accept_cfg (s : State) : (accept s).cfg = s.cfg := rfl
@[simp] theorem accept_cmds (s : State) : (accept s).cmds = s.cmds := rfl
@[simp] theorem accept_env (s : State) : (accept s).env = s.env := rfl
@[simp] theorem accept_rstIn (s : State) : (accept s).rstIn = s.rstIn := rfl
@[simp] theorem accept_handle (s : State) : (accept s).handle = s.handle := rfl
@[simp] theorem accept_drv (s : State) : (accept s).drv = s.drv := rfl
@[simp] theorem accept_opened (s : State) : (accept s).opened = s.opened := rfl
@[simp] theorem accept_busy (s : State) : (accept s).busy = true := rfl
@[simp] theorem accept_xfer (s : State) : (accept s).xfer = s.xfer := rfl
@[simp] theorem accept_sfAcc (s : State) : (accept s).sfAcc = 0 := rfl
@[simp] theorem accept_regs (s : State) : (accept s).regs = s.regs := rfl
@[simp] theorem accept_seq (s : State) : (accept s).seq = .inCommand := rfl
@[simp] theorem accept_rsp (s : State) : (accept s).rsp = s.rsp := rfl
@[simp] theorem accept_log (s : State) : (accept s).log = s.log := rfl
@[simp] theorem accept_completed (s : State) : (accept s).completed = s.completed := rfl

@[simp] theorem respond_params (w : RspWord) (s : State) : (respond w s).params = s.params := rfl
@[simp] theorem respond_cfg (w : RspWord) (s : State) : (respond w s).cfg = s.cfg := rfl
@[simp] theorem respond_cmds (w : RspWord) (s : State) : (respond w s).cmds = s.cmds := rfl
@[simp] theorem respond_env (w : RspWord) (s : State) : (respond w s).env = s.env := rfl
@[simp] theorem respond_rstIn (w : RspWord) (s : State) : (respond w s).rstIn = s.rstIn := rfl
@[simp] theorem respond_handle (w : RspWord) (s : State) : (respond w s).handle = s.handle := rfl
@[simp] theorem respond_drv (w : RspWord) (s : State) : (respond w s).drv = s.drv := rfl
@[simp] theorem respond_opened (w : RspWord) (s : State) : (respond w s).opened = s.opened := rfl
@[simp] theorem respond_busy (w : RspWord) (s : State) : (respond w s).busy = s.busy := rfl
@[simp] theorem respond_xfer (w : RspWord) (s : State) : (respond w s).xfer = s.xfer := rfl
@[simp] theorem respond_sfAcc (w : RspWord) (s : State) : (respond w s).sfAcc = s.sfAcc := rfl
@[simp] theorem respond_regs (w : RspWord) (s : State) : (respond w s).regs = s.regs := rfl
@[simp] theorem respond_seq (w : RspWord) (s : State) : (respond w s).seq = s.seq := rfl
@[simp] theorem respond_rsp (w : RspWord) (s : State) : (respond w s).rsp = w := rfl
@[simp] theorem respond_log (w : RspWord) (s : State) : (respond w s).log = .rsp w :: s.log := rfl
@[simp] theorem respond_completed (w : RspWord) (s : State) : (respond w s).completed = s.completed := rfl

@[simp] theorem complete_params (v : Byte) (s : State) : (complete v s).params = s.params := rfl
@[simp] theorem complete_cfg (v : Byte) (s : State) : (complete v s).cfg = s.cfg := rfl
@[simp] theorem complete_cmds (v : Byte) (s : State) : (complete v s).cmds = s.cmds := rfl
@[simp] theorem complete_env (v : Byte) (s : State) : (complete v s).env = s.env := rfl
@[simp] theorem complete_rstIn (v : Byte) (s : State) : (complete v s).rstIn = s.rstIn := rfl
@[simp] theorem complete_handle (v : Byte) (s : State) : (complete v s).handle = s.handle := rfl
@[simp] theorem complete_drv (v : Byte) (s : State) : (complete v s).drv = s.drv := rfl
@[simp] theorem complete_opened (v : Byte) (s : State) : (complete v s).opened = s.opened := rfl
@[simp] theorem complete_busy (v : Byte) (s : State) : (complete v s).busy = false := rfl
@[simp] theorem complete_xfer (v : Byte) (s : State) : (complete v s).xfer = s.xfer := rfl
@[simp] theorem complete_sfAcc (v : Byte) (s : State) : (complete v s).sfAcc = s.sfAcc := rfl
@[simp] theorem complete_regs (v : Byte) (s : State) : (complete v s).regs = freeRegs s.completed := rfl
@[simp] theorem complete_seq (v : Byte) (s : State) : (complete v s).seq = .rest := rfl
@[simp] theorem complete_rsp (v : Byte) (s : State) : (complete v s).rsp = rspWord noError s.sfAcc v := rfl
@[simp] theorem complete_log (v : Byte) (s : State) : (complete v s).log = .rsp (rspWord noError s.sfAcc v) :: s.log := rfl
@[simp] theorem complete_completed (v : Byte) (s : State) : (complete v s).completed = s.completed + 1 := rfl

@[simp] theorem present_params (w : CmdWord) (s : State) : (present w s).params = s.params := rfl
@[simp] theorem present_cfg (w : CmdWord) (s : State) : (present w s).cfg = s.cfg := rfl
@[simp] theorem present_cmds (w : CmdWord) (s : State) : (present w s).cmds = w :: s.cmds := rfl
@[simp] theorem present_env (w : CmdWord) (s : State) : (present w s).env = s.env := rfl
@[simp] theorem present_rstIn (w : CmdWord) (s : State) : (present w s).rstIn = none := rfl
@[simp] theorem present_handle (w : CmdWord) (s : State) : (present w s).handle = s.handle := rfl
@[simp] theorem present_drv (w : CmdWord) (s : State) : (present w s).drv = s.drv := rfl
@[simp] theorem present_opened (w : CmdWord) (s : State) : (present w s).opened = s.opened := rfl
@[simp] theorem present_busy (w : CmdWord) (s : State) : (present w s).busy = false := rfl
@[simp] theorem present_xfer (w : CmdWord) (s : State) : (present w s).xfer = s.xfer := rfl
@[simp] theorem present_sfAcc (w : CmdWord) (s : State) : (present w s).sfAcc = s.sfAcc := rfl
@[simp] theorem present_regs (w : CmdWord) (s : State) : (present w s).regs = s.regs := rfl
@[simp] theorem present_seq (w : CmdWord) (s : State) : (present w s).seq = .rest := rfl
@[simp] theorem present_rsp (w : CmdWord) (s : State) : (present w s).rsp = s.rsp := rfl
@[simp] theorem present_log (w : CmdWord) (s : State) : (present w s).log = s.log := rfl
@[simp] theorem present_completed (w : CmdWord) (s : State) : (present w s).completed = s.completed := rfl

end Sys2Proof.Machine
end

