-- ==== Sys2Proof/Laws/Activity.lean ====
section
/-! SUPPORT. Say once what the line activity of a command can do: `Act` lists the single actions every sequence is made of, `Acts` their
chains; each sequence is shown to be such a chain on every environment, and a property of all runs is one induction over `Acts`. -/

namespace Sys2Proof.Machine

/-- One action of a sequence. -/
inductive Act : State → State → Prop where
  | pulled (l : Line) (s : State) : Act s (pull l s)
  | released (l : Line) (s : State) : Act s (release l s).2
  | checked (s : State) (h : s.drv.sda = false) : Act s (sample .sda s).2
  | polled (s : State) (h : s.drv.scl = false) : Act s (sample .scl (waitMs s.params.pollIntervalMs s)).2
  | delayed (s : State) : Act s (waitMs s.params.burstDelayMs s)
  | timedOut (s : State) : Act s (timeOut .scl s)
  | gaveUp (s : State) : Act s (warn .resetGiveup .sda (setSfAcc (setRst s.sfAcc) s))
  | regsSet (r : PrivateRegs) (s : State) : Act s (setRegs r s)

/-- A chain of actions. -/
inductive Acts : State → State → Prop where
  | nil (s : State) : Acts s s
  | snoc {s t u : State} : Acts s t → Act t u → Acts s u

theorem Acts.one {s t : State} (h : Act s t) : Acts s t := (Acts.nil s).snoc h

theorem Acts.trans {s t u : State} (h : Acts s t) (k : Acts t u) : Acts s u := by
  induction k with
  | nil => exact h
  | snoc _ a ih => exact ih.snoc a

/-! ### What a sample is -/

/-- A sample changes the environment and the record, and nothing else. -/
theorem sample_eq (l : Line) (s : State) :
    ∃ e, sample l s = ((sample l s).1, emit (.sample l (sample l s).1) (setEnv e s)) := by
  by_cases h : s.drv.get l
  · exact ⟨{ s.env with taken := s.env.taken + 1 }, by simp [sample, h]⟩
  · exact ⟨s.env.afterSample l, by simp [sample, h]⟩

theorem sample_snd (l : Line) (s : State) :
    ∃ e, (sample l s).2 = emit (.sample l (sample l s).1) (setEnv e s) := by
  obtain ⟨e, h⟩ := sample_eq l s; exact ⟨e, congrArg Prod.snd h⟩

@[simp] theorem sample_drv (l : Line) (s : State) : (sample l s).2.drv = s.drv := by
  obtain ⟨e, h⟩ := sample_snd l s; simp [h]

@[simp] theorem waitMs_drv (t : Nat) (s : State) : (waitMs t s).drv = s.drv := rfl

@[simp] theorem waitHalf_drv (s : State) : (waitHalf s).drv = s.drv := rfl

@[simp] theorem pull_drv (l : Line) (s : State) : (pull l s).drv = s.drv.set l true := rfl

@[simp] theorem release_drv (l : Line) (s : State) : (release l s).2.drv = s.drv.set l false := by
  simp [release, float]

@[simp] theorem warn_drv (c : DiagCode) (l : Line) (s : State) : (warn c l s).drv = s.drv := by
  unfold warn; split <;> rfl

@[simp] theorem Drv.set_scl_scl (d : Drv) (b : Bool) : (d.set .scl b).scl = b := rfl
@[simp] theorem Drv.set_scl_sda (d : Drv) (b : Bool) : (d.set .scl b).sda = d.sda := rfl
@[simp] theorem Drv.set_sda_scl (d : Drv) (b : Bool) : (d.set .sda b).scl = d.scl := rfl
@[simp] theorem Drv.set_sda_sda (d : Drv) (b : Bool) : (d.set .sda b).sda = b := rfl

/-! ### RELWAIT -/

theorem poll_acts (s : State) (h : s.drv.scl = false) : Acts s (poll .scl s).2 :=
  (Acts.one (.polled s h)).snoc (.regsSet _ _)

@[simp] theorem poll_drv (l : Line) (s : State) : (poll l s).2.drv = s.drv := by simp [poll, setPollCnt]

@[simp] theorem pollLoop_drv (n : Nat) (l : Line) (r : Level × State) : (pollLoop n l r).2.drv = r.2.drv := by
  induction n generalizing r with
  | zero => rfl
  | succ n ih => simp only [pollLoop]; split <;> simp [ih]

theorem pollLoop_acts (n : Nat) (r : Level × State) (h : r.2.drv.scl = false) : Acts r.2 (pollLoop n .scl r).2 := by
  induction n generalizing r with
  | zero => exact .nil _
  | succ n ih =>
    simp only [pollLoop]; split
    · exact (poll_acts r.2 h).trans (ih _ (by simpa using h))
    · exact .nil _

theorem relwait_acts (s : State) : Acts s (relwait .scl s).2 := by
  have h0 : Acts s (setPollCnt 0 (release .scl s).2) := (Acts.one (.released .scl s)).snoc (.regsSet _ _)
  have h1 := h0.trans (pollLoop_acts s.params.pollMax ((release .scl s).1, setPollCnt 0 (release .scl s).2) (by
    simp [setPollCnt]))
  simp only [relwait]
  split
  · exact h1
  · exact h1.snoc (.timedOut _)

@[simp] theorem timeOut_drv (l : Line) (s : State) : (timeOut l s).drv = s.drv := by simp [timeOut]

@[simp] theorem relwait_drv (l : Line) (s : State) : (relwait l s).2.drv = s.drv.set l false := by
  simp only [relwait]; split <;> simp [setPollCnt]

/-! ### Transfers -/

theorem presentBit_acts (b : Level) (s : State) : Acts s (presentBit b s) := by
  unfold presentBit; split
  · exact .one (.released ..)
  · exact .one (.pulled ..)

theorem endBit_acts (s : State) : Acts s (endBit s) := (Acts.one (.pulled ..)).snoc (.pulled ..)

theorem sendBitSeq_acts (x : Byte) (s : State) : Acts s (sendBitSeq x s) :=
  ((presentBit_acts _ s).trans (relwait_acts _)).trans (endBit_acts _)

theorem readBitSeq_acts (s : State) : Acts s (readBitSeq s).2 :=
  (((Acts.one (.released .sda s)).trans (relwait_acts _)).snoc (.checked _ (by simp))).trans (endBit_acts _)

theorem sendBits_acts (n : Nat) (s : State) : Acts s (sendBits n s) := by
  induction n generalizing s with
  | zero => exact .nil _
  | succ n ih => exact ((sendBitSeq_acts _ s).snoc (.regsSet _ _)).trans (ih _)

theorem readBits_acts (n : Nat) (s : State) : Acts s (readBits n s) := by
  induction n generalizing s with
  | zero => exact .nil _
  | succ n ih => exact ((readBitSeq_acts s).snoc (.regsSet _ _)).trans (ih _)

theorem sendByteSeq_acts (x : Byte) (s : State) : Acts s (sendByteSeq x s).2 := by
  have h0 : Acts s (loadShr x s) := .one (.regsSet _ s)
  rw [sendByteSeq]
  exact (h0.trans (sendBits_acts 8 _)).trans (readBitSeq_acts _)

theorem readByteSeq_acts (s : State) : Acts s (readByteSeq s).2 := by
  have h0 : Acts s (clearAcc s) := .one (.regsSet _ s)
  rw [readByteSeq]
  exact h0.trans (readBits_acts 8 _)

/-! ### Sequences -/

theorem pulse_acts (s : State) : Acts s (pulse s) :=
  ((Acts.one (.pulled .scl s)).snoc (.released ..)).snoc (.regsSet _ _)

@[simp] theorem pulse_sda (s : State) : (pulse s).drv.sda = s.drv.sda := by simp [pulse, setPulseCnt]

theorem pulses_acts (n : Nat) (s : State) : Acts s (pulses n s) := by
  induction n generalizing s with
  | zero => exact .nil _
  | succ n ih => exact (pulse_acts s).trans (ih _)

@[simp] theorem pulses_sda (n : Nat) (s : State) : (pulses n s).drv.sda = s.drv.sda := by
  induction n generalizing s with
  | zero => rfl
  | succ n ih => simp [pulses, ih]

theorem pulses_scl (n : Nat) (s : State) (h : 1 ≤ n) : (pulses n s).drv.scl = false := by
  induction n generalizing s with
  | zero => omega
  | succ n ih =>
    cases n with
    | zero => simp [pulses, pulse, setPulseCnt]
    | succ m => exact ih (pulse s) (by omega)

theorem burst_acts (s : State) (h : s.drv.sda = false) : Acts s (burst s).2 :=
  ((Acts.one (.regsSet _ s)).trans (pulses_acts _ _)).snoc (.checked _ (by simpa [setPulseCnt] using h))

@[simp] theorem burst_sda (s : State) : (burst s).2.drv.sda = s.drv.sda := by simp [burst, setPulseCnt]

theorem burst_scl (s : State) (h : 1 ≤ s.params.burstPulses) : (burst s).2.drv.scl = false := by
  simp [burst, pulses_scl _ _ h]

theorem burstLoop_acts (n : Nat) (s : State) (h : s.drv.sda = false) : Acts s (burstLoop n s).2 := by
  induction n generalizing s with
  | zero => exact .nil _
  | succ n ih =>
    simp only [burstLoop]
    have hb := burst_acts s h
    split
    · exact hb
    · split
      · exact hb.snoc (.regsSet _ _)
      · exact ((hb.snoc (.regsSet _ _)).snoc (.delayed _)).trans (ih _ (by simpa [setBurstCnt] using h))

@[simp] theorem burstLoop_sda (n : Nat) (s : State) : (burstLoop n s).2.drv.sda = s.drv.sda := by
  induction n generalizing s with
  | zero => rfl
  | succ n ih =>
    simp only [burstLoop]; split
    · simp
    · split <;> simp [ih, setBurstCnt]

theorem stopLines_acts (s : State) : Acts s (stopLines s).2 := (relwait_acts s).snoc (.released ..)

@[simp] theorem stopLines_drv (s : State) : (stopLines s).2.drv = .released := by
  simp [stopLines, Drv.set, Drv.released]

theorem recoverLines_acts (s : State) : Acts s (recoverLines s).2 :=
  ((Acts.one (.pulled ..)).snoc (.pulled ..)).trans (stopLines_acts _)

/-- RESET_SEQ once through: line activity, then `XFER <- IDLE` if it is over. -/
theorem resetRound_acts (s : State) :
    ∃ t, Acts s t ∧ (resetRound s).2 = if (resetRound s).1 then setXfer false t else t := by
  have h0 : Acts s (burstLoop s.params.burstMax (setBurstCnt 0 (release .sda s).2)).2 :=
    ((Acts.one (.released ..)).snoc (.regsSet _ _)).trans (burstLoop_acts _ _ (by simp))
  simp only [resetRound]
  split
  · refine ⟨_, h0.trans (recoverLines_acts _), ?_⟩
    split <;> simp
  · exact ⟨_, h0.snoc (.gaveUp _), by simp [giveUp]⟩

/-- START_SEQ after its check: line activity, then `XFER <- ACTIVE`. -/
theorem startTail_acts (s : State) : ∃ t, Acts s t ∧ startTail s = setXfer true t :=
  ⟨_, ((relwait_acts s).snoc (.pulled ..)).snoc (.pulled ..), rfl⟩

/-! ### What every chain of actions keeps -/

/-- Line activity writes the drive bits, the environment, the private registers, `SFACC` and the record, and nothing else. -/
def OnlyLines (s t : State) : Prop :=
  t = { s with drv := t.drv, env := t.env, regs := t.regs, sfAcc := t.sfAcc, log := t.log }

theorem Act.onlyLines {s t : State} (h : Act s t) : OnlyLines s t := by
  cases h with
  | pulled => rfl
  | released l => obtain ⟨e, h⟩ := sample_snd l (waitHalf (float l s)); simp only [release, h]; rfl
  | checked => obtain ⟨e, h⟩ := sample_snd .sda s; simp only [h]; rfl
  | polled => obtain ⟨e, h⟩ := sample_snd .scl (waitMs s.params.pollIntervalMs s); simp only [h]; rfl
  | delayed => rfl
  | timedOut => unfold timeOut warn; split <;> rfl
  | gaveUp => unfold warn; split <;> rfl
  | regsSet => rfl

theorem Acts.onlyLines {s t : State} (h : Acts s t) : OnlyLines s t := by
  induction h with
  | nil => rfl
  | snoc _ a ih => have := a.onlyLines; unfold OnlyLines at *; rw [this, ih]

/-- The events of one action, and the drive bits after it. -/
theorem Act.log {s t : State} (h : Act s t) : ∃ es, t.log = record es s.log ∧ t.drv = es.foldl Drv.after s.drv := by
  cases h with
  | pulled l => exact ⟨tPull s.T l, rfl, rfl⟩
  | released l =>
    obtain ⟨e, h⟩ := sample_snd l (waitHalf (float l s))
    refine ⟨tRelease s.T l (sample l (waitHalf (float l s))).1, ?_, by simp [tRelease, Drv.after]⟩
    simp only [release, h]; rfl
  | checked =>
    obtain ⟨e, h⟩ := sample_snd .sda s
    exact ⟨[.sample .sda (sample .sda s).1], by simp only [h]; rfl, by simp [Drv.after]⟩
  | polled =>
    obtain ⟨e, h⟩ := sample_snd .scl (waitMs s.params.pollIntervalMs s)
    refine ⟨[.waitMs s.params.pollIntervalMs, .sample .scl (sample .scl (waitMs s.params.pollIntervalMs s)).1], ?_, by
      simp [Drv.after]⟩
    simp only [h]; rfl
  | delayed => exact ⟨[.waitMs s.params.burstDelayMs], rfl, rfl⟩
  | timedOut =>
    refine ⟨if s.handle.warn then [.diag .waitTimeout .scl] else [], ?_, ?_⟩ <;>
      (unfold timeOut warn; cases h : s.handle.warn <;> simp [h, record, emit, Drv.after])
  | gaveUp =>
    refine ⟨if s.handle.warn then [.diag .resetGiveup .sda] else [], ?_, ?_⟩ <;>
      (unfold warn; cases h : s.handle.warn <;> simp [h, record, emit, Drv.after])
  | regsSet => exact ⟨[], rfl, rfl⟩

theorem record_trans (es fs : List Event) (log : List Out) : record fs (record es log) = record (es ++ fs) log := by
  simp [record]

theorem Acts.log {s t : State} (h : Acts s t) : ∃ es, t.log = record es s.log ∧ t.drv = es.foldl Drv.after s.drv := by
  induction h with
  | nil => exact ⟨[], rfl, rfl⟩
  | snoc _ a ih =>
    obtain ⟨es, h1, h2⟩ := ih
    obtain ⟨fs, k1, k2⟩ := a.log
    exact ⟨es ++ fs, by rw [k1, h1, record_trans], by rw [k2, h2, List.foldl_append]⟩

end Sys2Proof.Machine
end

