-- ==== Sys2Proof/Laws/Blind.lean ====
section
/-! SUPPORT. Changes of state that no sequence looks at: if `g` leaves alone what the primitives read and commutes with what they
write, it commutes with every sequence, and every level sampled is the same. -/

namespace Sys2Proof.Machine

/-- `g` changes nothing a line primitive reads, and commutes with everything one writes. -/
structure Blind (g : State → State) : Prop where
  params : ∀ s, (g s).params = s.params
  T : ∀ s, (g s).T = s.T
  drv : ∀ s, (g s).drv = s.drv
  env : ∀ s, (g s).env = s.env
  regs : ∀ s, (g s).regs = s.regs
  sfAcc : ∀ s, (g s).sfAcc = s.sfAcc
  emit : ∀ e s, isDiag (.ev e) = false → emit e (g s) = g (emit e s)
  warn : ∀ c l s, warn c l (g s) = g (warn c l s)
  setDrv : ∀ l b s, setDrv l b (g s) = g (setDrv l b s)
  setEnv : ∀ e s, setEnv e (g s) = g (setEnv e s)
  setRegs : ∀ r s, setRegs r (g s) = g (setRegs r s)
  setSfAcc : ∀ f s, setSfAcc f (g s) = g (setSfAcc f s)

namespace Blind

variable {g : State → State} (hg : Blind g)

include hg

theorem sample (l : Line) (s : State) : Machine.sample l (g s) = ((Machine.sample l s).1, g (Machine.sample l s).2) := by
  by_cases h : s.drv.get l
  · simp only [Machine.sample, hg.drv, hg.env, h, hg.setEnv, if_true, hg.emit (.sample l false) _ rfl]
  · simp only [Machine.sample, hg.drv, hg.env, h, hg.setEnv, if_false, Bool.false_eq_true, hg.emit (.sample l (s.env.answer l)) _ rfl]

theorem waitHalf (s : State) : Machine.waitHalf (g s) = g (Machine.waitHalf s) := by
  simp only [Machine.waitHalf, hg.T, hg.emit (.waitUs s.T) _ rfl]

theorem waitMs (t : Nat) (s : State) : Machine.waitMs t (g s) = g (Machine.waitMs t s) := by
  exact hg.emit _ _ rfl

theorem drive (l : Line) (s : State) : Machine.drive l (g s) = g (Machine.drive l s) := by
  simp only [Machine.drive, hg.setDrv, hg.emit (.drive l) _ rfl]

theorem float (l : Line) (s : State) : Machine.float l (g s) = g (Machine.float l s) := by
  simp only [Machine.float, hg.setDrv, hg.emit (.release l) _ rfl]

theorem pullup (l : Line) (s : State) : Machine.pullup l (g s) = g (Machine.pullup l s) := by
  exact hg.emit _ _ rfl

theorem pull (l : Line) (s : State) : Machine.pull l (g s) = g (Machine.pull l s) := by
  simp [Machine.pull, hg.drive, hg.waitHalf]

theorem release (l : Line) (s : State) :
    Machine.release l (g s) = ((Machine.release l s).1, g (Machine.release l s).2) := by
  simp [Machine.release, hg.float, hg.waitHalf, hg.sample]

theorem setPollCnt (n : Nat) (s : State) : Machine.setPollCnt n (g s) = g (Machine.setPollCnt n s) := by
  simp [Machine.setPollCnt, hg.regs, hg.setRegs]

theorem poll (l : Line) (s : State) : Machine.poll l (g s) = ((Machine.poll l s).1, g (Machine.poll l s).2) := by
  simp [Machine.poll, hg.params, hg.waitMs, hg.sample, hg.regs, hg.setPollCnt]

theorem pollLoop (n : Nat) (l : Line) (v : Level) (s : State) :
    Machine.pollLoop n l (v, g s) = ((Machine.pollLoop n l (v, s)).1, g (Machine.pollLoop n l (v, s)).2) := by
  induction n generalizing v s with
  | zero => rfl
  | succ n ih =>
    simp only [Machine.pollLoop, hg.regs, hg.params, hg.poll]
    split
    · rw [ih]
    · rfl

theorem timeOut (l : Line) (s : State) : Machine.timeOut l (g s) = g (Machine.timeOut l s) := by
  simp [Machine.timeOut, hg.sfAcc, hg.setSfAcc, hg.warn]

theorem relwait (l : Line) (s : State) : Machine.relwait l (g s) = ((Machine.relwait l s).1, g (Machine.relwait l s).2) := by
  simp only [Machine.relwait, hg.release, hg.params, hg.setPollCnt, hg.pollLoop, hg.timeOut]
  split_ifs <;> rfl

theorem presentBit (b : Level) (s : State) : Machine.presentBit b (g s) = g (Machine.presentBit b s) := by
  cases b <;> simp [Machine.presentBit, hg.release, hg.pull]

theorem endBit (s : State) : Machine.endBit (g s) = g (Machine.endBit s) := by simp [Machine.endBit, hg.pull]

theorem sendBitSeq (x : Byte) (s : State) : Machine.sendBitSeq x (g s) = g (Machine.sendBitSeq x s) := by
  simp [Machine.sendBitSeq, hg.presentBit, hg.relwait, hg.endBit]

theorem readBitSeq (s : State) : Machine.readBitSeq (g s) = ((Machine.readBitSeq s).1, g (Machine.readBitSeq s).2) := by
  simp [Machine.readBitSeq, hg.release, hg.relwait, hg.sample, hg.endBit]

theorem sendBits (n : Nat) (s : State) : Machine.sendBits n (g s) = g (Machine.sendBits n s) := by
  induction n generalizing s with
  | zero => rfl
  | succ n ih => simp [Machine.sendBits, shiftShr, hg.regs, hg.sendBitSeq, hg.setRegs, ih]

theorem readBits (n : Nat) (s : State) : Machine.readBits n (g s) = g (Machine.readBits n s) := by
  induction n generalizing s with
  | zero => rfl
  | succ n ih => simp [Machine.readBits, shiftAcc, hg.regs, hg.readBitSeq, hg.setRegs, ih]

theorem sendByteSeq (x : Byte) (s : State) :
    Machine.sendByteSeq x (g s) = ((Machine.sendByteSeq x s).1, g (Machine.sendByteSeq x s).2) := by
  simp [Machine.sendByteSeq, loadShr, hg.regs, hg.setRegs, hg.sendBits, hg.readBitSeq]

theorem readByteSeq (s : State) : Machine.readByteSeq (g s) = ((Machine.readByteSeq s).1, g (Machine.readByteSeq s).2) := by
  simp [Machine.readByteSeq, clearAcc, hg.regs, hg.setRegs, hg.readBits]

theorem pulses (n : Nat) (s : State) : Machine.pulses n (g s) = g (Machine.pulses n s) := by
  induction n generalizing s with
  | zero => rfl
  | succ n ih => simp [Machine.pulses, pulse, setPulseCnt, hg.pull, hg.release, hg.regs, hg.setRegs, ih]

theorem burst (s : State) : Machine.burst (g s) = ((Machine.burst s).1, g (Machine.burst s).2) := by
  simp [Machine.burst, setPulseCnt, hg.regs, hg.setRegs, hg.params, hg.pulses, hg.sample]

theorem burstLoop (n : Nat) (s : State) :
    Machine.burstLoop n (g s) = ((Machine.burstLoop n s).1, g (Machine.burstLoop n s).2) := by
  induction n generalizing s with
  | zero => rfl
  | succ n ih =>
    simp only [Machine.burstLoop, hg.burst, setBurstCnt, hg.regs, hg.setRegs, hg.params, hg.waitMs, ih,
      setRegs_regs, setRegs_params]
    cases h1 : (Machine.burst s).1
    · simp only [Bool.false_eq_true, if_false]
      by_cases hm : (Machine.burst s).2.regs.burstCnt + 1 = (Machine.burst s).2.params.burstMax <;> simp [hm]
    · simp

theorem stopLines (s : State) : Machine.stopLines (g s) = ((Machine.stopLines s).1, g (Machine.stopLines s).2) := by
  simp [Machine.stopLines, hg.relwait, hg.release]

theorem recoverLines (s : State) : Machine.recoverLines (g s) = ((Machine.recoverLines s).1, g (Machine.recoverLines s).2) := by
  simp [Machine.recoverLines, hg.pull, hg.stopLines]

/-- RESET_SEQ once through, where `g` may say nothing about `XFER`. -/
theorem resetRound (hx : ∀ b s, setXfer b (g s) = g (setXfer b s)) (s : State) :
    Machine.resetRound (g s) = ((Machine.resetRound s).1, g (Machine.resetRound s).2) := by
  simp only [Machine.resetRound, hg.release, setBurstCnt, hg.regs, hg.setRegs, hg.params, hg.burstLoop, hg.recoverLines, giveUp,
    hg.sfAcc, hg.setSfAcc, hg.warn, hx]
  split
  · split <;> simp_all
  · simp_all

theorem startTail (hx : ∀ b s, setXfer b (g s) = g (setXfer b s)) (s : State) :
    Machine.startTail (g s) = g (Machine.startTail s) := by
  simp [Machine.startTail, hg.relwait, hg.pull, hx]

end Blind

/-- The ghost flag is read by nothing (10_state.md R30). -/
theorem blind_setXfer (b : Bool) : Blind (setXfer b) := by
  constructor <;> intros <;> first | rfl | (unfold Machine.warn; split <;> simp_all [setXfer, emit])

/-- The configuration inputs are read by no sequence (10_state.md R42). -/
theorem blind_cfg (c : Handle) : Blind (fun s => { s with cfg := c }) := by
  constructor <;> intros <;> first | rfl | (unfold Machine.warn; split <;> simp_all [emit])

/-- The reset input is read by no sequence. -/
theorem blind_rstIn (k : Option Nat) : Blind (fun s => { s with rstIn := k }) := by
  constructor <;> intros <;> first | rfl | (unfold Machine.warn; split <;> simp_all [emit])

/-- A state with `WARN` 0 and the diagnostics taken out of its record. -/
def eraseDiags (s : State) : State :=
  { s with handle := { s.handle with warn := false }, log := withoutDiags s.log }

/-- `WARN` gates the diagnostics and nothing else (10_state.md R25). -/
theorem blind_eraseDiags : Blind eraseDiags := by
  constructor
  case emit => intro e s h; simp [eraseDiags, emit, withoutDiags, h]
  case warn =>
    intro c l s
    cases h : s.handle.warn <;> simp [Machine.warn, h, eraseDiags, Machine.emit, withoutDiags, isDiag]
  all_goals intros; rfl

/-- START_SEQ after its check ignores what the transfer state was. -/
theorem startTail_setXfer (b : Bool) (s : State) : startTail (setXfer b s) = startTail s := by
  simp only [startTail, (blind_setXfer b).relwait, (blind_setXfer b).pull]; rfl

end Sys2Proof.Machine
end

