-- ==== Sys2Proof/Laws/Exec.lean ====
section
/-! SUPPORT. Say once what a command, a resumption and a step can do: the inversion lemmas of `runReset`, `exec` and `step` on every
environment. -/

namespace Sys2Proof.Machine

/-! ### SFACC along the transfers -/

@[simp] theorem sample_sfAcc (l : Line) (s : State) : (sample l s).2.sfAcc = s.sfAcc := by
  obtain ⟨e, h⟩ := sample_snd l s; simp [h]

@[simp] theorem release_sfAcc (l : Line) (s : State) : (release l s).2.sfAcc = s.sfAcc := by
  simp [release, waitHalf, float]

@[simp] theorem pull_sfAcc (l : Line) (s : State) : (pull l s).sfAcc = s.sfAcc := rfl

@[simp] theorem pollLoop_sfAcc (n : Nat) (l : Line) (r : Level × State) : (pollLoop n l r).2.sfAcc = r.2.sfAcc := by
  induction n generalizing r with
  | zero => rfl
  | succ n ih => simp only [pollLoop]; split <;> simp [ih, poll, setPollCnt, waitMs]

@[simp] theorem warn_sfAcc (c : DiagCode) (l : Line) (s : State) : (warn c l s).sfAcc = s.sfAcc := by
  unfold warn; split <;> rfl

/-- `SFACC` after a RELWAIT: `TMO` is set exactly when the line did not rise (40_line_primitives.md R93). -/
theorem relwait_sfAcc (l : Line) (s : State) :
    (relwait l s).2.sfAcc = if (relwait l s).1 then s.sfAcc else setTmo s.sfAcc := by
  have h : ∀ w : Level × State, w.2.sfAcc = s.sfAcc →
      (if w.1 then w.2 else timeOut l w.2).sfAcc = if w.1 then s.sfAcc else setTmo s.sfAcc := by
    rintro ⟨v, t⟩ h
    cases v
    · simpa [timeOut] using congrArg setTmo h
    · simpa using h
  exact h _ (by simp [setPollCnt])

theorem setTmo_rst (f : BitVec 2) : setTmo f &&& 0b10 = f &&& 0b10 := by revert f; decide

theorem relwait_rst (l : Line) (s : State) : (relwait l s).2.sfAcc &&& 0b10 = s.sfAcc &&& 0b10 := by
  rw [relwait_sfAcc]; split
  · rfl
  · exact setTmo_rst _

theorem sendBitSeq_rst (x : Byte) (s : State) : (sendBitSeq x s).sfAcc &&& 0b10 = s.sfAcc &&& 0b10 := by
  simp only [sendBitSeq, endBit, pull_sfAcc, relwait_rst, presentBit]
  split <;> simp

theorem readBitSeq_rst (s : State) : (readBitSeq s).2.sfAcc &&& 0b10 = s.sfAcc &&& 0b10 := by
  simp only [readBitSeq, endBit, pull_sfAcc, sample_sfAcc, relwait_rst, release_sfAcc]

theorem sendBits_rst (n : Nat) (s : State) : (sendBits n s).sfAcc &&& 0b10 = s.sfAcc &&& 0b10 := by
  induction n generalizing s with
  | zero => rfl
  | succ n ih => rw [sendBits, ih]; exact sendBitSeq_rst _ _

theorem readBits_rst (n : Nat) (s : State) : (readBits n s).sfAcc &&& 0b10 = s.sfAcc &&& 0b10 := by
  induction n generalizing s with
  | zero => rfl
  | succ n ih => rw [readBits, ih]; exact readBitSeq_rst _

/-! ### The lines at the end of the sequences -/

@[simp] theorem endBit_drv (s : State) : (endBit s).drv = .low := by simp [endBit, Drv.set, Drv.low]

theorem readBits_drv (n : Nat) (s : State) : (readBits (n + 1) s).drv = .low := by
  induction n generalizing s with
  | zero => exact endBit_drv _
  | succ n ih => exact ih (shiftAcc (readBitSeq s).1 (readBitSeq s).2)

theorem recoverLines_drv (s : State) : (recoverLines s).2.drv = .released := stopLines_drv _

theorem burstLoop_scl (n : Nat) (s : State) (hn : 1 ≤ n) (h : 1 ≤ s.params.burstPulses) : (burstLoop n s).2.drv.scl = false := by
  induction n generalizing s with
  | zero => omega
  | succ n ih =>
    have hb := burst_scl s h
    have hp : (burst s).2.params = s.params := by
      obtain ⟨e, h⟩ := sample_snd .sda (pulses s.params.burstPulses (setPulseCnt 0 s))
      have := (pulses_acts s.params.burstPulses (setPulseCnt 0 s)).onlyLines
      unfold OnlyLines at this
      simp only [burst, h, emit_params, setEnv_params]
      rw [this]; rfl
    simp only [burstLoop]
    split
    · exact hb
    · split
      · exact hb
      · cases n with
        | zero => exact hb
        | succ m => exact ih _ (by omega) (by simpa [waitMs, setBurstCnt, hp] using h)

theorem Acts.params {s t : State} (h : Acts s t) : t.params = s.params := by
  have := h.onlyLines; unfold OnlyLines at this; rw [this]

theorem Acts.T {s t : State} (h : Acts s t) : t.T = s.T := by
  have := h.onlyLines; unfold OnlyLines at this; rw [this]; rfl

/-- A failed rise is the last thing the record shows (44_sequence_control.md R122). -/
theorem stopLines_log (s : State) (h : (stopLines s).1 = false) :
    ∃ r, (stopLines s).2.log = .ev (.sample .sda false) :: .ev (.waitUs s.T) :: .ev (.release .sda) :: r := by
  refine ⟨(relwait .scl s).2.log, ?_⟩
  obtain ⟨e, he⟩ := sample_snd .sda (waitHalf (float .sda (relwait .scl s).2))
  have h' : (sample .sda (waitHalf (float .sda (relwait .scl s).2))).1 = false := h
  rw [← (relwait_acts s).T]
  simp only [stopLines, release]
  rw [he, h']; rfl

theorem recoverLines_log (s : State) (h : (recoverLines s).1 = false) :
    ∃ r, (recoverLines s).2.log = .ev (.sample .sda false) :: .ev (.waitUs s.T) :: .ev (.release .sda) :: r :=
  stopLines_log (pull .sda (pull .scl s)) h

/-! ### RESET_SEQ and what follows it -/

/-- What `runReset` can do (44_sequence_control.md R124, R126): the command ends with its lines as its kind says, or its last STOP_SEQ
saw SDA fail to rise and the command goes on. -/
theorem runReset_cases (ret : Pending) (s : State) (hm : 1 ≤ s.params.burstMax) (hp : 1 ≤ s.params.burstPulses) :
    ∃ u, Acts s u ∧
      ((runReset ret s = complete 0 (setXfer (decide (ret = .toStart)) u) ∧
          u.drv = if ret = .toStart then .low else .released) ∨
        (runReset ret s = setSeq (.resetNext ret) u ∧ u.drv = .released ∧
          ∃ r, u.log = .ev (.sample .sda false) :: .ev (.waitUs s.T) :: .ev (.release .sda) :: r)) := by
  have h0 : Acts s (burstLoop s.params.burstMax (setBurstCnt 0 (release .sda s).2)).2 :=
    ((Acts.one (.released ..)).snoc (.regsSet _ _)).trans (burstLoop_acts _ _ (by simp))
  -- the pass is over in the line-activity state `t`
  have ended : ∀ t, Acts s t → t.drv = .released → resetRound s = (true, setXfer false t) →
      ∃ u, Acts s u ∧ (runReset ret s = complete 0 (setXfer (decide (ret = .toStart)) u) ∧
          u.drv = if ret = .toStart then .low else .released) := by
    intro t ht hd hr
    cases ret with
    | nothing => exact ⟨t, ht, by simp [runReset, hr, finish], by simpa using hd⟩
    | toStart =>
      refine ⟨pull .scl (pull .sda (relwait .scl t).2), ((ht.trans (relwait_acts t)).snoc (.pulled ..)).snoc (.pulled ..), ?_, ?_⟩
      · simp only [runReset, hr, finish, startTail_setXfer]; rfl
      · simp [Drv.set, Drv.low]
  by_cases hb : (burstLoop s.params.burstMax (setBurstCnt 0 (release .sda s).2)).1 = true
  · have h1 := h0.trans (recoverLines_acts _)
    by_cases hv : (recoverLines (burstLoop s.params.burstMax (setBurstCnt 0 (release .sda s).2)).2).1 = true
    · obtain ⟨u, hu, h⟩ := ended _ h1 (recoverLines_drv _) (by simp [resetRound, hb, hv])
      exact ⟨u, hu, .inl h⟩
    · refine ⟨_, h1, .inr ⟨by simp [runReset, resetRound, hb, hv], recoverLines_drv _, ?_⟩⟩
      obtain ⟨r, h⟩ := recoverLines_log _ (by simpa using hv)
      exact ⟨r, by rw [h, h0.T]⟩
  · have hs : (burstLoop s.params.burstMax (setBurstCnt 0 (release .sda s).2)).2.drv = .released := by
      have h1 : (setBurstCnt 0 (release .sda s).2).params = s.params :=
        Acts.params ((Acts.one (.released .sda s)).snoc (.regsSet { (release .sda s).2.regs with burstCnt := 0 } (release .sda s).2))
      have h2 := burstLoop_scl s.params.burstMax (setBurstCnt 0 (release .sda s).2) hm (by rw [h1]; exact hp)
      have h3 := burstLoop_sda s.params.burstMax (setBurstCnt 0 (release .sda s).2)
      have h4 : (setBurstCnt 0 (release .sda s).2).drv.sda = false := by simp [setBurstCnt]
      rw [h4] at h3
      cases hd : (burstLoop s.params.burstMax (setBurstCnt 0 (release .sda s).2)).2.drv
      rw [hd] at h2 h3; simp_all [Drv.released]
    obtain ⟨u, hu, h⟩ := ended _ (h0.snoc (.gaveUp _)) (by simpa using hs) (by simp [resetRound, hb, giveUp])
    exact ⟨u, hu, .inl h⟩

/-! ### Commands -/

/-- The commands that transfer bits. -/
def Instr.IsTransfer (i : Instr) : Prop := i = .readBit ∨ i = .readByte ∨ ∃ x, i = .sendBit x ∨ i = .sendByte x

/-- What an accepted transfer does: line activity that ends with both lines low and never sets `RST`, then its response. -/
theorem exec_transfer (i : Instr) (hi : Instr.IsTransfer i) (s : State) (ho : s.opened = true) :
    ∃ u val, Acts (accept s) u ∧ u.drv = .low ∧ u.sfAcc &&& 0b10 = 0 ∧ exec i s = .next (complete val u) := by
  have h0 : (accept s).sfAcc &&& 0b10 = 0 := by simp
  obtain rfl | rfl | ⟨x, rfl | rfl⟩ := hi
  · exact ⟨_, _, readBitSeq_acts _, endBit_drv _, by rw [readBitSeq_rst, h0], by simp [exec, execReadBit, ho]; rfl⟩
  · refine ⟨_, _, readByteSeq_acts _, ?_, ?_, by simp [exec, execReadByte, ho]; rfl⟩
    · rw [readByteSeq]; exact readBits_drv 7 _
    · rw [readByteSeq]; simp only [readBits_rst]; exact h0
  · exact ⟨_, _, sendBitSeq_acts x _, endBit_drv _, by rw [sendBitSeq_rst, h0], by simp [exec, execSendBit, ho]; rfl⟩
  · refine ⟨_, _, sendByteSeq_acts x _, ?_, ?_, by simp [exec, execSendByte, ho]; rfl⟩
    · rw [sendByteSeq]; exact endBit_drv _
    · rw [sendByteSeq, readBitSeq_rst, sendBits_rst]; exact h0

/-- The commands that make conditions and recover the bus. -/
def Instr.IsSequence (i : Instr) : Prop := i = .start ∨ i = .stop ∨ i = .reset

/-- What is still to come after the resets: the tail of a `START`, or nothing (44_sequence_control.md R126). -/
def pendingOf (isStart : Bool) : Pending := if isStart then .toStart else .nothing

@[simp] theorem pendingOf_decide (ret : Pending) : pendingOf (decide (ret = .toStart)) = ret := by cases ret <;> rfl

/-- How a sequence that began in `b` can stand after its step: ended, or in progress after a failed rise. -/
def SequenceOutcome (isStart : Bool) (b t : State) : Prop :=
  ∃ u, Acts b u ∧
    ((t = complete 0 (setXfer isStart u) ∧ u.drv = if isStart then .low else .released) ∨
      (t = setSeq (.resetNext (pendingOf isStart)) u ∧ u.drv = .released ∧
        ∃ r, u.log = .ev (.sample .sda false) :: .ev (.waitUs b.T) :: .ev (.release .sda) :: r))

theorem runReset_outcome (ret : Pending) (b s : State) (hb : Acts b s) (hm : 1 ≤ s.params.burstMax)
    (hp : 1 ≤ s.params.burstPulses) : SequenceOutcome (decide (ret = .toStart)) b (runReset ret s) := by
  obtain ⟨u, hu, ⟨h, hd⟩ | ⟨h, hd, r, hr⟩⟩ := runReset_cases ret s hm hp
  · exact ⟨u, hb.trans hu, .inl ⟨h, by simpa using hd⟩⟩
  · exact ⟨u, hb.trans hu, .inr ⟨by rw [pendingOf_decide, h], hd, r, by rw [hr, hb.T]⟩⟩

/-- What an accepted START, STOP or RESET does. -/
theorem exec_sequence (i : Instr) (hi : Instr.IsSequence i) (s : State) (hw : s.params.wellFormed = true) (ho : s.opened = true) :
    ∃ t, exec i s = .next t ∧ SequenceOutcome (decide (i = .start)) (accept s) t := by
  have hm : 1 ≤ s.params.burstMax := by simp [Params.wellFormed] at hw; omega
  have hp : 1 ≤ s.params.burstPulses := by simp [Params.wellFormed] at hw; omega
  have hm' : ∀ t, Acts (accept s) t → 1 ≤ t.params.burstMax := fun t h => by rw [h.params]; exact hm
  have hp' : ∀ t, Acts (accept s) t → 1 ≤ t.params.burstPulses := fun t h => by rw [h.params]; exact hp
  obtain rfl | rfl | rfl := hi
  · refine ⟨_, by simp [exec, execStart, ho]; rfl, ?_⟩
    have h1 : Acts (accept s) (release .sda (accept s)).2 := .one (.released ..)
    by_cases h : (release .sda (accept s)).1 = true
    · refine ⟨pull .scl (pull .sda (relwait .scl (release .sda (accept s)).2).2),
        ((h1.trans (relwait_acts _)).snoc (.pulled ..)).snoc (.pulled ..), .inl ⟨?_, ?_⟩⟩
      · simp [startSeq, h, finish, startTail]
      · simp [Drv.set, Drv.low]
    · simpa [startSeq, h] using runReset_outcome .toStart _ _ h1 (hm' _ h1) (hp' _ h1)
  · refine ⟨_, by simp [exec, execStop, ho]; rfl, ?_⟩
    have h1 : Acts (accept s) (stopLines (accept s)).2 := stopLines_acts _
    by_cases h : (stopLines (accept s)).1 = true
    · exact ⟨_, h1, .inl ⟨by simp [stopSeq, h], by simp⟩⟩
    · simpa [stopSeq, h] using runReset_outcome .nothing _ _ h1 (hm' _ h1) (hp' _ h1)
  · refine ⟨_, by simp [exec, execReset, ho]; rfl, ?_⟩
    exact runReset_outcome .nothing _ _ (.nil _) (hm' _ (.nil _)) (hp' _ (.nil _))

/-- What an accepted OPEN does. -/
theorem exec_open (s : State) (hw : s.params.wellFormed = true) (ha : s.openOperands.acceptable = true) :
    ∃ t, exec .openBus s = .next t ∧ SequenceOutcome false (openLines (accept (construct s.openOperands s))) t := by
  refine ⟨_, by simp [exec, execOpen, ha]; rfl, ?_⟩
  simp [Params.wellFormed] at hw
  exact runReset_outcome .nothing _ _ (.nil _) (by show 1 ≤ s.params.burstMax; omega) (by show 1 ≤ s.params.burstPulses; omega)

/-- A command is refused for want of a handle (60_exceptions.md R131). -/
theorem exec_notOpen (i : Instr) (hi : i ≠ .openBus) (s : State) (ho : s.opened = false) : exec i s = .next (reject .notOpen s) := by
  cases i <;>
    first
    | exact absurd rfl hi
    | simp [exec, execStart, execStop, execReset, execSendBit, execReadBit, execSendByte, execReadByte, ho]

/-- An OPEN is refused for its configuration (60_exceptions.md R132). -/
theorem exec_badConfig (s : State) (ha : s.openOperands.acceptable = false) :
    exec .openBus s = .next (reject .configError s) := by
  simp [exec, execOpen, ha]

/-- Every command is one of these. -/
theorem Instr.kinds (i : Instr) : i = .openBus ∨ Instr.IsTransfer i ∨ Instr.IsSequence i := by
  cases i <;> simp [Instr.IsTransfer, Instr.IsSequence]

/-- THE INVERSION LEMMA OF `exec`: rejected, or a transfer that ended, or a sequence that ended or goes on. -/
theorem exec_cases (i : Instr) (s t : State) (hw : s.params.wellFormed = true) (h : exec i s = .next t) :
    (∃ e, t = reject e s) ∨
    (Instr.IsTransfer i ∧ s.opened = true ∧ ∃ u val, Acts (accept s) u ∧ u.drv = .low ∧ u.sfAcc &&& 0b10 = 0 ∧ t = complete val u) ∨
    (Instr.IsSequence i ∧ s.opened = true ∧ SequenceOutcome (decide (i = .start)) (accept s) t) ∨
    (i = .openBus ∧ s.openOperands.acceptable = true ∧
      SequenceOutcome false (openLines (accept (construct s.openOperands s))) t) := by
  obtain rfl | hi | hi := Instr.kinds i
  · by_cases ha : s.openOperands.acceptable = true
    · obtain ⟨t', h1, h2⟩ := exec_open s hw ha
      obtain rfl : t' = t := by rw [h1] at h; injection h
      exact .inr (.inr (.inr ⟨rfl, ha, h2⟩))
    · rw [exec_badConfig s (by simpa using ha)] at h; injection h with h
      exact .inl ⟨_, h.symm⟩
  · by_cases ho : s.opened = true
    · obtain ⟨u, val, h1, h2, h3, h4⟩ := exec_transfer i hi s ho
      obtain rfl : complete val u = t := by rw [h4] at h; injection h
      exact .inr (.inl ⟨hi, ho, u, val, h1, h2, h3, rfl⟩)
    · rw [exec_notOpen i (by rintro rfl; simp [Instr.IsTransfer] at hi) s (by simpa using ho)] at h; injection h with h
      exact .inl ⟨_, h.symm⟩
  · by_cases ho : s.opened = true
    · obtain ⟨t', h1, h2⟩ := exec_sequence i hi s hw ho
      obtain rfl : t' = t := by rw [h1] at h; injection h
      exact .inr (.inr (.inl ⟨hi, ho, h2⟩))
    · rw [exec_notOpen i (by rintro rfl; simp [Instr.IsSequence] at hi) s (by simpa using ho)] at h; injection h with h
      exact .inl ⟨_, h.symm⟩

end Sys2Proof.Machine
end

