-- ==== Sys2Proof/Laws/Step.lean ====
section
/-! SUPPORT. Say once what a step can do: the inversion lemmas of `stepPort` and `step`, and what a whole command does to the fields
of State, on every environment. -/

namespace Sys2Proof.Machine

/-- THE INVERSION LEMMA OF `stepPort` (10_state.md R40): a command goes on, nothing happens, or the presented word is taken. -/
theorem stepPort_cases {s t : State} (h : stepPort s = .next t) :
    (s.busy = true ∧ ∃ ret, s.seq = .resetNext ret ∧ t = runReset ret s) ∨
    (s.busy = false ∧ s.cmds = [] ∧ t = s) ∨
    (s.busy = false ∧ ∃ w ws, s.cmds = w :: ws ∧
      ((decode w = none ∧ t = reject .illegalCommand { s with cmds := ws }) ∨
        ∃ i, decode w = some i ∧ exec i { s with cmds := ws } = .next t)) := by
  cases hb : s.busy
  · right
    simp only [stepPort, hb, Bool.false_eq_true, if_false, fetchWord] at h
    cases hc : s.cmds with
    | nil => rw [hc] at h; injection h with h; exact .inl ⟨rfl, rfl, h.symm⟩
    | cons w ws =>
      rw [hc] at h
      refine .inr ⟨rfl, w, ws, rfl, ?_⟩
      simp only [takeWord] at h
      cases hd : decode w with
      | none => rw [hd] at h; injection h with h; exact .inl ⟨rfl, h.symm⟩
      | some i => rw [hd] at h; exact .inr ⟨i, rfl, h⟩
  · left
    simp only [stepPort, hb, if_true, resume] at h
    cases hq : s.seq with
    | rest => rw [hq] at h; cases h
    | inCommand => rw [hq] at h; cases h
    | resetNext ret => rw [hq] at h; injection h with h; exact ⟨rfl, ret, rfl, h.symm⟩

theorem stepPort_resume {s : State} {ret : Pending} (hb : s.busy = true) (hq : s.seq = .resetNext ret) :
    stepPort s = .next (runReset ret s) := by
  simp only [stepPort, hb, if_true, resume, hq]

theorem stepPort_idle {s : State} (hb : s.busy = false) (hc : s.cmds = []) : stepPort s = .next s := by
  simp only [stepPort, hb, Bool.false_eq_true, if_false, fetchWord, hc]

theorem stepPort_reserved {s : State} {w : CmdWord} {ws : List CmdWord} (hb : s.busy = false) (hc : s.cmds = w :: ws)
    (hd : decode w = none) : stepPort s = .next (reject .illegalCommand { s with cmds := ws }) := by
  simp only [stepPort, hb, Bool.false_eq_true, if_false, fetchWord, hc, takeWord, hd]

theorem stepPort_taken {s : State} {w : CmdWord} {ws : List CmdWord} {i : Instr} (hb : s.busy = false) (hc : s.cmds = w :: ws)
    (hd : decode w = some i) : stepPort s = exec i { s with cmds := ws } := by
  rw [stepPort, if_neg (by simp [hb])]
  simp only [fetchWord, hc, takeWord, hd]

/-- THE INVERSION LEMMA OF `step` (70_reset_and_hazards.md R160). -/
theorem step_cases {s t : State} (h : step s = .next t) :
    s.params.wellFormed = true ∧
    ((s.rstIn = none ∧ stepPort s = .next t) ∨
      (s.rstIn = some 0 ∧ t = powerOn s) ∨
      ∃ k u, s.rstIn = some (k + 1) ∧ stepPort s = .next u ∧
        ((entriesSince s u ≤ k + 1 ∧ t = { u with rstIn := some (k + 1 - entriesSince s u) }) ∨
          (k + 1 < entriesSince s u ∧ t = abandon ((eventsSince s u).take (k + 1)) s))) := by
  cases hw : s.params.wellFormed
  · simp [step, hw] at h
  refine ⟨rfl, ?_⟩
  simp only [step, hw, if_true, stepReset] at h
  cases hr : s.rstIn with
  | none => rw [hr] at h; exact .inl ⟨rfl, h⟩
  | some k =>
    cases k with
    | zero => rw [hr] at h; injection h with h; exact .inr (.inl ⟨rfl, h.symm⟩)
    | succ k =>
      rw [hr] at h
      refine .inr (.inr ⟨k, ?_⟩)
      cases hp : stepPort s with
      | next u =>
        simp only [hp] at h
        refine ⟨u, rfl, rfl, ?_⟩
        by_cases hl : entriesSince s u ≤ k + 1
        · simp only [hl, if_true] at h; injection h with h; exact .inl ⟨hl, h.symm⟩
        · simp only [hl, if_false] at h; injection h with h; exact .inr ⟨by omega, h.symm⟩
      | fault f => simp only [hp] at h; cases h
      | refused f => simp only [hp] at h; cases h

/-- A step of a legal instance with no reset coming is the step of the command port. -/
theorem step_eq_stepPort {s : State} (hw : s.params.wellFormed = true) (hr : s.rstIn = none) : step s = stepPort s := by
  simp [step, hw, stepReset, hr]

/-- A step of a legal instance with no reset coming that finds a command in progress goes on with its RESET_SEQ. -/
theorem step_resume {s : State} {ret : Pending} (hw : s.params.wellFormed = true) (hr : s.rstIn = none) (hb : s.busy = true)
    (hq : s.seq = .resetNext ret) : step s = .next (runReset ret s) :=
  (step_eq_stepPort hw hr).trans (stepPort_resume hb hq)

/-! ### The events of a record -/

theorem eventsOf_record (es : List Event) (log : List Out) : eventsOf (record es log) = eventsOf log ++ es := by
  induction es generalizing log with
  | nil => simp [record]
  | cons e es ih =>
    have h : record (e :: es) log = record es (.ev e :: log) := by simp [record]
    rw [h, ih]; simp [eventsOf]

/-- What has been emitted since `s`, when the record shows it, whether or not a response followed. -/
theorem eventsSince_record {s t : State} {es : List Event} (h : t.log = record es s.log) : eventsSince s t = es := by
  simp [eventsSince, State.trace, h, eventsOf_record]

theorem eventsSince_rsp {s t : State} {es : List Event} {w : RspWord} (h : t.log = .rsp w :: record es s.log) :
    eventsSince s t = es := by
  simp [eventsSince, State.trace, h, eventsOf, eventsOf_record]

theorem responses_record (es : List Event) (log : List Out) : responses (record es log) = responses log := by
  induction es generalizing log with
  | nil => simp [record]
  | cons e es ih =>
    have h : record (e :: es) log = record es (.ev e :: log) := by simp [record]
    rw [h, ih]; rfl

/-! ### What a sequence leaves alone -/

/-- What a sequence that began in `b` leaves as it was, whether it has ended or goes on. -/
structure Untouched (b t : State) : Prop where
  handle : t.handle = b.handle
  opened : t.opened = b.opened
  params : t.params = b.params
  cfg : t.cfg = b.cfg
  cmds : t.cmds = b.cmds
  rstIn : t.rstIn = b.rstIn

theorem Acts.untouched {s t : State} (h : Acts s t) : Untouched s t := by
  have := h.onlyLines; unfold OnlyLines at this
  constructor <;> (rw [this])

theorem SequenceOutcome.untouched {isStart : Bool} {b t : State} (h : SequenceOutcome isStart b t) : Untouched b t := by
  obtain ⟨u, hu, ⟨rfl, -⟩ | ⟨rfl, -, -⟩⟩ := h
  · exact ⟨hu.untouched.handle, hu.untouched.opened, hu.untouched.params, hu.untouched.cfg, hu.untouched.cmds, hu.untouched.rstIn⟩
  · exact ⟨hu.untouched.handle, hu.untouched.opened, hu.untouched.params, hu.untouched.cfg, hu.untouched.cmds, hu.untouched.rstIn⟩

theorem Untouched.trans {a b c : State} (h : Untouched a b) (k : Untouched b c) : Untouched a c :=
  ⟨k.handle.trans h.handle, k.opened.trans h.opened, k.params.trans h.params, k.cfg.trans h.cfg, k.cmds.trans h.cmds,
    k.rstIn.trans h.rstIn⟩

/-- The same of `runReset` for every instance, legal or not. -/
theorem runReset_untouched (ret : Pending) (s : State) : Untouched s (runReset ret s) := by
  obtain ⟨t, ht, h⟩ := resetRound_acts s
  have h0 : Untouched s (resetRound s).2 := by
    rw [h]; split
    · exact ht.untouched.trans ⟨rfl, rfl, rfl, rfl, rfl, rfl⟩
    · exact ht.untouched
  refine h0.trans ?_
  simp only [runReset]
  split
  · cases ret with
    | nothing => exact ⟨rfl, rfl, rfl, rfl, rfl, rfl⟩
    | toStart =>
      obtain ⟨u, hu, h⟩ := startTail_acts (resetRound s).2
      exact hu.untouched.trans ⟨by simp [finish, h], by simp [finish, h], by simp [finish, h], by simp [finish, h],
        by simp [finish, h], by simp [finish, h]⟩
  · exact ⟨rfl, rfl, rfl, rfl, rfl, rfl⟩

/-- A sequence adds events to the record, and a response when it has ended. -/
theorem SequenceOutcome.log {isStart : Bool} {b t : State} (h : SequenceOutcome isStart b t) (hb : b.busy = true) :
    ∃ es, (t.busy = false ∧ t.log = .rsp t.rsp :: record es b.log) ∨ (t.busy = true ∧ t.log = record es b.log ∧ t.rsp = b.rsp) := by
  obtain ⟨u, hu, ⟨rfl, -⟩ | ⟨rfl, -, -⟩⟩ := h
  · obtain ⟨es, h1, -⟩ := hu.log
    exact ⟨es, .inl ⟨rfl, by simp [h1]⟩⟩
  · obtain ⟨es, h1, -⟩ := hu.log
    have := hu.onlyLines; unfold OnlyLines at this
    exact ⟨es, .inr ⟨by rw [this]; exact hb, h1, by rw [this]; rfl⟩⟩

/-- How a sequence that began with `BUSY` 1 stands after its step, field by field. -/
theorem SequenceOutcome.fields {isStart : Bool} {b t : State} (h : SequenceOutcome isStart b t) (hb : b.busy = true) :
    (t.busy = false ∧ t.seq = .rest ∧ t.rsp = rspWord 0 t.sfAcc 0 ∧ t.xfer = isStart ∧ t.drv = if isStart then .low else .released) ∨
    (t.busy = true ∧ t.seq = .resetNext (pendingOf isStart) ∧ t.rsp = b.rsp ∧ t.xfer = b.xfer ∧ t.drv = .released) := by
  obtain ⟨u, hu, ⟨rfl, hd⟩ | ⟨rfl, hd, -⟩⟩ := h
  · exact .inl ⟨rfl, rfl, by simp [noError], rfl, by simpa using hd⟩
  · have := hu.onlyLines; unfold OnlyLines at this
    exact .inr ⟨by rw [this]; exact hb, rfl, by rw [this]; rfl, by rw [this]; rfl, hd⟩

/-- Step 1 of OPEN_SEQ releases both lines, enables both pull-ups, and changes nothing else (R101). -/
theorem openLines_eq (s : State) :
    openLines s = { s with drv := .released, log := record [.release .scl, .release .sda, .pullup .scl, .pullup .sda] s.log } := by
  simp only [openLines, pullup, float, emit, setDrv, Drv.set]
  rfl

end Sys2Proof.Machine
end

