-- ==== Sys2Proof/Laws/BlindCommands.lean ====
section
/-! SUPPORT. Changes of state that no command looks at, and the equality up to the registers with which no step differs: what `Blind` says of
the sequences, said of `exec` and `stepPort`; and that `XFER` and the sequencer's registers decide nothing. -/

namespace Sys2Proof.Machine

/-- A blind change that commutes with acceptance, completion and rejection as well. -/
structure BlindCommand (g : State → State) : Prop extends Blind g where
  opened : ∀ s, (g s).opened = s.opened
  setXfer : ∀ b s, setXfer b (g s) = g (setXfer b s)
  setSeq : ∀ q s, setSeq q (g s) = g (setSeq q s)
  accept : ∀ s, accept (g s) = g (accept s)
  complete : ∀ v s, complete v (g s) = g (complete v s)
  reject : ∀ e s, reject e (g s) = g (reject e s)

namespace BlindCommand

variable {g : State → State} (hg : BlindCommand g)

include hg

theorem finish (ret : Pending) (s : State) : Machine.finish ret (g s) = g (Machine.finish ret s) := by
  cases ret
  · exact hg.complete 0 s
  · simp only [Machine.finish, hg.toBlind.startTail hg.setXfer, hg.complete]

theorem runReset (ret : Pending) (s : State) : Machine.runReset ret (g s) = g (Machine.runReset ret s) := by
  simp only [Machine.runReset, hg.toBlind.resetRound hg.setXfer]
  split
  · exact hg.finish ..
  · exact hg.setSeq ..

/-- No command but `OPEN` sees the change. -/
theorem exec {i : Instr} (hi : i ≠ .openBus) {s t : State} (h : Machine.exec i s = .next t) :
    Machine.exec i (g s) = .next (g t) := by
  cases ho : s.opened
  · have ho' : (g s).opened = false := (hg.opened s).trans ho
    rw [exec_notOpen i hi s ho] at h; injection h with h
    rw [exec_notOpen i hi _ ho', ← h, hg.reject]
  · have ho' : (g s).opened = true := (hg.opened s).trans ho
    cases i with
    | openBus => exact absurd rfl hi
    | start =>
      simp only [Machine.exec, execStart, ho, ho', if_true, startSeq, hg.accept, hg.toBlind.release] at h ⊢
      injection h with h; rw [← h]; split
      · rw [hg.finish]
      · rw [hg.runReset]
    | stop =>
      simp only [Machine.exec, execStop, ho, ho', if_true, stopSeq, hg.accept, hg.toBlind.stopLines] at h ⊢
      injection h with h; rw [← h]; split
      · rw [hg.setXfer, hg.complete]
      · rw [hg.runReset]
    | reset =>
      simp only [Machine.exec, execReset, ho, ho', if_true, hg.accept] at h ⊢
      injection h with h; rw [← h, hg.runReset]
    | sendBit x =>
      simp only [Machine.exec, execSendBit, ho, ho', if_true, hg.accept, hg.toBlind.sendBitSeq] at h ⊢
      injection h with h; rw [← h, hg.complete]
    | readBit =>
      simp only [Machine.exec, execReadBit, ho, ho', if_true, hg.accept, hg.toBlind.readBitSeq] at h ⊢
      injection h with h; rw [← h, hg.complete]
    | sendByte x =>
      simp only [Machine.exec, execSendByte, ho, ho', if_true, hg.accept, hg.toBlind.sendByteSeq] at h ⊢
      injection h with h; rw [← h, hg.complete]
    | readByte =>
      simp only [Machine.exec, execReadByte, ho, ho', if_true, hg.accept, hg.toBlind.readByteSeq] at h ⊢
      injection h with h; rw [← h, hg.complete]

/-- Nor does `OPEN`, if the change leaves the configuration inputs and the handle alone. -/
theorem execOpen (hc : ∀ s, (g s).cfg = s.cfg) (hh : ∀ h s, setHandle h (g s) = g (setHandle h s))
    (ho : ∀ b s, setOpened b (g s) = g (setOpened b s)) {s t : State} (h : Machine.execOpen s = .next t) :
    Machine.execOpen (g s) = .next (g t) := by
  have hop : (g s).openOperands = s.openOperands := hc s
  simp only [Machine.execOpen, hop] at h ⊢
  by_cases ha : s.openOperands.acceptable = true
  · simp only [ha, if_true] at h ⊢
    injection h with h
    simp only [← h, construct, hh, ho, hg.accept, openLines, hg.toBlind.float, hg.toBlind.pullup, hg.runReset]
  · simp only [ha, if_false, Bool.false_eq_true] at h ⊢
    injection h with h; rw [← h, hg.reject]

end BlindCommand

theorem blindCommand_cfg (c : Handle) : BlindCommand (fun s => { s with cfg := c }) :=
  { blind_cfg c with
    opened := fun _ => rfl, setXfer := fun _ _ => rfl, setSeq := fun _ _ => rfl, accept := fun _ => rfl
    complete := fun _ _ => rfl, reject := fun _ _ => rfl }

theorem blindCommand_rstIn (k : Option Nat) : BlindCommand (fun s => { s with rstIn := k }) :=
  { blind_rstIn k with
    opened := fun _ => rfl, setXfer := fun _ _ => rfl, setSeq := fun _ _ => rfl, accept := fun _ => rfl
    complete := fun _ _ => rfl, reject := fun _ _ => rfl }

theorem blindCommand_eraseDiags : BlindCommand eraseDiags :=
  { blind_eraseDiags with
    opened := fun _ => rfl, setXfer := fun _ _ => rfl, setSeq := fun _ _ => rfl, accept := fun _ => rfl
    complete := fun _ _ => rfl, reject := fun _ _ => rfl }

/-- The step of the command port does not see the reset input. -/
theorem stepPort_rstIn (k : Option Nat) {s t : State} (h : stepPort s = .next t) :
    stepPort { s with rstIn := k } = .next { t with rstIn := k } := by
  have hg := blindCommand_rstIn k
  obtain ⟨hb, ret, hq, rfl⟩ | ⟨hb, hc, rfl⟩ | ⟨hb, w, ws, hc, ⟨hd, rfl⟩ | ⟨i, hd, hi⟩⟩ := stepPort_cases h
  · rw [stepPort_resume (s := { s with rstIn := k }) hb hq]
    exact congrArg _ (hg.runReset ret s)
  · exact stepPort_idle (s := { t with rstIn := k }) hb hc
  · rw [stepPort_reserved (s := { s with rstIn := k }) hb hc hd]; rfl
  · rw [stepPort_taken (s := { s with rstIn := k }) hb hc hd]
    by_cases ho : i = .openBus
    · subst ho; exact hg.execOpen (fun _ => rfl) (fun _ _ => rfl) (fun _ _ => rfl) hi
    · exact hg.exec ho hi

end Sys2Proof.Machine
end

