-- ==== Sys2Proof/Laws/PerInstr.lean ====
section
/-! SUPPORT. What holds of every command as syntax: its word has the shape the opcode map gives it (30_encoding.md R71), one lemma per
constructor. -/

namespace Sys2Proof.Laws.WordShape

/-- The word of a command matches the command's pattern under its mask, has its opcode in bits [11:8] and its operand in bits [7:0]. -/
def Statement (i : Instr) : Prop :=
  encode i &&& i.mask = i.pattern ∧ opField (encode i) = i.opcode ∧ argField (encode i) = i.operand

theorem openBus : Statement .openBus := by unfold Statement; decide

theorem start : Statement .start := by unfold Statement; decide

theorem stop : Statement .stop := by unfold Statement; decide

theorem reset : Statement .reset := by unfold Statement; decide

theorem sendBit : ∀ arg : Byte, Statement (.sendBit arg) := by unfold Statement; decide +kernel

theorem readBit : Statement .readBit := by unfold Statement; decide

theorem sendByte : ∀ arg : Byte, Statement (.sendByte arg) := by unfold Statement; decide +kernel

theorem readByte : Statement .readByte := by unfold Statement; decide

end Sys2Proof.Laws.WordShape
end

