-- ==== Sys2Proof/Laws/Registers.lean ====
section
/-! SUPPORT. The sequencer's registers decide nothing from one step to the next: states that differ in them alone go through every sequence
alike (10_state.md R31). -/

namespace Sys2Proof.Machine

/-- Equal but for the sequencer's registers. -/
def SameButRegs (s t : State) : Prop := ∃ r, t = setRegs r s

/-- Two runs of one sequence: the same result, and states equal but for the registers. -/
def AlikeRegs {α : Type} (a b : α × State) : Prop := b.1 = a.1 ∧ SameButRegs a.2 b.2

theorem SameButRegs.refl (s : State) : SameButRegs s s := ⟨s.regs, rfl⟩

/-! ### What the line primitives do with the registers -/

theorem sample_regs (l : Line) (r : PrivateRegs) (s : State) :
    sample l (setRegs r s) = ((sample l s).1, setRegs r (sample l s).2) := by
  by_cases h : s.drv.get l
  · have h' : (setRegs r s).drv.get l = true := h
    rw [sample, sample, if_pos h, if_pos h']; rfl
  · have h' : ¬(setRegs r s).drv.get l = true := h
    rw [sample, sample, if_neg h, if_neg h']; rfl

theorem release_regs (l : Line) (r : PrivateRegs) (s : State) :
    release l (setRegs r s) = ((release l s).1, setRegs r (release l s).2) := by
  rw [release, release, ← sample_regs]; rfl

theorem pull_regs (l : Line) (r : PrivateRegs) (s : State) : pull l (setRegs r s) = setRegs r (pull l s) := rfl

theorem waitMs_regs (n : Nat) (r : PrivateRegs) (s : State) : waitMs n (setRegs r s) = setRegs r (waitMs n s) := rfl

theorem warn_regs (c : DiagCode) (l : Line) (r : PrivateRegs) (s : State) : warn c l (setRegs r s) = setRegs r (warn c l s) := by
  cases h : s.handle.warn
  · have h' : (setRegs r s).handle.warn = false := h
    simp only [warn, h, h']; rfl
  · have h' : (setRegs r s).handle.warn = true := h
    simp only [warn, h, h']; rfl

theorem timeOut_regs (l : Line) (r : PrivateRegs) (s : State) : timeOut l (setRegs r s) = setRegs r (timeOut l s) := by
  rw [timeOut, timeOut, ← warn_regs]; rfl

theorem release_keeps_regs (l : Line) (s : State) : (release l s).2.regs = s.regs := by
  obtain ⟨e, h⟩ := sample_snd l (waitHalf (float l s)); simp only [release, h]; rfl

theorem sample_keeps_regs (l : Line) (s : State) : (sample l s).2.regs = s.regs := by
  obtain ⟨e, h⟩ := sample_snd l s; simp only [h]; rfl

theorem timeOut_keeps_regs (l : Line) (s : State) : (timeOut l s).regs = s.regs := by
  unfold timeOut warn; split <;> rfl

section alike

variable {s t : State}

theorem SameButRegs.params (h : SameButRegs s t) : t.params = s.params := by obtain ⟨r, rfl⟩ := h; rfl

theorem SameButRegs.setRegs (h : SameButRegs s t) (r q : PrivateRegs) : SameButRegs (setRegs r s) (setRegs q t) := by
  obtain ⟨p, rfl⟩ := h; exact ⟨q, rfl⟩

theorem SameButRegs.pull (h : SameButRegs s t) (l : Line) : SameButRegs (pull l s) (pull l t) := by
  obtain ⟨r, rfl⟩ := h; exact ⟨r, rfl⟩

theorem SameButRegs.waitMs (h : SameButRegs s t) (n : Nat) : SameButRegs (waitMs n s) (waitMs n t) := by
  obtain ⟨r, rfl⟩ := h; exact ⟨r, rfl⟩

theorem SameButRegs.setXfer (h : SameButRegs s t) (b : Bool) : SameButRegs (setXfer b s) (setXfer b t) := by
  obtain ⟨r, rfl⟩ := h; exact ⟨r, rfl⟩

theorem SameButRegs.setSeq (h : SameButRegs s t) (q : Seq) : SameButRegs (setSeq q s) (setSeq q t) := by
  obtain ⟨r, rfl⟩ := h; exact ⟨r, rfl⟩

theorem SameButRegs.accept (h : SameButRegs s t) : SameButRegs (accept s) (accept t) := by
  obtain ⟨r, rfl⟩ := h; exact ⟨r, rfl⟩

theorem SameButRegs.reject (h : SameButRegs s t) (e : HardError) : SameButRegs (reject e s) (reject e t) := by
  obtain ⟨r, rfl⟩ := h; exact ⟨r, rfl⟩

/-- A completed command leaves nothing of the difference (10_state.md R31). -/
theorem SameButRegs.complete (h : SameButRegs s t) (v : Byte) : complete v t = complete v s := by
  obtain ⟨r, rfl⟩ := h; rfl

theorem SameButRegs.release (h : SameButRegs s t) (l : Line) : AlikeRegs (release l s) (release l t) := by
  obtain ⟨r, rfl⟩ := h; rw [release_regs]; exact ⟨rfl, r, rfl⟩

theorem SameButRegs.sample (h : SameButRegs s t) (l : Line) : AlikeRegs (sample l s) (sample l t) := by
  obtain ⟨r, rfl⟩ := h; rw [sample_regs]; exact ⟨rfl, r, rfl⟩

theorem SameButRegs.timeOut (h : SameButRegs s t) (l : Line) : SameButRegs (timeOut l s) (timeOut l t) := by
  obtain ⟨r, rfl⟩ := h; exact ⟨r, timeOut_regs ..⟩

theorem SameButRegs.warn (h : SameButRegs s t) (c : DiagCode) (l : Line) : SameButRegs (warn c l s) (warn c l t) := by
  obtain ⟨r, rfl⟩ := h; exact ⟨r, warn_regs ..⟩

/-! ### RELWAIT -/

/-- The polls of a RELWAIT depend on no register but `POLLCNT`. -/
theorem pollLoop_alike (n : Nat) (l : Line) :
    ∀ a b : Level × State, AlikeRegs a b → b.2.regs.pollCnt = a.2.regs.pollCnt → AlikeRegs (pollLoop n l a) (pollLoop n l b) := by
  induction n with
  | zero => intro a b h _; exact h
  | succ n ih =>
    rintro ⟨v, s⟩ ⟨w, t⟩ ⟨hv, hs⟩ hp
    obtain rfl : w = v := hv
    simp only at hp hs
    simp only [pollLoop, hp, hs.params]
    by_cases hc : w = false ∧ s.regs.pollCnt < s.params.pollMax
    · rw [if_pos hc, if_pos hc]
      have hsam := (hs.waitMs s.params.pollIntervalMs).sample l
      refine ih _ _ ⟨?_, ?_⟩ ?_
      · simp only [poll, hs.params]; exact hsam.1
      · simp only [poll, hs.params]; exact hsam.2.setRegs _ _
      · simp [poll, setPollCnt, hp]
    · rw [if_neg hc, if_neg hc]; exact ⟨rfl, hs⟩

/-- A RELWAIT depends on no register: it sets `POLLCNT` first (40_line_primitives.md R93). -/
theorem SameButRegs.relwait (h : SameButRegs s t) (l : Line) : AlikeRegs (relwait l s) (relwait l t) := by
  have hr := h.release l
  have hp := pollLoop_alike s.params.pollMax l ((Machine.release l s).1, setPollCnt 0 (Machine.release l s).2)
    ((Machine.release l t).1, setPollCnt 0 (Machine.release l t).2) ⟨hr.1, hr.2.setRegs _ _⟩ rfl
  simp only [Machine.relwait, h.params]
  refine ⟨hp.1, ?_⟩
  simp only [hp.1]
  split
  · exact hp.2
  · exact hp.2.timeOut l

/-! ### Transfers -/

theorem SameButRegs.endBit (h : SameButRegs s t) : SameButRegs (endBit s) (endBit t) := (h.pull .scl).pull .sda

theorem SameButRegs.presentBit (h : SameButRegs s t) (b : Bool) : SameButRegs (presentBit b s) (presentBit b t) := by
  unfold Machine.presentBit; split
  · exact (h.release .sda).2
  · exact h.pull .sda

theorem SameButRegs.sendBitSeq (h : SameButRegs s t) (x : Byte) : SameButRegs (sendBitSeq x s) (sendBitSeq x t) :=
  ((h.presentBit (sentBit x)).relwait .scl).2.endBit

theorem SameButRegs.readBitSeq (h : SameButRegs s t) : AlikeRegs (readBitSeq s) (readBitSeq t) := by
  have hs := (((h.release .sda).2.relwait .scl).2).sample .sda
  unfold Machine.readBitSeq
  exact ⟨hs.1, hs.2.endBit⟩

end alike

/-- RELWAIT writes `POLLCNT` and no other register (40_line_primitives.md R93). -/
theorem pollLoop_keeps (n : Nat) (l : Line) (a : Level × State) :
    (pollLoop n l a).2.regs.shr = a.2.regs.shr ∧ (pollLoop n l a).2.regs.acc = a.2.regs.acc := by
  induction n generalizing a with
  | zero => exact ⟨rfl, rfl⟩
  | succ n ih =>
    simp only [pollLoop]; split
    · have h := sample_keeps_regs l (waitMs a.2.params.pollIntervalMs a.2)
      have h' : (waitMs a.2.params.pollIntervalMs a.2).regs = a.2.regs := rfl
      rw [(ih _).1, (ih _).2]; simp [poll, setPollCnt, h, h']
    · exact ⟨rfl, rfl⟩

theorem relwait_keeps (l : Line) (s : State) : (relwait l s).2.regs.shr = s.regs.shr ∧ (relwait l s).2.regs.acc = s.regs.acc := by
  have h := pollLoop_keeps s.params.pollMax l ((release l s).1, setPollCnt 0 (release l s).2)
  have h' : (setPollCnt 0 (release l s).2).regs.shr = s.regs.shr ∧ (setPollCnt 0 (release l s).2).regs.acc = s.regs.acc :=
    by simp [setPollCnt, release_keeps_regs]
  have h'' := And.intro (h.1.trans h'.1) (h.2.trans h'.2)
  simp only [relwait]; split
  · exact h''
  · rw [timeOut_keeps_regs]; exact h''

theorem sendBitSeq_shr (x : Byte) (s : State) : (sendBitSeq x s).regs.shr = s.regs.shr := by
  have h : (presentBit (sentBit x) s).regs = s.regs := by
    unfold presentBit; split
    · exact release_keeps_regs ..
    · rfl
  exact ((relwait_keeps .scl (presentBit (sentBit x) s)).1).trans (congrArg PrivateRegs.shr h)

theorem readBitSeq_acc (s : State) : (readBitSeq s).2.regs.acc = s.regs.acc := by
  have h := sample_keeps_regs .sda (relwait .scl (release .sda s).2).2
  exact (congrArg PrivateRegs.acc h).trans (((relwait_keeps .scl (release .sda s).2).2).trans
    (congrArg PrivateRegs.acc (release_keeps_regs .sda s)))

section more

variable {s t : State}

/-- The bits sent depend on no register but `SHR` (43_byte_transfer.md R110). -/
theorem SameButRegs.sendBits (n : Nat) (h : SameButRegs s t) (hr : t.regs.shr = s.regs.shr) :
    SameButRegs (sendBits n s) (sendBits n t) := by
  induction n generalizing s t with
  | zero => exact h
  | succ n ih =>
    simp only [Machine.sendBits, hr]
    refine ih ((h.sendBitSeq _).setRegs _ _) ?_
    show shiftOut (Machine.sendBitSeq _ t).regs.shr = shiftOut (Machine.sendBitSeq _ s).regs.shr
    rw [sendBitSeq_shr, sendBitSeq_shr, hr]

/-- The byte received depends on no register but `ACC` (43_byte_transfer.md R111). -/
theorem SameButRegs.readBits (n : Nat) (h : SameButRegs s t) (hr : t.regs.acc = s.regs.acc) :
    SameButRegs (readBits n s) (readBits n t) ∧ (Machine.readBits n t).regs.acc = (Machine.readBits n s).regs.acc := by
  induction n generalizing s t with
  | zero => exact ⟨h, hr⟩
  | succ n ih =>
    have hb := h.readBitSeq
    refine ih (hb.2.setRegs _ _) ?_
    show shiftIn (Machine.readBitSeq t).2.regs.acc _ = shiftIn (Machine.readBitSeq s).2.regs.acc _
    rw [readBitSeq_acc, readBitSeq_acc, hr, hb.1]

theorem SameButRegs.sendByteSeq (h : SameButRegs s t) (x : Byte) : AlikeRegs (sendByteSeq x s) (sendByteSeq x t) := by
  have h0 : SameButRegs (loadShr x s) (loadShr x t) := h.setRegs _ _
  exact (h0.sendBits 8 rfl).readBitSeq

theorem SameButRegs.readByteSeq (h : SameButRegs s t) : AlikeRegs (readByteSeq s) (readByteSeq t) := by
  have h0 : SameButRegs (clearAcc s) (clearAcc t) := h.setRegs _ _
  have h1 := h0.readBits 8 rfl
  exact ⟨h1.2, h1.1⟩

/-! ### Sequences -/

theorem SameButRegs.pulses (n : Nat) (h : SameButRegs s t) : SameButRegs (pulses n s) (pulses n t) := by
  induction n generalizing s t with
  | zero => exact h
  | succ n ih => exact ih (((h.pull .scl).release .scl).2.setRegs _ _)

theorem pulses_burstCnt (n : Nat) (s : State) : (pulses n s).regs.burstCnt = s.regs.burstCnt := by
  induction n generalizing s with
  | zero => rfl
  | succ n ih =>
    rw [Machine.pulses, ih]
    have h : (Machine.release .scl (Machine.pull .scl s)).2.regs = s.regs := release_keeps_regs .scl (Machine.pull .scl s)
    simp [pulse, setPulseCnt, h]

theorem burst_burstCnt (s : State) : (burst s).2.regs.burstCnt = s.regs.burstCnt :=
  (congrArg PrivateRegs.burstCnt (sample_keeps_regs .sda (pulses s.params.burstPulses (setPulseCnt 0 s)))).trans
    (pulses_burstCnt ..)

theorem SameButRegs.burst (h : SameButRegs s t) : AlikeRegs (burst s) (burst t) := by
  unfold Machine.burst; rw [h.params]
  exact ((h.setRegs _ _).pulses _).sample .sda

/-- The bursts depend on no register but `BURSTCNT` (44_sequence_control.md R124). -/
theorem SameButRegs.burstLoop (n : Nat) (h : SameButRegs s t) (hr : t.regs.burstCnt = s.regs.burstCnt) :
    AlikeRegs (burstLoop n s) (burstLoop n t) := by
  induction n generalizing s t with
  | zero => exact ⟨rfl, h⟩
  | succ n ih =>
    have hb := h.burst
    have hp : ∀ u : State, (setBurstCnt ((Machine.burst u).2.regs.burstCnt + 1) (Machine.burst u).2).params
        = (Machine.burst u).2.params := fun _ => rfl
    simp only [Machine.burstLoop, hb.1]
    split
    · exact ⟨rfl, hb.2⟩
    · have hs : SameButRegs (setBurstCnt ((Machine.burst s).2.regs.burstCnt + 1) (Machine.burst s).2)
          (setBurstCnt ((Machine.burst t).2.regs.burstCnt + 1) (Machine.burst t).2) := hb.2.setRegs _ _
      have he : (setBurstCnt ((Machine.burst t).2.regs.burstCnt + 1) (Machine.burst t).2).regs.burstCnt
          = (setBurstCnt ((Machine.burst s).2.regs.burstCnt + 1) (Machine.burst s).2).regs.burstCnt := by
        simp [setBurstCnt, burst_burstCnt, hr]
      rw [he, hs.params]
      split
      · exact ⟨rfl, hs⟩
      · exact ih (hs.waitMs _) he

theorem SameButRegs.stopLines (h : SameButRegs s t) : AlikeRegs (stopLines s) (stopLines t) := (h.relwait .scl).2.release .sda

theorem SameButRegs.recoverLines (h : SameButRegs s t) : AlikeRegs (recoverLines s) (recoverLines t) :=
  ((h.pull .scl).pull .sda).stopLines

theorem SameButRegs.giveUp (h : SameButRegs s t) : SameButRegs (giveUp s) (giveUp t) := by
  have : SameButRegs (setSfAcc (setRst s.sfAcc) s) (setSfAcc (setRst t.sfAcc) t) := by obtain ⟨r, rfl⟩ := h; exact ⟨r, rfl⟩
  exact (this.warn _ _).setXfer false

theorem SameButRegs.resetRound (h : SameButRegs s t) : AlikeRegs (resetRound s) (resetRound t) := by
  have h0 : SameButRegs (setBurstCnt 0 (Machine.release .sda s).2) (setBurstCnt 0 (Machine.release .sda t).2) :=
    (h.release .sda).2.setRegs _ _
  have hb := h0.burstLoop s.params.burstMax rfl
  have hv := hb.2.recoverLines
  simp only [Machine.resetRound, h.params, hb.1]
  split
  · rw [hv.1]; split
    · exact ⟨rfl, hv.2.setXfer false⟩
    · exact ⟨rfl, hv.2⟩
  · exact ⟨rfl, hb.2.giveUp⟩

theorem SameButRegs.startTail (h : SameButRegs s t) : SameButRegs (startTail s) (startTail t) :=
  (((h.relwait .scl).2.pull .sda).pull .scl).setXfer true

theorem SameButRegs.finish (h : SameButRegs s t) (ret : Pending) : finish ret t = finish ret s := by
  cases ret
  · exact h.complete 0
  · exact h.startTail.complete 0

theorem SameButRegs.runReset (h : SameButRegs s t) (ret : Pending) : SameButRegs (runReset ret s) (runReset ret t) := by
  have hr := h.resetRound
  simp only [Machine.runReset, hr.1]
  split
  · rw [hr.2.finish]; exact .refl _
  · exact hr.2.setSeq _

/-- No command reads a register it has not written. -/
theorem SameButRegs.exec (h : SameButRegs s t) (i : Instr) {u : State} (he : exec i s = .next u) :
    ∃ w, Machine.exec i t = .next w ∧ SameButRegs u w := by
  have ha := h.accept
  have hop : t.opened = s.opened := by obtain ⟨r, rfl⟩ := h; rfl
  have hcf : t.openOperands = s.openOperands := by obtain ⟨r, rfl⟩ := h; rfl
  by_cases hi : i = .openBus
  · subst hi
    simp only [Machine.exec, execOpen, hcf] at he ⊢
    split at he
    · rename_i hacc
      rw [if_pos hacc]; injection he with he; subst he
      refine ⟨_, rfl, SameButRegs.runReset ?_ _⟩
      obtain ⟨r, rfl⟩ := h; exact ⟨r, rfl⟩
    · rename_i hacc
      rw [if_neg hacc]; injection he with he; subst he
      exact ⟨_, rfl, h.reject _⟩
  · cases ho : s.opened
    · rw [exec_notOpen i hi s ho] at he; injection he with he; subst he
      exact ⟨_, exec_notOpen i hi t (hop.trans ho), h.reject _⟩
    · have ho' := hop.trans ho
      cases i with
      | openBus => exact absurd rfl hi
      | start =>
        simp only [Machine.exec, execStart, ho, ho', if_true] at he ⊢; injection he with he; subst he
        have hr := ha.release .sda
        refine ⟨_, rfl, ?_⟩
        simp only [startSeq, hr.1]; split
        · rw [hr.2.finish]; exact .refl _
        · exact hr.2.runReset _
      | stop =>
        simp only [Machine.exec, execStop, ho, ho', if_true] at he ⊢; injection he with he; subst he
        have hr := ha.stopLines
        refine ⟨_, rfl, ?_⟩
        simp only [stopSeq, hr.1]; split
        · rw [(hr.2.setXfer false).complete]; exact .refl _
        · exact hr.2.runReset _
      | reset =>
        simp only [Machine.exec, execReset, ho, ho', if_true] at he ⊢; injection he with he; subst he
        exact ⟨_, rfl, ha.runReset _⟩
      | sendBit x =>
        simp only [Machine.exec, execSendBit, ho, ho', if_true] at he ⊢; injection he with he; subst he
        exact ⟨_, rfl, by rw [(ha.sendBitSeq x).complete]; exact .refl _⟩
      | readBit =>
        simp only [Machine.exec, execReadBit, ho, ho', if_true] at he ⊢; injection he with he; subst he
        exact ⟨_, rfl, by rw [ha.readBitSeq.1, ha.readBitSeq.2.complete]; exact .refl _⟩
      | sendByte x =>
        simp only [Machine.exec, execSendByte, ho, ho', if_true] at he ⊢; injection he with he; subst he
        exact ⟨_, rfl, by rw [(ha.sendByteSeq x).1, (ha.sendByteSeq x).2.complete]; exact .refl _⟩
      | readByte =>
        simp only [Machine.exec, execReadByte, ho, ho', if_true] at he ⊢; injection he with he; subst he
        exact ⟨_, rfl, by rw [ha.readByteSeq.1, ha.readByteSeq.2.complete]; exact .refl _⟩

end more

end Sys2Proof.Machine
end

