-- ==== Sys2Proof/Laws/Run.lean ====
section
/-! SUPPORT. Running the line primitives and the sequences on given answers of the environment: `s.ran d e r f es` is `s` after line
activity that left drive bits `d`, answers `e`, private registers `r`, soft-failure bits `f` and emitted `es`; one lemma per
operation says what it makes of such a state. -/

namespace Sys2Proof.Machine

/-- `s` after line activity. -/
def State.ran (s : State) (d : Drv) (e : Env) (r : PrivateRegs) (f : BitVec 2) (es : List Event) : State :=
  { s with drv := d, env := e, regs := r, sfAcc := f, log := record es s.log }

theorem record_append (es fs : List Event) (log : List Out) : record (es ++ fs) log = record fs (record es log) := by
  simp [record]

section fields

variable (s : State) (d : Drv) (e : Env) (r : PrivateRegs) (f : BitVec 2) (es : List Event)

@[simp] theorem ran_params : (s.ran d e r f es).params = s.params := rfl
@[simp] theorem ran_cfg : (s.ran d e r f es).cfg = s.cfg := rfl
@[simp] theorem ran_cmds : (s.ran d e r f es).cmds = s.cmds := rfl
@[simp] theorem ran_env : (s.ran d e r f es).env = e := rfl
@[simp] theorem ran_rstIn : (s.ran d e r f es).rstIn = s.rstIn := rfl
@[simp] theorem ran_handle : (s.ran d e r f es).handle = s.handle := rfl
@[simp] theorem ran_drv : (s.ran d e r f es).drv = d := rfl
@[simp] theorem ran_opened : (s.ran d e r f es).opened = s.opened := rfl
@[simp] theorem ran_busy : (s.ran d e r f es).busy = s.busy := rfl
@[simp] theorem ran_xfer : (s.ran d e r f es).xfer = s.xfer := rfl
@[simp] theorem ran_sfAcc : (s.ran d e r f es).sfAcc = f := rfl
@[simp] theorem ran_regs : (s.ran d e r f es).regs = r := rfl
@[simp] theorem ran_seq : (s.ran d e r f es).seq = s.seq := rfl
@[simp] theorem ran_rsp : (s.ran d e r f es).rsp = s.rsp := rfl
@[simp] theorem ran_log : (s.ran d e r f es).log = record es s.log := rfl
@[simp] theorem ran_completed : (s.ran d e r f es).completed = s.completed := rfl
@[simp] theorem ran_T : (s.ran d e r f es).T = s.handle.halfPeriod := rfl

/-- Every state is itself after no activity. -/
theorem ran_nil : s.ran s.drv s.env s.regs s.sfAcc [] = s := rfl

theorem emit_ran (ev : Event) : emit ev (s.ran d e r f es) = s.ran d e r f (es ++ [ev]) := by
  simp [emit, State.ran, record]

@[simp] theorem setRegs_ran (r' : PrivateRegs) : setRegs r' (s.ran d e r f es) = s.ran d e r' f es := rfl
@[simp] theorem setSfAcc_ran (f' : BitVec 2) : setSfAcc f' (s.ran d e r f es) = s.ran d e r f' es := rfl
@[simp] theorem setDrv_ran (l : Line) (b : Bool) :
    setDrv l b (s.ran d e r f es) = s.ran (d.set l b) e r f es := rfl
@[simp] theorem setEnv_ran (e' : Env) : setEnv e' (s.ran d e r f es) = s.ran d e' r f es := rfl

theorem pull_ran (l : Line) :
    pull l (s.ran d e r f es) = s.ran (d.set l true) e r f (es ++ tPull s.handle.halfPeriod l) := by
  simp [pull, waitHalf, drive, emit_ran, tPull]

theorem waitMs_ran (t : Nat) : waitMs t (s.ran d e r f es) = s.ran d e r f (es ++ [.waitMs t]) := emit_ran ..

theorem warn_ran (c : DiagCode) (l : Line) :
    warn c l (s.ran d e r f es) = s.ran d e r f (es ++ if s.handle.warn then [.diag c l] else []) := by
  by_cases h : s.handle.warn <;> simp [warn, h, emit_ran]

end fields

section lines

variable (s : State) (a b : Bool) (v : Level) (cs ds : List Level) (n : Nat) (r : PrivateRegs) (f : BitVec 2) (es : List Event)

theorem sample_scl_ran :
    sample .scl (s.ran ⟨false, b⟩ ⟨v :: cs, ds, n⟩ r f es)
      = (v, s.ran ⟨false, b⟩ ⟨cs, ds, n + 1⟩ r f (es ++ [.sample .scl v])) := by
  simp [sample, Drv.get, Env.answer, Env.queue, Env.afterSample, emit_ran]

theorem sample_sda_ran :
    sample .sda (s.ran ⟨a, false⟩ ⟨cs, v :: ds, n⟩ r f es)
      = (v, s.ran ⟨a, false⟩ ⟨cs, ds, n + 1⟩ r f (es ++ [.sample .sda v])) := by
  simp [sample, Drv.get, Env.answer, Env.queue, Env.afterSample, emit_ran]

theorem release_scl_ran :
    release .scl (s.ran ⟨a, b⟩ ⟨v :: cs, ds, n⟩ r f es)
      = (v, s.ran ⟨false, b⟩ ⟨cs, ds, n + 1⟩ r f (es ++ tRelease s.handle.halfPeriod .scl v)) := by
  simp [release, waitHalf, float, emit_ran, Drv.set, sample_scl_ran, tRelease]

theorem release_sda_ran :
    release .sda (s.ran ⟨a, b⟩ ⟨cs, v :: ds, n⟩ r f es)
      = (v, s.ran ⟨a, false⟩ ⟨cs, ds, n + 1⟩ r f (es ++ tRelease s.handle.halfPeriod .sda v)) := by
  simp [release, waitHalf, float, emit_ran, Drv.set, sample_sda_ran, tRelease]

theorem poll_scl_ran :
    poll .scl (s.ran ⟨false, b⟩ ⟨v :: cs, ds, n⟩ r f es)
      = (v, s.ran ⟨false, b⟩ ⟨cs, ds, n + 1⟩ { r with pollCnt := r.pollCnt + 1 } f
          (es ++ [.waitMs s.params.pollIntervalMs, .sample .scl v])) := by
  simp [poll, waitMs_ran, sample_scl_ran, setPollCnt]

theorem pollLoop_high (fuel : Nat) (l : Line) (t : State) : pollLoop fuel l (true, t) = (true, t) := by
  cases fuel <;> simp [pollLoop]

/-- The polls of a RELWAIT whose line rises at the poll after `k` failed ones. -/
theorem pollLoop_rises (fuel k : Nat) :
    ∀ (r : PrivateRegs) (n : Nat) (es : List Event), k < fuel → r.pollCnt + k < s.params.pollMax →
      pollLoop fuel .scl (false, s.ran ⟨false, b⟩ ⟨List.replicate k false ++ true :: cs, ds, n⟩ r f es)
        = (true, s.ran ⟨false, b⟩ ⟨cs, ds, n + k + 1⟩ { r with pollCnt := r.pollCnt + k + 1 } f
            (es ++ (List.replicate k false ++ [true]).flatMap fun u => [.waitMs s.params.pollIntervalMs, .sample .scl u])) := by
  induction k generalizing fuel with
  | zero =>
    intro r n es hf hp
    obtain ⟨m, rfl⟩ : ∃ m, fuel = m + 1 := ⟨fuel - 1, by omega⟩
    cases m <;> simp [pollLoop, poll_scl_ran] <;> omega
  | succ k ih =>
    intro r n es hf hp
    obtain ⟨m, rfl⟩ : ∃ m, fuel = m + 1 := ⟨fuel - 1, by omega⟩
    have hlt : r.pollCnt < s.params.pollMax := by omega
    simp only [pollLoop, List.replicate_succ, List.cons_append, poll_scl_ran, ran_regs, ran_params, hlt, and_self, if_true]
    rw [ih m _ _ _ (by omega) (by simp; omega)]
    simp only [List.flatMap_cons, List.append_assoc, List.cons_append, List.nil_append]
    congr 3 <;> omega

/-- The polls of a RELWAIT that runs out. -/
theorem pollLoop_runsOut (fuel : Nat) :
    ∀ (k : Nat) (r : PrivateRegs) (n : Nat) (es : List Event), k ≤ fuel → r.pollCnt + k = s.params.pollMax →
      pollLoop fuel .scl (false, s.ran ⟨false, b⟩ ⟨List.replicate k false ++ cs, ds, n⟩ r f es)
        = (false, s.ran ⟨false, b⟩ ⟨cs, ds, n + k⟩ { r with pollCnt := s.params.pollMax } f
            (es ++ (List.replicate k false).flatMap fun u => [.waitMs s.params.pollIntervalMs, .sample .scl u])) := by
  induction fuel with
  | zero =>
    intro k r n es hf hp
    obtain rfl : k = 0 := by omega
    simp [pollLoop, ← hp]
  | succ fuel ih =>
    intro k r n es hf hp
    cases k with
    | zero => simp [pollLoop, ← hp]
    | succ k =>
      have hlt : r.pollCnt < s.params.pollMax := by omega
      simp only [pollLoop, List.replicate_succ, List.cons_append, poll_scl_ran, ran_regs, ran_params, hlt, and_self, if_true]
      rw [ih k _ _ _ (by omega) (by simp; omega)]
      simp only [List.flatMap_cons, List.append_assoc, List.cons_append, List.nil_append]
      congr 3; omega

theorem rose_replicate_true (k : Nat) : rose (List.replicate k false ++ [true]) = true := by simp [rose]

theorem rose_replicate_false (k : Nat) : rose (List.replicate k false) = false := by
  simp [rose]

/-- RELWAIT(SCL) on the answers `vs` of one whole wait (40_line_primitives.md R93). -/
theorem relwait_ran (vs : List Level) (hw : WholeWait s.params.pollMax vs) :
    relwait .scl (s.ran ⟨a, b⟩ ⟨vs ++ cs, ds, n⟩ r f es)
      = (rose vs, s.ran ⟨false, b⟩ ⟨cs, ds, n + vs.length⟩ { r with pollCnt := vs.length - 1 } (waitSf vs f)
          (es ++ tWait s.params s.handle vs)) := by
  obtain ⟨k, hk, rfl⟩ | rfl := hw
  · cases k with
    | zero =>
      simp [relwait, release_scl_ran, setPollCnt, pollLoop_high, rose, waitSf, tWait, tSamples, tRelease]
    | succ k =>
      simp only [relwait, List.replicate_succ, List.cons_append, List.append_assoc, release_scl_ran, ran_params, setPollCnt,
        setRegs_ran, ran_regs, List.nil_append]
      rw [pollLoop_rises s b cs ds f _ k _ _ _ (by omega) (by simp; omega)]
      have hn : n + 1 + k + 1 = n + (k + 1 + 1) := by omega
      simp [hn, rose, waitSf, tWait, tSamples, tRelease]
  · simp only [relwait, List.replicate_succ, List.cons_append, release_scl_ran, ran_params, setPollCnt, setRegs_ran, ran_regs]
    rw [pollLoop_runsOut s b cs ds f _ _ _ _ _ (le_refl _) (by simp)]
    have hr : rose (false :: List.replicate s.params.pollMax false) = false := by simp [rose]
    have hn : n + 1 + s.params.pollMax = n + (s.params.pollMax + 1) := by omega
    cases hwarn : s.handle.warn <;>
      simp [hr, hn, hwarn, timeOut, warn_ran, waitSf, tWait, tSamples, tRelease, List.append_assoc]

end lines

end Sys2Proof.Machine
end

