-- ==== Sys2Proof/Laws/RunResets.lean ====
section
/-! SUPPORT. What the start, stop and reset sequences make of a state on given answers of the environment. -/

namespace Sys2Proof.Machine

section pulses

variable (s : State) (cs ds : List Level) (f : BitVec 2)

/-- One burst of clock pulses answered with `b` (44_sequence_control.md R124). -/
theorem pulses_ran (b : List Level) :
    ∀ (a c : Bool) (n : Nat) (r : PrivateRegs) (es : List Event),
      pulses b.length (s.ran ⟨a, c⟩ ⟨b ++ cs, ds, n⟩ r f es)
        = s.ran ⟨if b = [] then a else false, c⟩ ⟨cs, ds, n + b.length⟩ { r with pulseCnt := r.pulseCnt + b.length } f
            (es ++ tBurst s.handle.halfPeriod b) := by
  induction b with
  | nil => intro a c n r es; simp [pulses, tBurst]
  | cons v b ih =>
    intro a c n r es
    simp only [List.length_cons, pulses, pulse, pull_ran, Drv.set, List.cons_append, release_scl_ran, setPulseCnt, setRegs_ran,
      ran_regs]
    rw [ih]
    have hn : n + 1 + b.length = n + (b.length + 1) := by omega
    have hp : r.pulseCnt + 1 + b.length = r.pulseCnt + (b.length + 1) := by omega
    simp [hn, hp, tBurst]

/-- One burst and its check. -/
theorem burst_ran (b : List Level) (v : Level) (hb : b.length = s.params.burstPulses) (a : Bool) (n : Nat) (r : PrivateRegs)
    (es : List Event) :
    burst (s.ran ⟨a, false⟩ ⟨b ++ cs, v :: ds, n⟩ r f es)
      = (v, s.ran ⟨if b = [] then a else false, false⟩ ⟨cs, ds, n + (b.length + 1)⟩ { r with pulseCnt := b.length } f
          (es ++ (tBurst s.handle.halfPeriod b ++ [.sample .sda v]))) := by
  simp only [burst, setPulseCnt, setRegs_ran, ran_params, ran_regs, ← hb]
  rw [pulses_ran]
  simp [sample_sda_ran, Nat.add_assoc]

/-- The drive bit of SCL after the bursts: released, unless a burst has no pulse at all. -/
def sclAfter (a : Bool) (bs : List (List Level)) : Bool := if bs.all List.isEmpty then a else false

/-- The loop of RESET_SEQ: every check but the last reads 0, the last reads `v`; a last 0 is the `BURST_MAX`-th. -/
theorem burstLoop_ran (v : Level) (bs : List (List Level)) :
    ∀ (fuel : Nat) (a : Bool) (n : Nat) (r : PrivateRegs) (es : List Event),
      bs ≠ [] → (∀ b ∈ bs, b.length = s.params.burstPulses) → bs.length ≤ fuel →
      (if v then r.burstCnt + bs.length ≤ s.params.burstMax else r.burstCnt + bs.length = s.params.burstMax) →
      ∃ r', burstLoop fuel (s.ran ⟨a, false⟩
            ⟨bs.flatten ++ cs, List.replicate (bs.length - 1) false ++ v :: ds, n⟩ r f es)
        = (v, s.ran ⟨sclAfter a bs, false⟩ ⟨cs, ds, n + (bs.flatten.length + bs.length)⟩ r' f
            (es ++ tBursts s.handle.halfPeriod s.params.burstDelayMs v bs)) := by
  induction bs with
  | nil => intro _ _ _ _ _ h; exact absurd rfl h
  | cons b bs ih =>
    intro fuel a n r es _ hb hfuel hmax
    obtain ⟨m, rfl⟩ : ∃ m, fuel = m + 1 := ⟨fuel - 1, by simp at hfuel; omega⟩
    have hb0 : b.length = s.params.burstPulses := hb b (by simp)
    have hbs : ∀ c ∈ bs, c.length = s.params.burstPulses := fun c hc => hb c (by simp [hc])
    cases bs with
    | nil =>
      have h1 := burst_ran s cs ds f b v hb0 a n r es
      cases v
      · refine ⟨{ r with pulseCnt := b.length, burstCnt := r.burstCnt + 1 }, ?_⟩
        simp only [Bool.false_eq_true, if_false, List.length_cons, List.length_nil, Nat.zero_add] at hmax
        simp [burstLoop, h1, setBurstCnt, hmax, sclAfter, tBursts]
      · refine ⟨{ r with pulseCnt := b.length }, ?_⟩
        simp [burstLoop, h1, sclAfter, tBursts]
    | cons c bs =>
      have h1 := burst_ran s ((c :: bs).flatten ++ cs) (List.replicate ((c :: bs).length - 1) false ++ v :: ds) f b false hb0 a n r es
      have hne : r.burstCnt + 1 ≠ s.params.burstMax := by
        cases v <;> simp at hmax <;> omega
      obtain ⟨r', h⟩ := ih m (if b = [] then a else false) (n + (b.length + 1))
        { r with pulseCnt := b.length, burstCnt := r.burstCnt + 1 }
        (es ++ (tBurst s.handle.halfPeriod b ++ [.sample .sda false]) ++ [.waitMs s.params.burstDelayMs])
        (by simp) hbs (by simpa using hfuel) (by
          cases v <;> simp at hmax ⊢ <;> omega)
      refine ⟨r', ?_⟩
      simp only [List.length_cons, Nat.add_sub_cancel, List.replicate_succ, List.flatten_cons, List.cons_append,
        List.append_assoc] at h1 h ⊢
      simp only [burstLoop, h1, setBurstCnt, setRegs_ran, ran_regs, ran_params, if_neg hne, Bool.false_eq_true, if_false,
        waitMs_ran, List.append_assoc]
      simp only [List.cons_append, List.nil_append] at h ⊢
      rw [h]
      have hn : n + (b.length + 1) + ((c ++ bs.flatten).length + (bs.length + 1))
          = n + ((b ++ (c ++ bs.flatten)).length + (bs.length + 1 + 1)) := by simp; omega
      have hscl : sclAfter (if b = [] then a else false) (c :: bs) = sclAfter a (b :: c :: bs) := by
        cases b <;> simp [sclAfter]
      rw [hn, hscl]
      simp [tBursts]

end pulses

section resets

variable (s : State)

/-- The line activity of STOP_SEQ (44_sequence_control.md R122). -/
theorem stopLines_ran (a b : Bool) (vs cs ds : List Level) (v : Level) (n : Nat) (r : PrivateRegs) (f : BitVec 2)
    (es : List Event) (hw : WholeWait s.params.pollMax vs) :
    stopLines (s.ran ⟨a, b⟩ ⟨vs ++ cs, v :: ds, n⟩ r f es)
      = (v, s.ran .released ⟨cs, ds, n + (vs.length + 1)⟩ { r with pollCnt := vs.length - 1 } (waitSf vs f)
          (es ++ (tWait s.params s.handle vs ++ tRelease s.handle.halfPeriod .sda v))) := by
  simp [stopLines, relwait_ran, hw, release_sda_ran, Drv.released, Nat.add_assoc]

/-- The two pulls and the STOP_SEQ at the end of a RESET_SEQ (44_sequence_control.md R124). -/
theorem recoverLines_ran (a b : Bool) (vs cs ds : List Level) (v : Level) (n : Nat) (r : PrivateRegs) (f : BitVec 2)
    (es : List Event) (hw : WholeWait s.params.pollMax vs) :
    recoverLines (s.ran ⟨a, b⟩ ⟨vs ++ cs, v :: ds, n⟩ r f es)
      = (v, s.ran .released ⟨cs, ds, n + (vs.length + 1)⟩ { r with pollCnt := vs.length - 1 } (waitSf vs f)
          (es ++ (tPull s.handle.halfPeriod .scl ++ tPull s.handle.halfPeriod .sda ++ tWait s.params s.handle vs
            ++ tRelease s.handle.halfPeriod .sda v))) := by
  simp [recoverLines, pull_ran, Drv.set, stopLines_ran, hw]

/-- The number of samples of a pass. -/
def ResetPass.samples (p : ResetPass) : Nat := p.sclAnswers.length + p.sdaAnswers.length

theorem sclAfter_released (p : Params) (bs : List (List Level)) (hb : ∀ b ∈ bs, b.length = p.burstPulses)
    (hne : bs ≠ []) (a : Bool) (h : a = false ∨ 1 ≤ p.burstPulses) : sclAfter a bs = false := by
  obtain rfl | h := h
  · simp [sclAfter]
  · cases bs with
    | nil => exact absurd rfl hne
    | cons b bs =>
      have := hb b (by simp)
      cases b with
      | nil => simp at this; omega
      | cons _ _ => simp [sclAfter]

/-- RESET_SEQ once through (44_sequence_control.md R124). -/
theorem resetRound_ran (p : ResetPass) (hp : p.Fits s.params) (hpulses : 1 ≤ s.params.burstPulses) (a b : Bool)
    (cs ds : List Level) (n : Nat) (r : PrivateRegs) (f : BitVec 2) (es : List Event) :
    ∃ r', resetRound (s.ran ⟨a, b⟩ ⟨p.sclAnswers ++ cs, p.sdaAnswers ++ ds, n⟩ r f es)
      = (p.isLast, if p.isLast then
            setXfer false (s.ran .released ⟨cs, ds, n + p.samples⟩ r' (resetSf p f) (es ++ tReset s.params s.handle p))
          else s.ran .released ⟨cs, ds, n + p.samples⟩ r' (resetSf p f) (es ++ tReset s.params s.handle p)) := by
  obtain ⟨first, bs, last⟩ := p
  obtain ⟨hne, hb, hend⟩ := hp
  have hlen : 1 ≤ bs.length := List.length_pos_iff.mpr hne
  have hscl := fun a => sclAfter_released s.params bs hb hne a (.inr hpulses)
  cases last with
  | recovered vs =>
    obtain ⟨hk, hw⟩ := hend
    obtain ⟨r', h⟩ := burstLoop_ran s (vs ++ cs) (true :: ds) f true bs s.params.burstMax a (n + 1)
      { r with burstCnt := 0 } (es ++ tRelease s.handle.halfPeriod .sda first) hne hb hk (by simpa using hk)
    refine ⟨{ r' with pollCnt := vs.length - 1 }, ?_⟩
    simp only [ResetPass.sclAnswers, ResetPass.sdaAnswers, List.append_assoc, List.cons_append, List.nil_append, resetRound,
      release_sda_ran, setBurstCnt, setRegs_ran, ran_params, ran_regs] at h ⊢
    rw [h]
    have hn : n + 1 + (bs.flatten.length + bs.length) + (vs.length + 1)
        = n + ((ResetPass.mk first bs (.recovered vs)).samples) := by
      simp [ResetPass.samples, ResetPass.sclAnswers, ResetPass.sdaAnswers]; omega
    simp only [if_true, hscl, recoverLines_ran s _ _ _ _ _ _ _ _ _ _ hw, hn, ResetPass.isLast, resetSf, tReset,
      ResetEnd.checkedHigh, tResetEnd, List.append_assoc]
  | again vs =>
    obtain ⟨hk, hw⟩ := hend
    obtain ⟨r', h⟩ := burstLoop_ran s (vs ++ cs) (false :: ds) f true bs s.params.burstMax a (n + 1)
      { r with burstCnt := 0 } (es ++ tRelease s.handle.halfPeriod .sda first) hne hb hk (by simpa using hk)
    refine ⟨{ r' with pollCnt := vs.length - 1 }, ?_⟩
    simp only [ResetPass.sclAnswers, ResetPass.sdaAnswers, List.append_assoc, List.cons_append, List.nil_append, resetRound,
      release_sda_ran, setBurstCnt, setRegs_ran, ran_params, ran_regs] at h ⊢
    rw [h]
    have hn : n + 1 + (bs.flatten.length + bs.length) + (vs.length + 1)
        = n + ((ResetPass.mk first bs (.again vs)).samples) := by
      simp [ResetPass.samples, ResetPass.sclAnswers, ResetPass.sdaAnswers]; omega
    simp only [if_true, hscl, recoverLines_ran s _ _ _ _ _ _ _ _ _ _ hw, hn, ResetPass.isLast, resetSf, tReset,
      ResetEnd.checkedHigh, tResetEnd, List.append_assoc, Bool.false_eq_true, if_false]
  | gaveUp =>
    obtain ⟨r', h⟩ := burstLoop_ran s cs ds f false bs s.params.burstMax a (n + 1)
      { r with burstCnt := 0 } (es ++ tRelease s.handle.halfPeriod .sda first) hne hb (le_of_eq hend) (by simpa using hend)
    refine ⟨r', ?_⟩
    simp only [ResetPass.sclAnswers, ResetPass.sdaAnswers, List.append_assoc, List.cons_append, List.nil_append, resetRound,
      release_sda_ran, setBurstCnt, setRegs_ran, ran_params, ran_regs, List.append_nil] at h ⊢
    rw [h]
    have hn : n + 1 + (bs.flatten.length + bs.length)
        = n + ((ResetPass.mk first bs .gaveUp).samples) := by
      simp [ResetPass.samples, ResetPass.sclAnswers, ResetPass.sdaAnswers]; omega
    simp only [Bool.false_eq_true, if_false, hscl, hn, ResetPass.isLast, resetSf, tReset, giveUp, setSfAcc_ran, warn_ran,
      ResetEnd.checkedHigh, tResetEnd, List.append_assoc, if_true, ran_sfAcc, Drv.released]

/-- Step 1 of OPEN_SEQ (41_open.md R101). -/
theorem openLines_ran (d : Drv) (e : Env) (r : PrivateRegs) (f : BitVec 2) (es : List Event) :
    openLines (s.ran d e r f es)
      = s.ran .released e r f (es ++ [.release .scl, .release .sda, .pullup .scl, .pullup .sda]) := by
  simp [openLines, pullup, float, emit_ran, Drv.set, Drv.released]

/-- START_SEQ after its check (44_sequence_control.md R121). -/
theorem startTail_ran (a b : Bool) (vs cs ds : List Level) (n : Nat) (r : PrivateRegs) (f : BitVec 2) (es : List Event)
    (hw : WholeWait s.params.pollMax vs) :
    startTail (s.ran ⟨a, b⟩ ⟨vs ++ cs, ds, n⟩ r f es)
      = setXfer true (s.ran .low ⟨cs, ds, n + vs.length⟩ { r with pollCnt := vs.length - 1 } (waitSf vs f)
          (es ++ (tWait s.params s.handle vs ++ tPull s.handle.halfPeriod .sda ++ tPull s.handle.halfPeriod .scl))) := by
  simp [startTail, relwait_ran, hw, pull_ran, Drv.set, Drv.low]

end resets

/-- An accepted command that ran and ends is `State.ended` (60_exceptions.md R133). -/
theorem complete_ran (s : State) (x : Bool) (d : Drv) (cs ds : List Level) (n : Nat) (r : PrivateRegs) (f : BitVec 2)
    (es : List Event) (val : Byte) :
    complete val (setXfer x ((accept s).ran d ⟨cs, ds, s.env.taken + n⟩ r f es))
      = s.ended { sf := f, val := val, drv := d, xfer := x, scl := cs, sda := ds, samples := n, events := es } := rfl

/-- The same where the transfer state is left alone. -/
theorem complete_ran_xfer (s : State) (d : Drv) (cs ds : List Level) (n : Nat) (r : PrivateRegs) (f : BitVec 2)
    (es : List Event) (val : Byte) :
    complete val ((accept s).ran d ⟨cs, ds, s.env.taken + n⟩ r f es)
      = s.ended { sf := f, val := val, drv := d, xfer := s.xfer, scl := cs, sda := ds, samples := n, events := es } := rfl

/-- A RESET_SEQ whose STOP_SEQ fails leaves its command in progress (44_sequence_control.md R126; log 1). -/
theorem runReset_ran_again (s : State) (ret : Pending) (p : ResetPass) (hp : p.Fits s.params) (hl : p.isLast = false)
    (hpulses : 1 ≤ s.params.burstPulses) (a b : Bool) (cs ds : List Level) (n : Nat) (r : PrivateRegs) (f : BitVec 2)
    (es : List Event) :
    ∃ r', runReset ret (s.ran ⟨a, b⟩ ⟨p.sclAnswers ++ cs, p.sdaAnswers ++ ds, n⟩ r f es)
      = setSeq (.resetNext ret)
          (s.ran .released ⟨cs, ds, n + p.samples⟩ r' (resetSf p f) (es ++ tReset s.params s.handle p)) := by
  obtain ⟨r', h⟩ := resetRound_ran s p hp hpulses a b cs ds n r f es
  exact ⟨r', by simp only [runReset, h, hl, Bool.false_eq_true, if_false]⟩

/-- An accepted command that is left in progress is `State.paused` (log 1). -/
theorem paused_ran (s : State) (ret : Pending) (cs ds : List Level) (n : Nat) (r : PrivateRegs) (f : BitVec 2)
    (es : List Event) :
    setSeq (.resetNext ret) ((accept s).ran .released ⟨cs, ds, s.env.taken + n⟩ r f es)
      = s.paused ret r { sf := f, scl := cs, sda := ds, samples := n, events := es } := rfl

/-- An accepted command begins with no activity. -/
theorem accept_ran (s : State) (cs ds : List Level) (hc : s.env.scl = cs) (hd : s.env.sda = ds) :
    accept s = (accept s).ran ⟨s.drv.scl, s.drv.sda⟩ ⟨cs, ds, s.env.taken⟩ s.regs 0 [] := by
  subst hc hd; rfl

end Sys2Proof.Machine
end

