-- ==== Sys2Proof/Laws/RunTransfers.lean ====
section
/-! SUPPORT. What the bit and byte sequences make of a state on given answers of the environment. -/

namespace Sys2Proof.Machine

section bits

variable (s : State) (a b : Bool) (cs ds : List Level) (n : Nat) (r : PrivateRegs) (f : BitVec 2) (es : List Event)

theorem endBit_ran (e : Env) (d : Drv) :
    endBit (s.ran d e r f es)
      = s.ran .low e r f (es ++ (tPull s.handle.halfPeriod .scl ++ tPull s.handle.halfPeriod .sda)) := by
  cases d; simp [endBit, pull_ran, Drv.set, Drv.low]

/-- SENDBIT_SEQ(x) (42_bit_transfer.md R105). -/
theorem sendBitSeq_ran (x : Byte) (w : BitSlot) (hw : WholeWait s.params.pollMax w.wait) :
    sendBitSeq x (s.ran ⟨a, b⟩ ⟨w.wait ++ cs, sdaOfSend (sentBit x) w ++ ds, n⟩ r f es)
      = s.ran .low ⟨cs, ds, n + ((sdaOfSend (sentBit x) w).length + w.wait.length)⟩ { r with pollCnt := w.wait.length - 1 }
          (waitSf w.wait f) (es ++ tSendBit s.params s.handle (sentBit x) w) := by
  cases h : sentBit x
  · simp [sendBitSeq, presentBit, h, sdaOfSend, pull_ran, Drv.set, relwait_ran, hw, endBit_ran, tSendBit]
  · simp [sendBitSeq, presentBit, h, sdaOfSend, release_sda_ran, relwait_ran, hw, endBit_ran, tSendBit, Nat.add_assoc]

/-- READBIT_SEQ() (42_bit_transfer.md R106). -/
theorem readBitSeq_ran (w : BitSlot) (hw : WholeWait s.params.pollMax w.wait) :
    readBitSeq (s.ran ⟨a, b⟩ ⟨w.wait ++ cs, sdaOfRead w ++ ds, n⟩ r f es)
      = (w.result, s.ran .low ⟨cs, ds, n + (2 + w.wait.length)⟩ { r with pollCnt := w.wait.length - 1 }
          (waitSf w.wait f) (es ++ tReadBit s.params s.handle w)) := by
  simp [readBitSeq, sdaOfRead, release_sda_ran, relwait_ran, hw, sample_sda_ran, endBit_ran, tReadBit]
  congr 2; omega

end bits

/-- The bits that `n` rounds of the shift register present. -/
def topBits : Nat → Byte → List Level
  | 0, _ => []
  | n + 1, x => sentBit (topBit x) :: topBits n (shiftOut x)

theorem topBits_eight (x : Byte) : topBits 8 x = wireBits x := by
  revert x; decide +kernel

/-- The SDA answers a row of sent bits takes. -/
def sdaOfSends (bits : List Level) (ws : List BitSlot) : List Level :=
  (List.zipWith sdaOfSend bits ws).flatten

section loops

variable (s : State)

/-- The loop of SENDBYTE_SEQ (43_byte_transfer.md R110). -/
theorem sendBits_ran (ws : List BitSlot) :
    ∀ (a b : Bool) (cs ds : List Level) (n : Nat) (r : PrivateRegs) (f : BitVec 2) (es : List Event),
      (∀ w ∈ ws, WholeWait s.params.pollMax w.wait) →
      ∃ a' b' r', sendBits ws.length (s.ran ⟨a, b⟩
            ⟨ws.flatMap (·.wait) ++ cs, sdaOfSends (topBits ws.length r.shr) ws ++ ds, n⟩ r f es)
        = s.ran ⟨a', b'⟩ ⟨cs, ds, n + ((sdaOfSends (topBits ws.length r.shr) ws).length + (ws.flatMap (·.wait)).length)⟩ r'
            (slotsSf f ws)
            (es ++ (List.zipWith (tSendBit s.params s.handle) (topBits ws.length r.shr) ws).flatten) := by
  induction ws with
  | nil => intro a b cs ds n r f es _; exact ⟨a, b, r, by simp [sendBits, sdaOfSends, topBits, slotsSf]⟩
  | cons w ws ih =>
    intro a b cs ds n r f es hw
    have hw0 := hw w (by simp)
    have hws : ∀ v ∈ ws, WholeWait s.params.pollMax v.wait := fun v hv => hw v (by simp [hv])
    obtain ⟨a', b', r', h⟩ := ih true true cs ds (n + ((sdaOfSend (sentBit (topBit r.shr)) w).length + w.wait.length))
      { r with pollCnt := w.wait.length - 1, shr := shiftOut r.shr, bitCnt := r.bitCnt + 1 } (waitSf w.wait f)
      (es ++ tSendBit s.params s.handle (sentBit (topBit r.shr)) w) hws
    refine ⟨a', b', r', ?_⟩
    have h1 := sendBitSeq_ran s a b (ws.flatMap (·.wait) ++ cs) (sdaOfSends (topBits ws.length (shiftOut r.shr)) ws ++ ds) n r f es
      (topBit r.shr) w hw0
    simp only [List.length_cons, sendBits, topBits, List.flatMap_cons, sdaOfSends, List.zipWith_cons_cons, List.flatten_cons,
      List.append_assoc, ran_regs] at h1 ⊢
    rw [h1]
    simp only [shiftShr, ran_regs, setRegs_ran, Drv.low]
    rw [sdaOfSends] at h
    rw [h]
    simp only [slotsSf, List.length_append, List.append_assoc]
    congr 2; omega

/-- The loop of READBYTE_SEQ (43_byte_transfer.md R111). -/
theorem readBits_ran (ws : List BitSlot) :
    ∀ (a b : Bool) (cs ds : List Level) (n : Nat) (r : PrivateRegs) (f : BitVec 2) (es : List Event),
      (∀ w ∈ ws, WholeWait s.params.pollMax w.wait) →
      ∃ a' b' r', r'.acc = (ws.map (·.result)).foldl shiftIn r.acc ∧ (ws ≠ [] → a' = true ∧ b' = true) ∧
        readBits ws.length (s.ran ⟨a, b⟩ ⟨ws.flatMap (·.wait) ++ cs, ws.flatMap sdaOfRead ++ ds, n⟩ r f es)
          = s.ran ⟨a', b'⟩ ⟨cs, ds, n + (2 * ws.length + (ws.flatMap (·.wait)).length)⟩ r' (slotsSf f ws)
              (es ++ ws.flatMap (tReadBit s.params s.handle)) := by
  induction ws with
  | nil => intro a b cs ds n r f es _; exact ⟨a, b, r, by simp, by simp, by simp [readBits, slotsSf]⟩
  | cons w ws ih =>
    intro a b cs ds n r f es hw
    have hw0 := hw w (by simp)
    have hws : ∀ v ∈ ws, WholeWait s.params.pollMax v.wait := fun v hv => hw v (by simp [hv])
    obtain ⟨a', b', r', ha, hd, h⟩ := ih true true cs ds (n + (2 + w.wait.length))
      { r with pollCnt := w.wait.length - 1, acc := shiftIn r.acc w.result, bitCnt := r.bitCnt + 1 } (waitSf w.wait f)
      (es ++ tReadBit s.params s.handle w) hws
    have hd' : a' = true ∧ b' = true := by
      cases ws with
      | nil => have := congrArg State.drv h; simp [readBits] at this; simp [this]
      | cons _ _ => exact hd (by simp)
    refine ⟨a', b', r', by simpa using ha, fun _ => hd', ?_⟩
    have h1 := readBitSeq_ran s a b (ws.flatMap (·.wait) ++ cs) (ws.flatMap sdaOfRead ++ ds) n r f es w hw0
    simp only [List.length_cons, readBits, List.flatMap_cons, List.append_assoc] at h1 ⊢
    rw [h1]
    simp only [shiftAcc, ran_regs, setRegs_ran, Drv.low]
    rw [h]
    simp only [slotsSf, List.length_append, List.append_assoc]
    congr 2; omega

end loops

end Sys2Proof.Machine
end

