-- ==== Sys2Proof/Laws/Traces.lean ====
section
/-! SUPPORT. The traces of every run of every command, legal instance or not: one induction over the actions shows that they settle,
that no driven line is sampled, and what their diagnostics say; `exec_acts` carries it to the commands. -/

namespace Sys2Proof.Machine

/-! ### Appending traces -/

theorem settled_append (T : Micros) (a b : List Event) (ha : Settled T a) (hb : Settled T b) : Settled T (a ++ b) := by
  induction a with
  | nil => exact hb
  | cons e a ih =>
    cases e <;> simp only [List.cons_append, Settled] at ha ⊢
    case drive => refine ⟨?_, ih ha.2⟩; cases a <;> simp_all
    case release => refine ⟨?_, ih ha.2⟩; cases a <;> simp_all
    all_goals exact ih ha

theorem samplesReleased_append (a b : List Event) (d : Drv) (ha : SamplesReleased d a)
    (hb : SamplesReleased (a.foldl Drv.after d) b) : SamplesReleased d (a ++ b) := by
  induction a generalizing d with
  | nil => exact hb
  | cons e a ih =>
    cases e <;> simp only [List.cons_append, SamplesReleased, List.foldl_cons, Drv.after] at ha hb ⊢
    case sample => exact ⟨ha.1, ih _ ha.2 hb⟩
    all_goals exact ih _ ha hb

/-! ### The trace of a chain of actions -/

/-- What the trace `es` of line activity from `s` to `t` is like. -/
structure TraceOf (s t : State) (es : List Event) : Prop where
  log : t.log = record es s.log
  drv : t.drv = es.foldl Drv.after s.drv
  settled : Settled s.T es
  released : SamplesReleased s.drv es
  /-- The soft-failure bits are sticky. -/
  sticky : ∀ n, s.sfAcc.getLsbD n = true → t.sfAcc.getLsbD n = true
  diags : ∀ code l, Event.diag code l ∈ es → s.handle.warn = true ∧
    ((code = .waitTimeout ∧ l = .scl ∧ t.sfAcc.getLsbD 0 = true) ∨ (code = .resetGiveup ∧ l = .sda ∧ t.sfAcc.getLsbD 1 = true))

theorem setTmo_bit (f : BitVec 2) : (setTmo f).getLsbD 0 = true := by revert f; decide
theorem setRst_bit (f : BitVec 2) : (setRst f).getLsbD 1 = true := by revert f; decide

theorem Act.trace {s t : State} (h : Act s t) : ∃ es, TraceOf s t es := by
  cases h with
  | pulled l =>
    exact ⟨tPull s.T l, rfl, rfl, by simp [tPull, Settled], by simp [tPull, SamplesReleased], fun _ h => h, by simp [tPull]⟩
  | released l =>
    obtain ⟨e, h⟩ := sample_snd l (waitHalf (float l s))
    refine ⟨tRelease s.T l (sample l (waitHalf (float l s))).1, ?_, by simp [tRelease, Drv.after], by simp [tRelease, Settled], ?_, ?_,
      by simp [tRelease]⟩
    · simp only [release, h]; rfl
    · cases l <;> simp [tRelease, SamplesReleased, Drv.get, Drv.set]
    · intro n hn; simpa using hn
  | checked _ h' =>
    obtain ⟨e, h⟩ := sample_snd .sda s
    exact ⟨[.sample .sda (sample .sda s).1], by simp only [h]; rfl, by simp [Drv.after], by simp [Settled],
      by simp [SamplesReleased, Drv.get, h'], fun n hn => by simpa using hn, by simp⟩
  | polled _ h' =>
    obtain ⟨e, h⟩ := sample_snd .scl (waitMs s.params.pollIntervalMs s)
    exact ⟨[.waitMs s.params.pollIntervalMs, .sample .scl (sample .scl (waitMs s.params.pollIntervalMs s)).1],
      by simp only [h]; rfl, by simp [Drv.after], by simp [Settled], by simp [SamplesReleased, Drv.get, h'],
      fun n hn => by simpa [waitMs] using hn, by simp⟩
  | delayed =>
    exact ⟨[.waitMs s.params.burstDelayMs], rfl, rfl, by simp [Settled], by simp [SamplesReleased], fun _ h => h, by simp⟩
  | timedOut =>
    have hs : ∀ n, s.sfAcc.getLsbD n = true → (setTmo s.sfAcc).getLsbD n = true := fun n h => by simp [setTmo, h]
    have hb := setTmo_bit s.sfAcc
    cases h : s.handle.warn
    · exact ⟨[], by simp [timeOut, warn, h, record], by simp, trivial, trivial, fun n hn => by simpa [timeOut] using hs n hn, by simp⟩
    · exact ⟨[.diag .waitTimeout .scl], by simp [timeOut, warn, h, record, emit], by simp [Drv.after], by simp [Settled],
        by simp [SamplesReleased], fun n hn => by simpa [timeOut] using hs n hn, by simp [timeOut, h, hb]⟩
  | gaveUp =>
    have hs : ∀ n, s.sfAcc.getLsbD n = true → (setRst s.sfAcc).getLsbD n = true := fun n h => by simp [setRst, h]
    have hb := setRst_bit s.sfAcc
    cases h : s.handle.warn
    · exact ⟨[], by simp [warn, h, record], by simp, trivial, trivial, fun n hn => by simpa using hs n hn, by simp⟩
    · exact ⟨[.diag .resetGiveup .sda], by simp [warn, h, record, emit], by simp [Drv.after], by simp [Settled],
        by simp [SamplesReleased], fun n hn => by simpa using hs n hn, by simp [h, hb]⟩
  | regsSet => exact ⟨[], rfl, rfl, trivial, trivial, fun _ h => h, by simp⟩

theorem Acts.trace {s t : State} (h : Acts s t) : ∃ es, TraceOf s t es := by
  induction h with
  | nil => exact ⟨[], rfl, rfl, trivial, trivial, fun _ h => h, by simp⟩
  | snoc h a ih =>
    obtain ⟨es, he⟩ := ih
    obtain ⟨fs, hf⟩ := a.trace
    refine ⟨es ++ fs, by rw [hf.log, he.log, record_trans], by rw [hf.drv, he.drv, List.foldl_append], ?_, ?_,
      fun n hn => hf.sticky n (he.sticky n hn), ?_⟩
    · have := hf.settled; rw [h.T] at this; exact settled_append _ _ _ he.settled this
    · have := hf.released; rw [he.drv] at this; exact samplesReleased_append _ _ _ he.released this
    · intro code l hm
      rw [List.mem_append] at hm
      obtain hm | hm := hm
      · obtain ⟨hw, hd | hd⟩ := he.diags code l hm
        · exact ⟨hw, .inl ⟨hd.1, hd.2.1, hf.sticky 0 hd.2.2⟩⟩
        · exact ⟨hw, .inr ⟨hd.1, hd.2.1, hf.sticky 1 hd.2.2⟩⟩
      · obtain ⟨hw, hd⟩ := hf.diags code l hm
        rw [h.untouched.handle] at hw
        exact ⟨hw, hd⟩

/-! ### Commands -/

/-- A RESET_SEQ with what follows it is line activity that ends with the response, or that goes on. -/
theorem runReset_acts (ret : Pending) (s : State) :
    ∃ u, Acts s u ∧ ((∃ x, runReset ret s = complete 0 (setXfer x u)) ∨ runReset ret s = setSeq (.resetNext ret) u) := by
  obtain ⟨t, ht, h⟩ := resetRound_acts s
  by_cases hr : (resetRound s).1 = true
  · rw [if_pos hr] at h
    cases ret with
    | nothing => exact ⟨t, ht, .inl ⟨false, by simp [runReset, hr, h, finish]⟩⟩
    | toStart =>
      obtain ⟨u, hu, hs⟩ := startTail_acts t
      exact ⟨u, ht.trans hu, .inl ⟨true, by simp only [runReset, hr, h, finish, startTail_setXfer, hs]; rfl⟩⟩
  · rw [if_neg hr] at h
    exact ⟨t, ht, .inr (by simp [runReset, hr, h])⟩

/-- The state in which the line activity of an accepted command begins. -/
def Begins (i : Instr) (s b : State) : Prop :=
  (i ≠ .openBus ∧ b = accept s) ∨ (i = .openBus ∧ b = openLines (accept (construct s.openOperands s)))

/-- THE INVERSION LEMMA OF `exec` FOR EVERY INSTANCE: rejected, or line activity that ends with the response, or that goes on. -/
theorem exec_acts {i : Instr} {s t : State} (h : exec i s = .next t) :
    (∃ e, t = reject e s ∧ (i = .openBus → s.openOperands.acceptable = false)) ∨
    ∃ b u, Begins i s b ∧ Acts b u ∧ ((∃ v x, t = complete v (setXfer x u)) ∨ ∃ ret, t = setSeq (.resetNext ret) u) := by
  have hreset : ∀ ret b u, Begins i s b → Acts b u → t = runReset ret u →
      ∃ b u, Begins i s b ∧ Acts b u ∧ ((∃ v x, t = complete v (setXfer x u)) ∨ ∃ ret, t = setSeq (.resetNext ret) u) := by
    intro ret b u hb hu ht
    obtain ⟨w, hw, ⟨x, h⟩ | h⟩ := runReset_acts ret u
    · exact ⟨b, w, hb, hu.trans hw, .inl ⟨0, x, ht.trans h⟩⟩
    · exact ⟨b, w, hb, hu.trans hw, .inr ⟨ret, ht.trans h⟩⟩
  obtain rfl | hi | hi := Instr.kinds i
  · by_cases ha : s.openOperands.acceptable = true
    · simp only [exec, execOpen, ha, if_true] at h; injection h with h
      exact .inr (hreset _ _ _ (.inr ⟨rfl, rfl⟩) (.nil _) h.symm)
    · rw [exec_badConfig s (by simpa using ha)] at h; injection h with h
      exact .inl ⟨_, h.symm, fun _ => by simpa using ha⟩
  all_goals
    have hne : i ≠ .openBus := by rintro rfl; simp [Instr.IsTransfer, Instr.IsSequence] at hi
    by_cases ho : s.opened = true
    case neg =>
      rw [exec_notOpen i hne s (by simpa using ho)] at h; injection h with h
      exact .inl ⟨_, h.symm, fun h => absurd h hne⟩
  · obtain ⟨u, val, h1, -, -, h4⟩ := exec_transfer i hi s ho
    rw [h4] at h; injection h with h
    exact .inr ⟨_, u, .inl ⟨hne, rfl⟩, h1, .inl ⟨val, u.xfer, h.symm⟩⟩
  · right
    have hb : Begins i s (accept s) := .inl ⟨hne, rfl⟩
    obtain rfl | rfl | rfl := hi
    · simp only [exec, execStart, ho, if_true] at h; injection h with h
      have h1 : Acts (accept s) (release .sda (accept s)).2 := .one (.released ..)
      by_cases hv : (release .sda (accept s)).1 = true
      · obtain ⟨u, hu, hs⟩ := startTail_acts (release .sda (accept s)).2
        exact ⟨_, u, hb, h1.trans hu, .inl ⟨0, true, by rw [← h]; simp only [startSeq, hv, if_true, finish, hs]⟩⟩
      · exact hreset .toStart _ _ hb h1 (by rw [← h]; simp only [startSeq, hv, if_false, Bool.false_eq_true])
    · simp only [exec, execStop, ho, if_true] at h; injection h with h
      have h1 : Acts (accept s) (stopLines (accept s)).2 := stopLines_acts _
      by_cases hv : (stopLines (accept s)).1 = true
      · exact ⟨_, _, hb, h1, .inl ⟨0, false, by rw [← h]; simp only [stopSeq, hv, if_true]⟩⟩
      · exact hreset .nothing _ _ hb h1 (by rw [← h]; simp only [stopSeq, hv, if_false, Bool.false_eq_true])
    · simp only [exec, execReset, ho, if_true] at h; injection h with h
      exact hreset .nothing _ _ hb (.nil _) h.symm

/-- A step that finds a command in progress goes on with it by line activity, up to the response or to the next failed rise. -/
theorem step_resume_acts {s t : State} (hr : s.rstIn = none) (hb : s.busy = true) (h : step s = .next t) :
    ∃ u, Acts s u ∧ ((∃ v x, t = complete v (setXfer x u)) ∨ ∃ ret, t = setSeq (.resetNext ret) u) := by
  obtain ⟨-, ⟨-, h⟩ | ⟨hr', -⟩ | ⟨k, u, hr', -⟩⟩ := step_cases h
  · obtain ⟨-, ret, -, rfl⟩ | ⟨hb', -⟩ | ⟨hb', -⟩ := stepPort_cases h
    · obtain ⟨u, hu, ⟨x, h⟩ | h⟩ := runReset_acts ret s
      · exact ⟨u, hu, .inl ⟨0, x, h⟩⟩
      · exact ⟨u, hu, .inr ⟨ret, h⟩⟩
    all_goals rw [hb] at hb'; cases hb'
  all_goals rw [hr] at hr'; cases hr'

/-- What line activity and its end show in the record: events, and the response if the command has ended. -/
theorem Acts.emitted {s u t : State} (hu : Acts s u)
    (ht : (∃ v x, t = complete v (setXfer x u)) ∨ ∃ ret, t = setSeq (.resetNext ret) u) :
    ∃ es, Emitted s t es ∧ TraceOf s u es ∧ t.sfAcc = u.sfAcc ∧ t.handle = s.handle := by
  obtain ⟨es, he⟩ := hu.trace
  have hh := hu.untouched.handle
  obtain ⟨v, x, rfl⟩ | ⟨ret, rfl⟩ := ht
  · exact ⟨es, .inr (by simp [he.log]), he, by simp, by simpa using hh⟩
  · exact ⟨es, .inl he.log, he, rfl, hh⟩

/-- A prefix of a trace samples no driven line either. -/
theorem samplesReleased_take (n : Nat) (d : Drv) (es : List Event) (h : SamplesReleased d es) : SamplesReleased d (es.take n) := by
  induction es generalizing n d with
  | nil => simp [SamplesReleased]
  | cons e es ih =>
    cases n with
    | zero => trivial
    | succ n =>
      cases e <;> simp only [List.take_succ_cons, SamplesReleased] at h ⊢
      case sample => exact ⟨h.1, ih n _ h.2⟩
      all_goals exact ih n _ h

/-- The events that a record shows, whether or not a response followed. -/
theorem Emitted.eventsSince {s t : State} {es : List Event} (h : Emitted s t es) : Machine.eventsSince s t = es := by
  obtain h | h := h
  · exact eventsSince_record h
  · exact eventsSince_rsp h

end Sys2Proof.Machine
end

