-- ==== Sys2Proof/Tests/Slice0.lean ====
section
/-! SUPPORT. The model's own tests: ill-formed terms refused, words written out from the opcode map, single commands on the vectors of
95_test_vectors.md, and for every obligation with hypotheses a state and operands that meet them. -/

namespace Sys2Proof.Machine

/-! ### WellFormed refuses -/

theorem test_pollMax_zero_refused : ({ Config.reference with pollMax := 0 } : Params).wellFormed = false := by decide
theorem test_burstPulses_zero_refused : ({ Config.reference with burstPulses := 0 } : Params).wellFormed = false := by decide
theorem test_burstMax_zero_refused : ({ Config.reference with burstMax := 0 } : Params).wellFormed = false := by decide
theorem test_reference_accepted : Config.reference.wellFormed = true := by decide
theorem test_addrW_128_refused : (Pseudo.addrW 128).wellFormed = false := by decide
theorem test_addrR_128_refused : (Pseudo.addrR 128).wellFormed = false := by decide
theorem test_addr_127_accepted : (Pseudo.addrW 127).wellFormed = true ∧ (Pseudo.addrR 127).wellFormed = true := by decide

/-! ### Words written out bit by bit (30_encoding.md R70, R71; 95_test_vectors.md V1) -/

theorem test_decode_open : decode 0b000100000000 = some .openBus := by decide
theorem test_decode_start : decode 0b001000000000 = some .start := by decide
theorem test_decode_stop : decode 0b001100000000 = some .stop := by decide
theorem test_decode_reset : decode 0b010000000000 = some .reset := by decide
theorem test_decode_sendbit : decode 0b010110000000 = some (.sendBit 0b10000000) := by decide
theorem test_decode_readbit : decode 0b011000000000 = some .readBit := by decide
theorem test_decode_sendbyte : decode 0b011110100001 = some (.sendByte 0b10100001) := by decide
theorem test_decode_readbyte : decode 0b100000000000 = some .readByte := by decide
theorem test_decode_reserved_operand : decodeNamed 0b011000000001 = .error .operand := by rfl
theorem test_decode_reserved_opcode : decodeNamed 0b100110101011 = .error .opcode := by rfl
theorem test_table_word : decodeTableWord 16 0x758 = some (.sendByte 0x58) ∧ decodeTableWord 16 0x1758 = none := by decide

/-! ### The assembler (30_encoding.md R80, R81) -/

theorem test_asm_trailing_operand : assemble "START 1".toList = none := by decide +kernel
theorem test_asm_byte_too_large : assemble "SENDBYTE 256".toList = none := by decide +kernel

/-! ### Single commands on small states -/

/-- A controller with the handle of the vectors (`FREQ` 100000), its two drive bits and `XFER` as given. -/
def tState (p : Params) (warn low xfer : Bool) (scl sda : List Level) : State :=
  { State.reset with
    params := p
    handle := { sclId := ⟨0⟩, sdaId := ⟨1⟩, freq := 100000, warn := warn }
    drv := { scl := low, sda := low }
    opened := true
    xfer := xfer
    env := { scl := scl, sda := sda, taken := 0 } }

/-- IDLE of the vectors. -/
def tIdle (p : Params) (warn : Bool) (scl sda : List Level) : State := tState p warn false false scl sda

/-- LOW of the vectors. -/
def tLow (p : Params) (warn : Bool) (scl sda : List Level) : State := tState p warn true true scl sda

/-- The small instances of the vectors. -/
def tPoll2 : Params := { Config.reference with pollMax := 2 }

/-- The small instances of the vectors with two bursts of two pulses. -/
def tBurst2 : Params := { Config.reference with pollMax := 2, burstPulses := 2, burstMax := 2 }

/-- Five microseconds, `T` at 100000 Hz (V60). -/
def t5 : Micros := { num := 5, den := 1 }

/-- What a command shows: its events, the response, STATUS. -/
def shown (s : State) (o : Host.Outcome State Fault Refusal) : Option (List Event × RspWord × BitVec 12) :=
  match o with
  | .next t => some (eventsSince s t, t.rsp, t.status)
  | .fault _ => none
  | .refused _ => none

/-- How many events, the response, STATUS. -/
def counted (s : State) (o : Host.Outcome State Fault Refusal) : Option (Nat × RspWord × BitVec 12) :=
  (shown s o).map fun r => (r.1.length, r.2.1, r.2.2)

abbrev hi (n : Nat) : List Level := List.replicate n true
abbrev lo (n : Nat) : List Level := List.replicate n false

/-- V20. -/
theorem test_sendbit_zero :
    shown (tLow Config.reference false (hi 1) []) (exec (.sendBit 0) (tLow Config.reference false (hi 1) []))
      = some ([.drive .sda, .waitUs t5, .release .scl, .waitUs t5, .sample .scl true, .drive .scl, .waitUs t5, .drive .sda,
          .waitUs t5], 0x000, 0x01D) := by decide +kernel

/-- V25: the clock never rises. -/
theorem test_sendbit_timeout :
    shown (tLow tPoll2 false (lo 3) []) (exec (.sendBit 0) (tLow tPoll2 false (lo 3) []))
      = some ([.drive .sda, .waitUs t5, .release .scl, .waitUs t5, .sample .scl false, .waitMs 100, .sample .scl false,
          .waitMs 100, .sample .scl false, .drive .scl, .waitUs t5, .drive .sda, .waitUs t5], 0x100, 0x01D) := by decide +kernel

/-- V28: the result is the second sample of SDA. -/
theorem test_readbit_second_sample :
    counted (tLow Config.reference false [true] [true, false]) (exec .readBit (tLow Config.reference false [true] [true, false]))
      = some (11, 0x000, 0x01D) := by decide +kernel

/-- V29: SDA is sampled although the clock never rose. -/
theorem test_readbit_timeout :
    shown (tLow tPoll2 true (lo 3) (hi 2)) (exec .readBit (tLow tPoll2 true (lo 3) (hi 2)))
      = some ([.release .sda, .waitUs t5, .sample .sda true, .release .scl, .waitUs t5, .sample .scl false, .waitMs 100,
          .sample .scl false, .waitMs 100, .sample .scl false, .diag .waitTimeout .scl, .sample .sda true, .drive .scl, .waitUs t5,
          .drive .sda, .waitUs t5], 0x101, 0x01D) := by decide +kernel

/-- V32: 0xA0 acknowledged, 85 events, the bits at the nine falling clock edges of a quiet wire but for the ack. -/
theorem test_sendbyte_a0 :
    counted (tLow Config.reference false (hi 9) (hi 2 ++ lo 2)) (exec (.sendByte 0xA0) (tLow Config.reference false (hi 9) (hi 2 ++ lo 2)))
      = some (85, 0x000, 0x01D) := by decide +kernel

/-- V37: every one of the nine clock waits runs out, NACK. -/
theorem test_sendbyte_timeouts :
    counted (tLow tPoll2 false (lo 27) (hi 2)) (exec (.sendByte 0x00) (tLow tPoll2 false (lo 27) (hi 2)))
      = some (119, 0x101, 0x01D) := by decide +kernel

/-- V34: 0x58. -/
theorem test_readbyte_58 :
    counted (tLow Config.reference false (hi 8)
        [false, false, true, true, false, false, true, true, true, true, false, false, false, false, false, false])
      (exec .readByte (tLow Config.reference false (hi 8)
        [false, false, true, true, false, false, true, true, true, true, false, false, false, false, false, false]))
      = some (88, 0x058, 0x01D) := by decide +kernel

/-- V35, quiet. -/
theorem test_readbyte_quiet :
    counted (tLow Config.reference false (hi 8) (hi 16)) (exec .readByte (tLow Config.reference false (hi 8) (hi 16)))
      = some (88, 0x0FF, 0x01D) := by decide +kernel

/-- V40. -/
theorem test_start :
    shown (tIdle Config.reference false (hi 1) (hi 1)) (exec .start (tIdle Config.reference false (hi 1) (hi 1)))
      = some ([.release .sda, .waitUs t5, .sample .sda true, .release .scl, .waitUs t5, .sample .scl true, .drive .sda, .waitUs t5,
          .drive .scl, .waitUs t5], 0x000, 0x01D) := by decide +kernel

/-- V45: the reset inside gives up and the start goes on. -/
theorem test_start_after_giveup :
    counted (tIdle tBurst2 false (hi 5) (lo 4)) (exec .start (tIdle tBurst2 false (hi 5) (lo 4)))
      = some (36, 0x200, 0x01D) := by decide +kernel

/-- V47. -/
theorem test_stop_timeout :
    shown (tLow tPoll2 true (lo 3) (hi 1)) (exec .stop (tLow tPoll2 true (lo 3) (hi 1)))
      = some ([.release .scl, .waitUs t5, .sample .scl false, .waitMs 100, .sample .scl false, .waitMs 100, .sample .scl false,
          .diag .waitTimeout .scl, .release .sda, .waitUs t5, .sample .sda true], 0x100, 0x001) := by decide +kernel

/-- V44: SDA fails to rise once, then the reset inside ends with a second stop that sees it high. -/
theorem test_stop_after_failed_rise :
    counted (tLow Config.reference false (hi 12) (false :: hi 3)) (exec .stop (tLow Config.reference false (hi 12) (false :: hi 3)))
      = some (70, 0x000, 0x001) := by decide +kernel

/-- V46. -/
theorem test_reset_quiet :
    counted (tIdle Config.reference false (hi 11) (hi 3)) (exec .reset (tIdle Config.reference false (hi 11) (hi 3)))
      = some (64, 0x000, 0x001) := by decide +kernel

/-- V43, the small instance in full. -/
theorem test_reset_giveup :
    shown (tIdle tBurst2 true (hi 4) (lo 3)) (exec .reset (tIdle tBurst2 true (hi 4) (lo 3)))
      = some ([.release .sda, .waitUs t5, .sample .sda false,
          .drive .scl, .waitUs t5, .release .scl, .waitUs t5, .sample .scl true,
          .drive .scl, .waitUs t5, .release .scl, .waitUs t5, .sample .scl true,
          .sample .sda false, .waitMs 10,
          .drive .scl, .waitUs t5, .release .scl, .waitUs t5, .sample .scl true,
          .drive .scl, .waitUs t5, .release .scl, .waitUs t5, .sample .scl true,
          .sample .sda false, .diag .resetGiveup .sda], 0x200, 0x001) := by decide +kernel

/-- CLOSED of the vectors, with configuration inputs and answers. -/
def tClosed (p : Params) (c : Handle) (scl sda : List Level) : State :=
  { State.reset with params := p, cfg := c, env := { scl := scl, sda := sda, taken := 0 } }

/-- V52: both lines held low for ever. -/
theorem test_open_giveup :
    shown (tClosed tBurst2 ⟨⟨9⟩, ⟨8⟩, 100000, true⟩ (lo 4) (lo 3)) (exec .openBus (tClosed tBurst2 ⟨⟨9⟩, ⟨8⟩, 100000, true⟩ (lo 4) (lo 3)))
      = some ([.release .scl, .release .sda, .pullup .scl, .pullup .sda, .release .sda, .waitUs t5, .sample .sda false,
          .drive .scl, .waitUs t5, .release .scl, .waitUs t5, .sample .scl false,
          .drive .scl, .waitUs t5, .release .scl, .waitUs t5, .sample .scl false,
          .sample .sda false, .waitMs 10,
          .drive .scl, .waitUs t5, .release .scl, .waitUs t5, .sample .scl false,
          .drive .scl, .waitUs t5, .release .scl, .waitUs t5, .sample .scl false,
          .sample .sda false, .diag .resetGiveup .sda], 0x200, 0x001) := by decide +kernel

/-- V53: a re-open from LOW at another rate. -/
theorem test_reopen :
    counted { tLow Config.reference false (hi 11) (hi 3) with cfg := ⟨⟨3⟩, ⟨4⟩, 200000, true⟩ }
        (exec .openBus { tLow Config.reference false (hi 11) (hi 3) with cfg := ⟨⟨3⟩, ⟨4⟩, 200000, true⟩ })
      = some (68, 0x000, 0x001) := by decide +kernel

/-- V61, V62. -/
theorem test_half_periods :
    (Handle.mk ⟨0⟩ ⟨1⟩ 200000 false).halfPeriod = { num := 5, den := 2 } ∧
    (Handle.mk ⟨0⟩ ⟨1⟩ 3 false).halfPeriod = { num := 500000, den := 3 } ∧
    (Handle.mk ⟨0⟩ ⟨1⟩ 4294967295 false).halfPeriod = { num := 100000, den := 858993459 } := by decide +kernel

/-- V5: a reserved word before `OPEN` is answered for its decoding. -/
theorem test_reserved_before_open :
    counted { State.reset with cmds := [0x101] } (step { State.reset with cmds := [0x101] }) = some (0, 0x400, 0x000) := by
  decide +kernel

/-- V4. -/
theorem test_readbyte_before_open :
    counted { State.reset with cmds := [0x800] } (step { State.reset with cmds := [0x800] }) = some (0, 0x800, 0x000) := by
  decide +kernel

/-- V6: equal identifiers. -/
theorem test_open_equal_identifiers :
    counted { State.reset with cmds := [0x100], cfg := ⟨⟨7⟩, ⟨7⟩, 100000, false⟩ }
        (step { State.reset with cmds := [0x100], cfg := ⟨⟨7⟩, ⟨7⟩, 100000, false⟩ })
      = some (0, 0xC00, 0x000) := by decide +kernel

/-- `rst` after the second event of a START: two events and the state of power-on reset (70_reset_and_hazards.md R160). -/
theorem test_rst_in_command :
    shown { tIdle Config.reference false (hi 1) (hi 1) with cmds := [0x200], rstIn := some 2 }
        (step { tIdle Config.reference false (hi 1) (hi 1) with cmds := [0x200], rstIn := some 2 })
      = some ([.release .sda, .waitUs t5], 0x000, 0x000) := by decide +kernel

/-! ### Witnesses: states and operands that meet the hypotheses of each obligation together -/

/-- A whole wait that rises at once, one that rises at the last poll, and one that runs out. -/
theorem wait_at_once (n : Nat) : WholeWait n [true] := .inl ⟨0, Nat.zero_le _, rfl⟩
theorem wait_last_poll : WholeWait 2 [false, false, true] := .inl ⟨2, by decide, rfl⟩
theorem wait_runs_out : WholeWait 2 [false, false, false] := .inr rfl

/-- A bit slot of the quiet environment, and one whose clock wait runs out on an instance with `POLL_MAX` 2. -/
def tSlot : BitSlot := { first := true, wait := [true], result := true }
def tSlotLow : BitSlot := { first := false, wait := lo 3, result := false }

/-- Passes of a RESET_SEQ on the small instance: recovered in the last burst allowed, not ended, given up. -/
def tRecovered : ResetPass := { first := false, bursts := [hi 2, hi 2], last := .recovered (lo 3) }
def tAgain : ResetPass := { first := true, bursts := [lo 2], last := .again [true] }
def tGaveUp : ResetPass := { first := false, bursts := [hi 2, lo 2], last := .gaveUp }

theorem recovered_fits : tRecovered.Fits tBurst2 :=
  ⟨by decide, by decide, by decide, wait_runs_out⟩
theorem again_fits : tAgain.Fits tBurst2 :=
  ⟨by decide, by decide, by decide, wait_at_once _⟩
theorem gaveUp_fits : tGaveUp.Fits tBurst2 :=
  ⟨by decide, by decide, rfl⟩

theorem witness_EncodedCommandsDecodeBack : ∃ i : Instr, i = .sendByte 0xFF ∧ i.wellFormed = true := ⟨_, rfl, rfl⟩

theorem witness_DecodedWordsMatchTheirPattern :
    decode 0x7FF = some (.sendByte 0xFF) ∧ (0x5FF : CmdWord) &&& Instr.mask (.sendBit 0) = Instr.pattern (.sendBit 0) := by decide

theorem witness_ReservedWordsAreRejected : ∃ (s : State) (w : CmdWord) (ws : List CmdWord),
    s.params.wellFormed = true ∧ s.rstIn = none ∧ s.busy = false ∧ s.cmds = w :: ws ∧ decode w = none :=
  ⟨{ State.reset with cmds := [0x0FF] }, 0x0FF, [], by decide, rfl, rfl, rfl, by decide⟩

theorem witness_PseudoInstructionsExpand : ∃ a b : Nat, a ≤ 127 ∧ a = 127 ∧ 127 < b ∧ b = 128 := ⟨127, 128, by decide⟩

theorem witness_StepRunsPresentedCommand : ∃ (s : State) (w : CmdWord) (ws : List CmdWord) (i : Instr),
    s.params.wellFormed = true ∧ s.rstIn = none ∧ s.busy = false ∧ s.cmds = w :: ws ∧ decode w = some i :=
  ⟨{ State.reset with cmds := [0x758] }, 0x758, [], .sendByte 0x58, by decide, rfl, rfl, rfl, by decide⟩

theorem witness_FetchedTableWordRuns : ∃ (s : State) (n w : Nat) (i : Instr),
    s.params.wellFormed = true ∧ decodeTableWord n w = some i :=
  ⟨State.reset, 16, 0x800, .readByte, by decide, by decide⟩

/-- A command in progress: a RESET, or a START with its tail still to come. -/
def tBusy (ret : Pending) (scl sda : List Level) : State :=
  { tIdle tBurst2 true scl sda with busy := true, seq := .resetNext ret }

theorem witness_PresentedWordWaitsWhileBusy : ∃ s t : State, s.busy = true ∧ s.cmds = [0x300] ∧ step s = .next t :=
  ⟨{ tBusy .nothing (hi 4) (lo 3) with cmds := [0x300] }, _, rfl, rfl, rfl⟩

theorem witness_RestWithoutWordChangesNothing : ∃ s : State,
    s.params.wellFormed = true ∧ s.rstIn = none ∧ s.busy = false ∧ s.cmds = [] :=
  ⟨State.reset, by decide, rfl, rfl, rfl⟩

theorem witness_PowerOnResetState : ∃ s : State, s.params.wellFormed = true ∧ s.rstIn = some 0 ∧ s.busy = true :=
  ⟨{ tBusy .toStart [] [] with rstIn := some 0 }, by decide, rfl, rfl⟩

theorem witness_PowerOnResetAbandonsCommand_cut : ∃ (s t : State) (k : Nat),
    s.params.wellFormed = true ∧ s.rstIn = some (k + 1) ∧ step { s with rstIn := none } = .next t ∧ k + 1 < entriesSince s t ∧ k + 1 = (eventsSince s t).length :=
  ⟨{ tIdle Config.reference false (hi 1) (hi 1) with cmds := [0x200], rstIn := some 10 }, _, 9, by decide, rfl, rfl, by decide +kernel, by decide +kernel⟩

/-- The reset that comes right after the response. -/
theorem witness_PowerOnResetAbandonsCommand_later : ∃ (s t : State) (k : Nat),
    s.params.wellFormed = true ∧ s.rstIn = some (k + 1) ∧ step { s with rstIn := none } = .next t ∧ entriesSince s t = k + 1 :=
  ⟨{ tIdle Config.reference false (hi 1) (hi 1) with cmds := [0x200], rstIn := some 11 }, _, 10, by decide, rfl, rfl, by decide +kernel⟩

theorem witness_IllegalInstanceIsRefused : ∃ s t : State,
    s.params.pollMax = 0 ∧ 1 ≤ t.params.pollMax ∧ 1 ≤ t.params.burstPulses ∧ 1 ≤ t.params.burstMax ∧ t.rstIn = none ∧ t.busy = false :=
  ⟨{ State.reset with params := { Config.reference with pollMax := 0 } },
    { State.reset with params := { Config.reference with pollMax := 1, burstPulses := 1, burstMax := 1 } },
    rfl, by decide, by decide, by decide, rfl, rfl⟩

theorem witness_CommandBeforeOpenIsRejected : ∃ (i : Instr) (s : State), i ≠ .openBus ∧ s.opened = false :=
  ⟨.sendBit 0xFF, State.reset, by decide, rfl⟩

theorem witness_BadConfigurationIsRejected : ∃ s t : State, s.cfg.sclId = s.cfg.sdaId ∧ s.cfg.freq ≠ 0 ∧ t.cfg.freq = 0 ∧
    t.cfg.sclId ≠ t.cfg.sdaId :=
  ⟨tClosed Config.reference ⟨⟨7⟩, ⟨7⟩, 1, false⟩ [] [], tClosed Config.reference ⟨⟨7⟩, ⟨8⟩, 0, false⟩ [] [], rfl, by decide, rfl, by decide⟩

theorem witness_OpenLatchesHandle : ∃ s : State, s.cfg.sclId ≠ s.cfg.sdaId ∧ s.cfg.freq ≠ 0 ∧ s.cfg.freq = 4294967295 :=
  ⟨tClosed Config.reference ⟨⟨7⟩, ⟨8⟩, 4294967295, true⟩ [] [], by decide, by decide, rfl⟩

theorem witness_OnlyOpenWritesTheHandle : ∃ s t : State, step s = .next t ∧ s.rstIn = none ∧ s.cmds = [0x100] :=
  ⟨{ tClosed tBurst2 ⟨⟨9⟩, ⟨8⟩, 100000, true⟩ (lo 4) (lo 3) with cmds := [0x100] }, _, rfl, rfl, rfl⟩

theorem witness_SendBitResult_zero : ∃ (s : State) (a : BitSlot), s.opened = true ∧ WholeWait s.params.pollMax a.wait ∧
    s.env.scl = a.wait ++ [] ∧ s.env.sda = sdaOfSend ((0x00 : Byte) != 0) a ++ [] :=
  ⟨tLow tPoll2 true (lo 3) [], tSlotLow, rfl, wait_runs_out, rfl, rfl⟩

theorem witness_SendBitResult_one : ∃ (s : State) (a : BitSlot), s.opened = true ∧ WholeWait s.params.pollMax a.wait ∧
    s.env.scl = a.wait ++ [] ∧ s.env.sda = sdaOfSend ((0x80 : Byte) != 0) a ++ [] :=
  ⟨tLow tPoll2 false (hi 1) (hi 1), tSlot, rfl, wait_at_once _, rfl, rfl⟩

theorem witness_ReadBitResult : ∃ (s : State) (a : BitSlot), s.opened = true ∧ WholeWait s.params.pollMax a.wait ∧
    s.env.scl = a.wait ++ [] ∧ s.env.sda = sdaOfRead a ++ [] ∧ a.wait = [false, false, true] :=
  ⟨tLow tPoll2 false [false, false, true] [true, false], { first := true, wait := [false, false, true], result := false }, rfl,
    wait_last_poll, rfl, rfl, rfl⟩

theorem witness_SendByteResult : ∃ (s : State) (x : Byte) (ws : List BitSlot) (ack : BitSlot), s.opened = true ∧ ws.length = 8 ∧
    (∀ w ∈ ack :: ws, WholeWait s.params.pollMax w.wait) ∧ s.env.scl = ws.flatMap (·.wait) ++ (ack.wait ++ []) ∧
    s.env.sda = (List.zipWith sdaOfSend (wireBits x) ws).flatten ++ (sdaOfRead ack ++ []) ∧ x = 0xA0 :=
  ⟨tLow tPoll2 false (hi 8 ++ lo 3) (hi 2 ++ lo 2), 0xA0, List.replicate 8 tSlot, tSlotLow, rfl, rfl,
    by simpa [tSlot, tSlotLow] using ⟨wait_runs_out, wait_at_once _⟩, by decide, by decide, rfl⟩

theorem witness_ReadByteResult : ∃ (s : State) (y : Byte) (ws : List BitSlot), s.opened = true ∧ ws.map (·.result) = wireBits y ∧
    (∀ w ∈ ws, WholeWait s.params.pollMax w.wait) ∧ s.env.scl = ws.flatMap (·.wait) ++ [] ∧
    s.env.sda = ws.flatMap sdaOfRead ++ [] ∧ y = 0x7F :=
  ⟨tLow tPoll2 false (lo 3 ++ hi 7) (lo 2 ++ hi 14), 0x7F, tSlotLow :: List.replicate 7 tSlot, rfl, by decide,
    by simpa [tSlot, tSlotLow] using ⟨wait_runs_out, wait_at_once _⟩, by decide, by decide, rfl⟩

theorem witness_StartResult : ∃ (s : State) (vs : List Level), s.opened = true ∧ WholeWait s.params.pollMax vs ∧ s.env.scl = vs ++ [] ∧
    s.env.sda = true :: [] ∧ s.drv = .low :=
  ⟨tLow tPoll2 false (lo 3) (hi 1), lo 3, rfl, wait_runs_out, rfl, rfl, rfl⟩

theorem witness_StartAfterReset : ∃ (s : State) (p : ResetPass) (vs : List Level), s.params.wellFormed = true ∧ s.opened = true ∧
    p.Fits s.params ∧ p.isLast = true ∧ WholeWait s.params.pollMax vs ∧ s.env.scl = p.sclAnswers ++ (vs ++ []) ∧
    s.env.sda = false :: (p.sdaAnswers ++ []) :=
  ⟨tIdle tBurst2 true (hi 2 ++ lo 2 ++ hi 1) (lo 4), tGaveUp, [true], by decide, rfl, gaveUp_fits, rfl, wait_at_once _, by decide,
    by decide⟩

theorem witness_StopResult : ∃ (s : State) (vs : List Level), s.opened = true ∧ WholeWait s.params.pollMax vs ∧ s.env.scl = vs ++ [] ∧
    s.env.sda = true :: [] ∧ s.drv = .released :=
  ⟨tIdle tPoll2 false (hi 1) (hi 1), [true], rfl, wait_at_once _, rfl, rfl, rfl⟩

theorem witness_StopAfterFailedRise : ∃ (s : State) (p : ResetPass) (vs : List Level), s.params.wellFormed = true ∧
    s.opened = true ∧ p.Fits s.params ∧ p.isLast = true ∧ WholeWait s.params.pollMax vs ∧
    s.env.scl = vs ++ (p.sclAnswers ++ []) ∧ s.env.sda = false :: (p.sdaAnswers ++ []) :=
  ⟨tLow tBurst2 true (hi 1 ++ hi 4 ++ lo 3) (lo 3 ++ hi 2), tRecovered, [true], by decide, rfl, recovered_fits, rfl,
    wait_at_once _, by decide, by decide⟩

theorem witness_ResetResult : ∃ (s : State) (p : ResetPass), s.params.wellFormed = true ∧ s.opened = true ∧ p.Fits s.params ∧
    p.isLast = true ∧ s.env.scl = p.sclAnswers ++ [] ∧ s.env.sda = p.sdaAnswers ++ [] ∧ p.bursts.length = s.params.burstMax :=
  ⟨tLow tBurst2 true (hi 4 ++ lo 3) (lo 2 ++ hi 2), tRecovered, by decide, rfl, recovered_fits, rfl, by decide, by decide, rfl⟩

theorem witness_OpenResult : ∃ (s : State) (p : ResetPass), s.params.wellFormed = true ∧ s.cfg.sclId ≠ s.cfg.sdaId ∧
    s.cfg.freq ≠ 0 ∧ p.Fits s.params ∧ p.isLast = true ∧ s.env.scl = p.sclAnswers ++ [] ∧ s.env.sda = p.sdaAnswers ++ [] ∧
    s.cfg.freq = 1 :=
  ⟨tClosed tBurst2 ⟨⟨9⟩, ⟨8⟩, 1, true⟩ (hi 2 ++ lo 2) (lo 3), tGaveUp, by decide, by decide, by decide, gaveUp_fits, rfl, by decide,
    by decide, rfl⟩

theorem witness_FailedRiseInResetLeavesCommandInProgress_reset_and_open : ∃ (s : State) (p : ResetPass), s.params.wellFormed = true ∧ p.Fits s.params ∧
    p.isLast = false ∧ s.opened = true ∧ s.cfg.sclId ≠ s.cfg.sdaId ∧ s.cfg.freq ≠ 0 ∧ s.env.scl = p.sclAnswers ++ [] ∧
    s.env.sda = p.sdaAnswers ++ [] :=
  ⟨{ tIdle tBurst2 true (lo 2 ++ hi 1) (hi 2 ++ lo 1) with cfg := ⟨⟨9⟩, ⟨8⟩, 1, true⟩ }, tAgain, by decide, again_fits, rfl, rfl,
    by decide, by decide, by decide, by decide⟩

theorem witness_FailedRiseInResetLeavesCommandInProgress_start : ∃ (s : State) (p : ResetPass), s.params.wellFormed = true ∧ p.Fits s.params ∧
    p.isLast = false ∧ s.opened = true ∧ s.env.scl = p.sclAnswers ++ [] ∧ s.env.sda = false :: (p.sdaAnswers ++ []) :=
  ⟨tIdle tBurst2 true (lo 2 ++ hi 1) (lo 1 ++ hi 2 ++ lo 1), tAgain, by decide, again_fits, rfl, rfl, by decide, by decide⟩

theorem witness_FailedRiseInResetLeavesCommandInProgress_stop : ∃ (s : State) (p : ResetPass) (vs : List Level), s.params.wellFormed = true ∧
    p.Fits s.params ∧ p.isLast = false ∧ s.opened = true ∧ WholeWait s.params.pollMax vs ∧
    s.env.scl = vs ++ (p.sclAnswers ++ []) ∧ s.env.sda = false :: (p.sdaAnswers ++ []) :=
  ⟨tLow tBurst2 true (lo 3 ++ lo 2 ++ hi 1) (lo 1 ++ hi 2 ++ lo 1), tAgain, lo 3, by decide, again_fits, rfl, rfl, wait_runs_out,
    by decide, by decide⟩

theorem witness_CommandInProgressGoesOn_ends : ∃ (s t : State) (p : ResetPass) (cs vs : List Level), s.params.wellFormed = true ∧
    s.rstIn = none ∧ s.busy = true ∧ p.Fits s.params ∧ p.isLast = true ∧ s.env.scl = p.sclAnswers ++ cs ∧
    s.env.sda = p.sdaAnswers ++ [] ∧ s.seq = .resetNext .nothing ∧ t = { s with seq := .resetNext .toStart } ∧
    WholeWait s.params.pollMax vs ∧ cs = vs ++ [] :=
  ⟨tBusy .nothing (hi 2 ++ lo 2 ++ lo 3) (lo 3), tBusy .toStart (hi 2 ++ lo 2 ++ lo 3) (lo 3), tGaveUp, lo 3, lo 3, by decide, rfl,
    rfl, gaveUp_fits, rfl, by decide, by decide, rfl, rfl, wait_runs_out, rfl⟩

theorem witness_CommandInProgressGoesOn_again : ∃ (s : State) (p : ResetPass) (ret : Pending), s.params.wellFormed = true ∧
    s.rstIn = none ∧ s.busy = true ∧ p.Fits s.params ∧ p.isLast = false ∧ s.env.scl = p.sclAnswers ++ [] ∧
    s.env.sda = p.sdaAnswers ++ [] ∧ s.seq = .resetNext ret :=
  ⟨tBusy .toStart (lo 2 ++ hi 1) (hi 2 ++ lo 1), tAgain, .toStart, by decide, rfl, rfl, again_fits, rfl, by decide, by decide, rfl⟩

theorem witness_UnfinishedOnlyWhenSdaFailsToRise : ∃ (i : Instr) (s t : State), s.params.wellFormed = true ∧ s.busy = false ∧
    exec i s = .next t ∧ t.busy = true :=
  ⟨.reset, tIdle tBurst2 true (lo 2 ++ hi 1) (hi 2 ++ lo 1), _, by decide, rfl, rfl, by decide +kernel⟩

theorem witness_EveryStepKeepsTheInvariant : ∃ s t : State, s.Inv ∧ step s = .next t ∧ s.cmds = [0x100] :=
  ⟨{ tClosed tBurst2 ⟨⟨9⟩, ⟨8⟩, 100000, true⟩ (lo 4) (lo 3) with cmds := [0x100] }, _,
    ⟨.inl ⟨rfl, rfl⟩, rfl, fun h => absurd h (by decide), fun h => absurd h (by decide), fun h => absurd h (by decide), rfl⟩, rfl, rfl⟩

/-- A state in the middle of a chain has the invariant too. -/
theorem witness_InvariantStatesDoNotStop : ∃ s : State, s.Inv ∧ s.params.wellFormed = true ∧ s.busy = true :=
  ⟨tBusy .toStart [] [], ⟨.inr ⟨rfl, _, rfl⟩, rfl, fun _ => rfl, fun _ => rfl, fun _ => by decide, rfl⟩, by decide, rfl⟩

theorem witness_TransferFrame : ∃ (i : Instr) (s : State),
    (i = .readBit ∨ i = .readByte ∨ ∃ x, i = .sendBit x ∨ i = .sendByte x) ∧ s.opened = true :=
  ⟨.sendByte 0x00, tIdle Config.reference false [] [], .inr (.inr ⟨0, .inr rfl⟩), rfl⟩

theorem witness_SequenceFrame : ∃ (i : Instr) (s : State), (i = .start ∨ i = .stop ∨ i = .reset) ∧ s.params.wellFormed = true ∧
    s.opened = true :=
  ⟨.reset, tLow Config.reference false [] [], .inr (.inr rfl), by decide, rfl⟩

theorem witness_OpenFrame : ∃ s : State, s.params.wellFormed = true ∧ s.cfg.sclId ≠ s.cfg.sdaId ∧ s.cfg.freq ≠ 0 ∧ s.cfg.freq = 1 :=
  ⟨tClosed tBurst2 ⟨⟨7⟩, ⟨8⟩, 1, true⟩ [] [], by decide, by decide, by decide, rfl⟩

theorem witness_WarnChangesOnlyDiagnostics : ∃ (i : Instr) (s u : State) (ret : Pending), i ≠ .openBus ∧ s.opened = true ∧
    u.params.wellFormed = true ∧ u.rstIn = none ∧ u.busy = true ∧ u.seq = .resetNext ret :=
  ⟨.start, tIdle tPoll2 true (lo 3) (hi 1), tBusy .toStart (lo 4) (lo 3), .toStart, by decide, rfl, by decide, rfl, rfl, rfl⟩

theorem witness_TransferStateIsNeverRead : ∃ (s t : State) (b : Bool), step s = .next t ∧ b ≠ s.xfer :=
  ⟨{ tLow Config.reference false (hi 1) (hi 2) with cmds := [0x600] }, _, false, rfl, by decide⟩

theorem witness_PrivateRegistersAreDeadBetweenSteps : ∃ (s t : State) (r : PrivateRegs), step s = .next t ∧ r ≠ s.regs :=
  ⟨{ tLow Config.reference false (hi 8) (hi 16) with cmds := [0x800] }, _, ⟨0xFF, 0xFF, 9, 50, 10, 100⟩, rfl, by decide⟩

theorem witness_EveryLineTransitionSettles : ∃ (i : Instr) (s t : State), i ≠ .openBus ∧ exec i s = .next t ∧ s.opened = true :=
  ⟨.stop, tLow tPoll2 true (lo 3) (hi 1), _, by decide, rfl, rfl⟩

theorem witness_EveryLineTransitionSettles_open : ∃ s t u v : State, exec .openBus s = .next t ∧ s.cfg.sclId ≠ s.cfg.sdaId ∧
    s.cfg.freq = 200000 ∧ exec .openBus u = .next v ∧ u.cfg.sclId = u.cfg.sdaId :=
  ⟨tClosed tBurst2 ⟨⟨9⟩, ⟨8⟩, 200000, true⟩ (lo 4) (lo 3), _, tClosed tBurst2 ⟨⟨7⟩, ⟨7⟩, 1, false⟩ [] [], _, rfl, by decide, rfl, rfl, rfl⟩

theorem witness_EveryLineTransitionSettles_resumed : ∃ s t : State, s.rstIn = none ∧ s.busy = true ∧ step s = .next t :=
  ⟨tBusy .toStart (hi 4 ++ lo 3) (lo 3), _, rfl, rfl, rfl⟩

theorem witness_DrivenLineIsNeverSampled : ∃ (i : Instr) (s t : State), exec i s = .next t ∧ s.drv = .low ∧ s.opened = true :=
  ⟨.readByte, tLow Config.reference false (hi 8) (hi 16), _, rfl, rfl, rfl⟩

/-- A step cut short by `rst` in the middle of a RESET_SEQ that goes on. -/
theorem witness_DrivenLineIsNeverSampled_step : ∃ s t : State, step s = .next t ∧ s.busy = true ∧ s.rstIn = some 5 :=
  ⟨{ tBusy .nothing (hi 4) (lo 3) with rstIn := some 5 }, _, rfl, rfl, rfl⟩

/-- Both diagnostics leave: the last check of a reset and the clock of the start after it. -/
theorem witness_DiagnosticsNameTheirLine : ∃ (i : Instr) (s t : State), exec i s = .next t ∧
    Event.diag .resetGiveup .sda ∈ eventsSince s t ∧ Event.diag .waitTimeout .scl ∈ eventsSince s t :=
  ⟨.start, tIdle tBurst2 true (hi 4 ++ lo 3) (lo 4), _, rfl, by decide +kernel, by decide +kernel⟩

theorem witness_DiagnosticsNameTheirLine_resumed : ∃ s t : State, s.rstIn = none ∧ s.busy = true ∧ step s = .next t ∧
    Event.diag .resetGiveup .sda ∈ eventsSince s t ∧ Event.diag .waitTimeout .scl ∈ eventsSince s t :=
  ⟨tBusy .toStart (hi 4 ++ lo 3) (lo 3), _, rfl, rfl, rfl, by decide +kernel, by decide +kernel⟩

theorem witness_OneResponsePerTakenWord : ∃ s t u v : State, s.rstIn = none ∧ step s = .next t ∧ t.busy = true ∧
    u.rstIn = none ∧ step u = .next v ∧ v.busy = false ∧ u.cmds ≠ [] :=
  ⟨{ tIdle tBurst2 true (lo 2 ++ hi 1) (hi 2 ++ lo 1) with cmds := [0x400] }, _, { State.reset with cmds := [0x300] }, _, rfl, rfl,
    by decide +kernel, rfl, rfl, by decide +kernel, by decide⟩

theorem witness_OneResponsePerTakenWord_rest : ∃ s t : State, s.rstIn = none ∧ step s = .next t ∧ s.busy = false ∧ s.cmds = [] :=
  ⟨tLow Config.reference false [] [], _, rfl, rfl, rfl, rfl⟩

theorem witness_RecordOnlyGrows : ∃ s t : State, step s = .next t ∧ s.log ≠ [] :=
  ⟨{ State.reset with log := [.powerOn], rstIn := some 0 }, _, rfl, by decide⟩

theorem witness_SampleOfDrivenLineReadsZero : ∃ (s : State) (l : Line), s.drv.get l = true :=
  ⟨tLow Config.reference false [true] [true], .sda, rfl⟩

theorem witness_HalfPeriodIsExact : ∃ h g : Handle, h.freq = 100000 ∧ g.freq.toNat = 2 * h.freq.toNat :=
  ⟨⟨⟨0⟩, ⟨1⟩, 100000, false⟩, ⟨⟨0⟩, ⟨1⟩, 200000, false⟩, rfl, by decide⟩

theorem witness_NonZeroOperandsSendTheSameBit : ∃ a b : Byte, a ≠ 0 ∧ b ≠ 0 ∧ a ≠ b := ⟨0x01, 0x80, by decide⟩

theorem witness_StartThenStopOnTheWire : ∃ s : State, s.opened = true ∧ (s.drv = .low ∨ s.drv = .released) ∧ s.QuietFor 2 2 :=
  ⟨tIdle Config.reference false (hi 2) (hi 2), rfl, .inr rfl, ⟨[], rfl⟩, ⟨[], rfl⟩⟩

theorem witness_RepeatedStartOnTheWire : ∃ s : State, s.opened = true ∧ (s.drv = .low ∨ s.drv = .released) ∧ s.QuietFor 2 2 :=
  ⟨tLow Config.reference false (hi 2) (hi 2), rfl, .inl rfl, ⟨[], rfl⟩, ⟨[], rfl⟩⟩

theorem witness_SendByteFrameOnTheWire : ∃ s : State, s.opened = true ∧ s.drv = .low ∧ s.QuietFor 9 10 :=
  ⟨tLow Config.reference false (hi 9) (hi 10), rfl, rfl, ⟨[], rfl⟩, ⟨[], rfl⟩⟩

theorem witness_ResetOnTheWire : ∃ s : State, s.params.wellFormed = true ∧ s.opened = true ∧ s.drv = .released ∧
    s.QuietFor (s.params.burstPulses + 1) 3 :=
  ⟨tIdle Config.reference false (hi 11) (hi 3), by decide, rfl, rfl, ⟨[], rfl⟩, ⟨[], rfl⟩⟩

end Sys2Proof.Machine
end

section
/-! PROOF. The scope of an instance (00_scope.md R8): which parameters are legal, and that a legal instance at rest always answers. -/

namespace Sys2Proof.Machine

/-- The constraints of 00_scope.md R8 as three inequalities. -/
theorem wellFormed_iff (p : Params) :
    p.wellFormed = true ↔ 1 ≤ p.pollMax ∧ 1 ≤ p.burstPulses ∧ 1 ≤ p.burstMax := by
  simp [Params.wellFormed, and_assoc]

/-- An illegal instance is refused before the reset input or the command port is looked at. -/
theorem step_refused_of_not_wellFormed {s : State} (hw : ¬ s.params.wellFormed = true) :
    step s = .refused .illegalInstance :=
  if_neg hw

/-- A choice between two next states is a next state. -/
theorem exists_next_of_ite (c : Prop) [Decidable c] (a b : State) :
    ∃ t, (if c then .next a else .next b : Host.Outcome State Fault Refusal) = .next t :=
  ⟨if c then a else b, (apply_ite Host.Outcome.next c a b).symm⟩

/-- A taken command is accepted or rejected, and either way there is a next state, on every instance and in every state. -/
theorem exec_exists_next (i : Instr) (s : State) : ∃ t, exec i s = .next t := by
  cases i <;> exact exists_next_of_ite ..

/-- With nothing in progress the command port always answers: no word, a reserved word, or a command. -/
theorem stepPort_exists_next_of_not_busy {s : State} (hb : s.busy = false) : ∃ t, stepPort s = .next t := by
  cases hc : s.cmds with
  | nil => exact ⟨s, stepPort_idle hb hc⟩
  | cons w ws =>
    cases hd : decode w with
    | none => exact ⟨_, stepPort_reserved hb hc hd⟩
    | some i =>
      rw [stepPort_taken hb hc hd]
      exact exec_exists_next i _

/-- Settles O15: a parameter equal to 0 breaks a constraint, and a legal instance at rest steps as its command port does. -/
theorem illegalInstanceIsRefused : Obligations.IllegalInstanceIsRefused := by
  unfold Obligations.IllegalInstanceIsRefused
  refine fun s => ⟨fun h0 => ?_, fun hpoll hpulses hburst hr hb => ?_⟩
  · refine step_refused_of_not_wellFormed fun hw => ?_
    obtain ⟨hpoll, hpulses, hburst⟩ := (wellFormed_iff s.params).mp hw
    omega
  · have hw : s.params.wellFormed = true := (wellFormed_iff s.params).mpr ⟨hpoll, hpulses, hburst⟩
    rw [step_eq_stepPort hw hr]
    exact stepPort_exists_next_of_not_busy hb

end Sys2Proof.Machine
end

section
/-! PROOF. The invariant of the controller (10_state.md R21, R24, R33, R46; 60_exceptions.md R131): power-on reset establishes it, and
every step keeps it and, in a legal instance, goes on from it. -/

namespace Sys2Proof.Machine

/-! ### The drive bits that a record leads to -/

/-- Events move the drive bits of a record as they move the drive bits of a state. -/
theorem drvOf_record (es : List Event) (log : List Out) : drvOf (record es log) = es.foldl Drv.after (drvOf log) := by
  induction es generalizing log with
  | nil => rfl
  | cons e es ih =>
    have hcons : record (e :: es) log = record es (.ev e :: log) := record_append [e] es log
    rw [hcons, ih]; rfl

/-! ### A command that is under way -/

/-- What holds from the acceptance of a command to its end: a handle that passed the checks exists (60_exceptions.md R131), and the
drive bits are what the record says. -/
structure UnderWay (s : State) : Prop where
  busy : s.busy = true
  opened : s.opened = true
  checked : s.handle.acceptable = true
  recorded : s.drv = drvOf s.log

theorem UnderWay.acts {s t : State} (hs : UnderWay s) (h : Acts s t) : UnderWay t where
  busy := by rw [h.onlyLines]; exact hs.busy
  opened := h.untouched.opened.trans hs.opened
  checked := by rw [h.untouched.handle]; exact hs.checked
  recorded := by
    obtain ⟨es, hlog, hdrv⟩ := h.log
    rw [hdrv, hlog, drvOf_record, hs.recorded]

/-- An `OPEN` whose configuration passes the checks is under way once step 1 of OPEN_SEQ has released both lines (41_open.md R100, R101). -/
theorem underWay_openLines {s : State} (ha : s.openOperands.acceptable = true) :
    UnderWay (openLines (accept (construct s.openOperands s))) where
  busy := rfl
  opened := rfl
  checked := ha
  recorded := by rw [openLines_eq, drvOf_record]; rfl

/-- A command that ends with its lines equal leaves the invariant. -/
theorem UnderWay.inv_complete {s : State} (hs : UnderWay s) (hd : s.drv.scl = s.drv.sda) (v : Byte) : (complete v s).Inv where
  busySeq := .inl ⟨rfl, rfl⟩
  linesEqual := hd
  busyReleased := fun hb => absurd hb Bool.false_ne_true
  busyOpened := fun hb => absurd hb Bool.false_ne_true
  handleChecked := fun _ => hs.checked
  drvRecorded := hs.recorded

/-- A command that is left in progress with its lines released leaves the invariant (log 1). -/
theorem UnderWay.inv_paused {s : State} (hs : UnderWay s) (hd : s.drv = .released) (ret : Pending) :
    (setSeq (.resetNext ret) s).Inv where
  busySeq := .inr ⟨hs.busy, ret, rfl⟩
  linesEqual := by rw [setSeq_drv, hd]; rfl
  busyReleased := fun _ => hd
  busyOpened := fun _ => hs.opened
  handleChecked := fun _ => hs.checked
  drvRecorded := hs.recorded

/-- Ended or in progress, a sequence leaves the invariant. -/
theorem UnderWay.inv_sequence {isStart : Bool} {b t : State} (hb : UnderWay b) (h : SequenceOutcome isStart b t) : t.Inv := by
  obtain ⟨u, hu, ⟨rfl, hd⟩ | ⟨rfl, hd, -⟩⟩ := h
  · have hx : UnderWay (setXfer isStart u) := ⟨(hb.acts hu).busy, (hb.acts hu).opened, (hb.acts hu).checked, (hb.acts hu).recorded⟩
    refine hx.inv_complete ?_ 0
    rw [setXfer_drv, hd]; cases isStart <;> rfl
  · exact (hb.acts hu).inv_paused hd _

/-! ### What keeps the invariant -/

namespace State.Inv

variable {s : State} (hs : s.Inv)

include hs

/-- The words presented are no part of the invariant. -/
theorem setCmds (ws : List CmdWord) : ({ s with cmds := ws } : State).Inv :=
  ⟨hs.busySeq, hs.linesEqual, hs.busyReleased, hs.busyOpened, hs.handleChecked, hs.drvRecorded⟩

/-- The reset input is no part of the invariant. -/
theorem setRstIn (k : Option Nat) : ({ s with rstIn := k } : State).Inv :=
  ⟨hs.busySeq, hs.linesEqual, hs.busyReleased, hs.busyOpened, hs.handleChecked, hs.drvRecorded⟩

/-- A rejection changes nothing the invariant speaks of (60_exceptions.md R130). -/
theorem of_reject (e : HardError) : (reject e s).Inv :=
  ⟨hs.busySeq, hs.linesEqual, hs.busyReleased, hs.busyOpened, hs.handleChecked, hs.drvRecorded⟩

/-- A command accepted when a handle exists is under way. -/
theorem underWay_accept (ho : s.opened = true) : UnderWay (accept s) := ⟨rfl, ho, hs.handleChecked ho, hs.drvRecorded⟩

/-- A command in progress between two steps is under way. -/
theorem underWay_busy (hb : s.busy = true) : UnderWay s :=
  ⟨hb, hs.busyOpened hb, hs.handleChecked (hs.busyOpened hb), hs.drvRecorded⟩

/-- Every command keeps the invariant, whether it is rejected, ends, or is left in progress. -/
theorem of_exec {i : Instr} {t : State} (hw : s.params.wellFormed = true) (h : exec i s = .next t) : t.Inv := by
  obtain ⟨e, rfl⟩ | ⟨-, ho, u, v, hu, hd, -, rfl⟩ | ⟨-, ho, hseq⟩ | ⟨-, ha, hseq⟩ := exec_cases i s t hw h
  · exact hs.of_reject e
  · exact ((hs.underWay_accept ho).acts hu).inv_complete (by rw [hd]; rfl) v
  · exact (hs.underWay_accept ho).inv_sequence hseq
  · exact (underWay_openLines ha).inv_sequence hseq

/-- The step of the command port keeps the invariant. -/
theorem of_stepPort {t : State} (hw : s.params.wellFormed = true) (h : stepPort s = .next t) : t.Inv := by
  obtain ⟨hb, ret, -, rfl⟩ | ⟨-, -, rfl⟩ | ⟨-, w, ws, -, ⟨-, rfl⟩ | ⟨i, -, hi⟩⟩ := stepPort_cases h
  · obtain ⟨-, hpulses, hburst⟩ := (wellFormed_iff s.params).mp hw
    exact (hs.underWay_busy hb).inv_sequence (runReset_outcome ret s s (.nil s) hburst hpulses)
  · exact hs
  · exact (hs.setCmds ws).of_reject .illegalCommand
  · exact (hs.setCmds ws).of_exec hw hi

end State.Inv

/-- A controller at rest without a handle has the invariant when its lines are released and its record says so. -/
theorem inv_of_closed_at_rest {s : State} (hb : s.busy = false) (hq : s.seq = .rest) (ho : s.opened = false)
    (hd : s.drv = .released) (hlog : drvOf s.log = .released) : s.Inv where
  busySeq := .inl ⟨hb, hq⟩
  linesEqual := by rw [hd]; rfl
  busyReleased := fun _ => hd
  busyOpened := fun hbusy => absurd hbusy (by simp [hb])
  handleChecked := fun hopen => absurd hopen (by simp [ho])
  drvRecorded := hd.trans hlog.symm

/-- Power-on reset leaves the invariant, whatever the state was (70_reset_and_hazards.md R160). -/
theorem powerOn_inv (s : State) : (powerOn s).Inv := inv_of_closed_at_rest rfl rfl rfl rfl rfl

/-- Settles O34: the step of the command port keeps the invariant, and a step that `rst` cuts short ends in power-on reset. -/
theorem everyStepKeepsTheInvariant : Obligations.EveryStepKeepsTheInvariant := by
  unfold Obligations.EveryStepKeepsTheInvariant
  intro s t hs h
  obtain ⟨hw, ⟨-, hp⟩ | ⟨-, rfl⟩ | ⟨k, u, -, hp, ⟨-, rfl⟩ | ⟨-, rfl⟩⟩⟩ := step_cases h
  · exact hs.of_stepPort hw hp
  · exact powerOn_inv s
  · exact (hs.of_stepPort hw hp).setRstIn _
  · exact powerOn_inv _

/-- Settles O35: the state after reset has the fields that power-on reset gives, and an empty record leads to released lines. -/
theorem resetStateHasTheInvariant : Obligations.ResetStateHasTheInvariant := by
  unfold Obligations.ResetStateHasTheInvariant
  exact inv_of_closed_at_rest rfl rfl rfl rfl rfl

/-- The command port always answers when a command in progress has a RESET_SEQ to go on with (10_state.md R33). -/
theorem State.Inv.stepPort_exists_next {s : State} (hs : s.Inv) : ∃ t, stepPort s = .next t := by
  obtain ⟨hb, -⟩ | ⟨hb, ret, hq⟩ := hs.busySeq
  · exact stepPort_exists_next_of_not_busy hb
  · exact ⟨_, stepPort_resume hb hq⟩

/-- A legal instance answers whenever its command port does: the reset input adds no stop of its own. -/
theorem step_exists_next_of_stepPort {s u : State} (hw : s.params.wellFormed = true) (hp : stepPort s = .next u) :
    ∃ t, step s = .next t := by
  have hstep : step s = stepReset s := if_pos hw
  rw [hstep]
  unfold stepReset
  split
  · exact ⟨u, hp⟩
  · exact ⟨powerOn s, rfl⟩
  · rw [hp]; exact exists_next_of_ite ..

/-- Settles O36: by the invariant a command in progress has a sequence to go on with, and a controller at rest always answers. -/
theorem invariantStatesDoNotStop : Obligations.InvariantStatesDoNotStop := by
  unfold Obligations.InvariantStatesDoNotStop
  intro s hs hw
  obtain ⟨u, hp⟩ := hs.stepPort_exists_next
  exact step_exists_next_of_stepPort hw hp

end Sys2Proof.Machine
end

section
/-! PROOF. What decides nothing in a step: the transfer state (10_state.md R30), the sequencer's registers (R31), and, while `BUSY` is 1,
the configuration inputs (R42). -/

namespace Sys2Proof.Machine

/-! ### One step by the reset input and the step of the command port -/

/-- With `rst` asserted at once the step is power-on reset (70_reset_and_hazards.md R160). -/
theorem step_powerOn {s : State} (hw : s.params.wellFormed = true) (hr : s.rstIn = some 0) : step s = .next (powerOn s) := by
  simp only [step, hw, if_true, stepReset, hr]

/-- A reset that is still to come after the step comes that much nearer. -/
theorem step_rst_later {s u : State} {k : Nat} (hw : s.params.wellFormed = true) (hr : s.rstIn = some (k + 1))
    (hp : stepPort s = .next u) (hl : entriesSince s u ≤ k + 1) :
    step s = .next { u with rstIn := some (k + 1 - entriesSince s u) } := by
  simp only [step, hw, if_true, stepReset, hr, hp, hl]

/-- A reset in the middle of the step abandons it. -/
theorem step_rst_during {s u : State} {k : Nat} (hw : s.params.wellFormed = true) (hr : s.rstIn = some (k + 1))
    (hp : stepPort s = .next u) (hl : k + 1 < entriesSince s u) :
    step s = .next (abandon ((eventsSince s u).take (k + 1)) s) := by
  simp only [step, hw, if_true, stepReset, hr, hp, if_neg (Nat.not_le.mpr hl)]

/-! ### Differences that no step sees -/

/-- Related states have the same parameters, reset input and record, and power-on reset keeps them related. -/
structure UnseenByReset (R : State → State → Prop) : Prop where
  params : ∀ {s s'}, R s s' → s'.params = s.params
  rstIn : ∀ {s s'}, R s s' → s'.rstIn = s.rstIn
  log : ∀ {s s'}, R s s' → s'.log = s.log
  setRstIn : ∀ k {s s'}, R s s' → R { s with rstIn := k } { s' with rstIn := k }
  powerOn : ∀ {s s'}, R s s' → R (powerOn s) (powerOn s')
  abandon : ∀ es {s s'}, R s s' → R (abandon es s) (abandon es s')

/-- If the command port takes two related states to related states, so does the step: the reset input counts entries of the record, and
the records are the same. -/
theorem UnseenByReset.step {R : State → State → Prop} (hR : UnseenByReset R) {s s' t : State} (hs : R s s')
    (hport : ∀ u, stepPort s = .next u → ∃ u', stepPort s' = .next u' ∧ R u u') (h : step s = .next t) :
    ∃ t', Machine.step s' = .next t' ∧ R t t' := by
  obtain ⟨hw, hcases⟩ := step_cases h
  have hw' : s'.params.wellFormed = true := by rw [hR.params hs]; exact hw
  obtain ⟨hr, hp⟩ | ⟨hr, rfl⟩ | ⟨k, u, hr, hp, hcut⟩ := hcases
  · obtain ⟨u', hp', hu⟩ := hport t hp
    exact ⟨u', (step_eq_stepPort hw' ((hR.rstIn hs).trans hr)).trans hp', hu⟩
  · exact ⟨_, step_powerOn hw' ((hR.rstIn hs).trans hr), hR.powerOn hs⟩
  · obtain ⟨u', hp', hu⟩ := hport u hp
    have hr' := (hR.rstIn hs).trans hr
    have hentries : entriesSince s' u' = entriesSince s u := by simp only [entriesSince, hR.log hs, hR.log hu]
    have hevents : eventsSince s' u' = eventsSince s u := by simp only [eventsSince, State.trace, hR.log hs, hR.log hu]
    obtain ⟨hl, rfl⟩ | ⟨hl, rfl⟩ := hcut
    · refine ⟨_, step_rst_later hw' hr' hp' (hentries ▸ hl), ?_⟩
      rw [hentries]; exact hR.setRstIn _ hu
    · refine ⟨_, step_rst_during hw' hr' hp' (hentries ▸ hl), ?_⟩
      rw [hevents]; exact hR.abandon _ hs

/-- Related states also agree in what the command port looks at, and every way it can go on keeps them related. -/
structure UnseenByStep (R : State → State → Prop) : Prop extends UnseenByReset R where
  busy : ∀ {s s'}, R s s' → s'.busy = s.busy
  seq : ∀ {s s'}, R s s' → s'.seq = s.seq
  cmds : ∀ {s s'}, R s s' → s'.cmds = s.cmds
  setCmds : ∀ ws {s s'}, R s s' → R { s with cmds := ws } { s' with cmds := ws }
  reject : ∀ e {s s'}, R s s' → R (reject e s) (reject e s')
  runReset : ∀ ret {s s'}, R s s' → R (runReset ret s) (runReset ret s')
  exec : ∀ i {s s' u}, R s s' → exec i s = .next u → ∃ u', exec i s' = .next u' ∧ R u u'

theorem UnseenByStep.stepPort {R : State → State → Prop} (hR : UnseenByStep R) {s s' u : State} (hs : R s s')
    (h : stepPort s = .next u) : ∃ u', Machine.stepPort s' = .next u' ∧ R u u' := by
  obtain ⟨hb, ret, hq, rfl⟩ | ⟨hb, hc, rfl⟩ | ⟨hb, w, ws, hc, ⟨hd, rfl⟩ | ⟨i, hd, hi⟩⟩ := stepPort_cases h
  · exact ⟨_, stepPort_resume ((hR.busy hs).trans hb) ((hR.seq hs).trans hq), hR.runReset ret hs⟩
  · exact ⟨_, stepPort_idle ((hR.busy hs).trans hb) ((hR.cmds hs).trans hc), hs⟩
  · exact ⟨_, stepPort_reserved ((hR.busy hs).trans hb) ((hR.cmds hs).trans hc) hd, hR.reject _ (hR.setCmds ws hs)⟩
  · obtain ⟨u', hi', hu⟩ := hR.exec i (hR.setCmds ws hs) hi
    exact ⟨u', (stepPort_taken ((hR.busy hs).trans hb) ((hR.cmds hs).trans hc) hd).trans hi', hu⟩

/-- A step takes related states to related states. -/
theorem UnseenByStep.step {R : State → State → Prop} (hR : UnseenByStep R) {s s' t : State} (hs : R s s') (h : step s = .next t) :
    ∃ t', Machine.step s' = .next t' ∧ R t t' :=
  hR.toUnseenByReset.step hs (fun _ hp => hR.stepPort hs hp) h

/-! ### The sequencer's registers -/

theorem unseenByStep_regs : UnseenByStep SameButRegs where
  params h := h.params
  rstIn := by rintro s _ ⟨r, rfl⟩; rfl
  log := by rintro s _ ⟨r, rfl⟩; rfl
  setRstIn := by rintro k s _ ⟨r, rfl⟩; exact ⟨r, rfl⟩
  powerOn := by rintro s _ ⟨r, rfl⟩; exact .refl _
  abandon := by rintro es s _ ⟨r, rfl⟩; exact .refl _
  busy := by rintro s _ ⟨r, rfl⟩; rfl
  seq := by rintro s _ ⟨r, rfl⟩; rfl
  cmds := by rintro s _ ⟨r, rfl⟩; rfl
  setCmds := by rintro ws s _ ⟨r, rfl⟩; exact ⟨r, rfl⟩
  reject e _ _ h := h.reject e
  runReset ret _ _ h := h.runReset ret
  exec i _ _ _ h he := h.exec i he

/-- Settles O42: states equal but for the registers step to states equal but for the registers. -/
theorem privateRegistersAreDeadBetweenSteps : Obligations.PrivateRegistersAreDeadBetweenSteps := by
  unfold Obligations.PrivateRegistersAreDeadBetweenSteps
  intro s t r h
  obtain ⟨_, hstep, q, rfl⟩ := unseenByStep_regs.step ⟨r, rfl⟩ h
  exact ⟨_, hstep, rfl⟩

/-! ### The transfer state -/

/-- Equal but for the transfer state. -/
def SameButXfer (s t : State) : Prop := ∃ b, t = setXfer b s

theorem SameButXfer.refl (s : State) : SameButXfer s s := ⟨s.xfer, rfl⟩

/-- Completion carries the transfer state along. -/
theorem complete_setXfer (b : Bool) (v : Byte) (s : State) : complete v (setXfer b s) = setXfer b (complete v s) := rfl

theorem finish_setXfer (b : Bool) (ret : Pending) (s : State) : SameButXfer (finish ret s) (finish ret (setXfer b s)) := by
  cases ret with
  | nothing => exact ⟨b, complete_setXfer b 0 s⟩
  | toStart =>
    have hfin : finish .toStart (setXfer b s) = finish .toStart s := congrArg (complete 0) (startTail_setXfer b s)
    rw [hfin]; exact .refl _

theorem giveUp_setXfer (b : Bool) (s : State) : giveUp (setXfer b s) = giveUp s := by
  have hsf := (blind_setXfer b).setSfAcc (setRst s.sfAcc) s
  simp only [giveUp, setXfer_sfAcc, hsf, (blind_setXfer b).warn]; rfl

/-- RESET_SEQ once through takes the same course whatever the transfer state. -/
theorem resetRound_setXfer (b : Bool) (s : State) :
    (resetRound (setXfer b s)).1 = (resetRound s).1 ∧ SameButXfer (resetRound s).2 (resetRound (setXfer b s)).2 := by
  have hg := blind_setXfer b
  have hcnt : ∀ n u, setBurstCnt n (setXfer b u) = setXfer b (setBurstCnt n u) := fun _ _ => rfl
  simp only [resetRound, hg.release, hcnt, hg.params, hg.burstLoop, hg.recoverLines, giveUp_setXfer]
  split
  · split
    · exact ⟨rfl, .refl _⟩
    · exact ⟨rfl, b, rfl⟩
  · exact ⟨rfl, .refl _⟩

theorem runReset_setXfer (b : Bool) (ret : Pending) (s : State) : SameButXfer (runReset ret s) (runReset ret (setXfer b s)) := by
  obtain ⟨hend, c, hc⟩ := resetRound_setXfer b s
  simp only [runReset, hend, hc]
  split
  · exact finish_setXfer c ret _
  · exact ⟨c, rfl⟩

theorem startSeq_setXfer (b : Bool) (s : State) : SameButXfer (startSeq s) (startSeq (setXfer b s)) := by
  simp only [startSeq, (blind_setXfer b).release]
  split
  · exact finish_setXfer b .toStart _
  · exact runReset_setXfer b .toStart _

theorem stopSeq_setXfer (b : Bool) (s : State) : SameButXfer (stopSeq s) (stopSeq (setXfer b s)) := by
  simp only [stopSeq, (blind_setXfer b).stopLines]
  split
  · exact .refl _
  · exact runReset_setXfer b .nothing _

/-- No command looks at the transfer state: the transfers carry it along, the sequences overwrite it or carry it along. -/
theorem exec_setXfer (b : Bool) (i : Instr) {s t : State} (h : exec i s = .next t) :
    ∃ u, exec i (setXfer b s) = .next u ∧ SameButXfer t u := by
  have hg := blind_setXfer b
  by_cases hi : i = .openBus
  · subst hi
    cases ha : s.openOperands.acceptable
    · rw [exec_badConfig s ha] at h; injection h with h; subst h
      exact ⟨_, exec_badConfig (setXfer b s) ha, b, rfl⟩
    · simp only [exec, execOpen, ha, if_true] at h; injection h with h; subst h
      exact ⟨_, if_pos ha, runReset_setXfer b .nothing _⟩
  · cases ho : s.opened
    · rw [exec_notOpen i hi s ho] at h; injection h with h; subst h
      exact ⟨_, exec_notOpen i hi (setXfer b s) ho, b, rfl⟩
    · have hacc : accept (setXfer b s) = setXfer b (accept s) := rfl
      cases i with
      | openBus => exact absurd rfl hi
      | start =>
        simp only [exec, execStart, setXfer_opened, ho, if_true, hacc] at h ⊢; injection h with h; subst h
        exact ⟨_, rfl, startSeq_setXfer b _⟩
      | stop =>
        simp only [exec, execStop, setXfer_opened, ho, if_true, hacc] at h ⊢; injection h with h; subst h
        exact ⟨_, rfl, stopSeq_setXfer b _⟩
      | reset =>
        simp only [exec, execReset, setXfer_opened, ho, if_true, hacc] at h ⊢; injection h with h; subst h
        exact ⟨_, rfl, runReset_setXfer b .nothing _⟩
      | sendBit x =>
        simp only [exec, execSendBit, setXfer_opened, ho, if_true, hacc, hg.sendBitSeq] at h ⊢; injection h with h; subst h
        exact ⟨_, rfl, b, complete_setXfer b _ _⟩
      | readBit =>
        simp only [exec, execReadBit, setXfer_opened, ho, if_true, hacc, hg.readBitSeq] at h ⊢; injection h with h; subst h
        exact ⟨_, rfl, b, complete_setXfer b _ _⟩
      | sendByte x =>
        simp only [exec, execSendByte, setXfer_opened, ho, if_true, hacc, hg.sendByteSeq] at h ⊢; injection h with h; subst h
        exact ⟨_, rfl, b, complete_setXfer b _ _⟩
      | readByte =>
        simp only [exec, execReadByte, setXfer_opened, ho, if_true, hacc, hg.readByteSeq] at h ⊢; injection h with h; subst h
        exact ⟨_, rfl, b, complete_setXfer b _ _⟩

theorem unseenByStep_xfer : UnseenByStep SameButXfer where
  params := by rintro s _ ⟨b, rfl⟩; rfl
  rstIn := by rintro s _ ⟨b, rfl⟩; rfl
  log := by rintro s _ ⟨b, rfl⟩; rfl
  setRstIn := by rintro k s _ ⟨b, rfl⟩; exact ⟨b, rfl⟩
  powerOn := by rintro s _ ⟨b, rfl⟩; exact .refl _
  abandon := by rintro es s _ ⟨b, rfl⟩; exact .refl _
  busy := by rintro s _ ⟨b, rfl⟩; rfl
  seq := by rintro s _ ⟨b, rfl⟩; rfl
  cmds := by rintro s _ ⟨b, rfl⟩; rfl
  setCmds := by rintro ws s _ ⟨b, rfl⟩; exact ⟨b, rfl⟩
  reject := by rintro e s _ ⟨b, rfl⟩; exact ⟨b, rfl⟩
  runReset := by rintro ret s _ ⟨b, rfl⟩; exact runReset_setXfer b ret s
  exec := by rintro i s _ u ⟨b, rfl⟩ h; exact exec_setXfer b i h

/-- Settles O41: states equal but for the transfer state step to states equal but for the transfer state. -/
theorem transferStateIsNeverRead : Obligations.TransferStateIsNeverRead := by
  unfold Obligations.TransferStateIsNeverRead
  intro s t b h
  obtain ⟨_, hstep, c, rfl⟩ := unseenByStep_xfer.step ⟨b, rfl⟩ h
  exact ⟨_, hstep, rfl⟩

/-! ### The configuration inputs while a command is in progress -/

/-- Equal but for configuration inputs `c`. -/
def WithCfg (c : Handle) (s t : State) : Prop := t = { s with cfg := c }

theorem unseenByReset_cfg (c : Handle) : UnseenByReset (WithCfg c) where
  params := by rintro s _ rfl; rfl
  rstIn := by rintro s _ rfl; rfl
  log := by rintro s _ rfl; rfl
  setRstIn := by rintro k s _ rfl; rfl
  powerOn := by rintro s _ rfl; rfl
  abandon := by rintro es s _ rfl; rfl

/-- While `BUSY` is 1 the command port does nothing but go on with the command in progress (10_state.md R40). -/
theorem stepPort_busy {s t : State} (hb : s.busy = true) (h : stepPort s = .next t) :
    ∃ ret, s.seq = .resetNext ret ∧ t = runReset ret s := by
  obtain ⟨-, hgo⟩ | ⟨hb', -⟩ | ⟨hb', -⟩ := stepPort_cases h
  · exact hgo
  all_goals rw [hb] at hb'; cases hb'

/-- While `BUSY` is 1 the step leaves the words presented and the configuration inputs as they are, also when `rst` cuts it short. -/
theorem step_busy_keeps_inputs {s t : State} (hb : s.busy = true) (h : step s = .next t) : t.cmds = s.cmds ∧ t.cfg = s.cfg := by
  have hport : ∀ u, stepPort s = .next u → u.cmds = s.cmds ∧ u.cfg = s.cfg := by
    intro u hp
    obtain ⟨ret, -, rfl⟩ := stepPort_busy hb hp
    exact ⟨(runReset_untouched ret s).cmds, (runReset_untouched ret s).cfg⟩
  obtain ⟨-, ⟨-, hp⟩ | ⟨-, rfl⟩ | ⟨k, u, -, hp, ⟨-, rfl⟩ | ⟨-, rfl⟩⟩⟩ := step_cases h
  · exact hport t hp
  · exact ⟨rfl, rfl⟩
  · exact hport u hp
  · exact ⟨if_pos hb, rfl⟩

/-- Settles O11: the step goes on with a RESET_SEQ, which no configuration input touches, or is cut short by `rst`, which reads none. -/
theorem presentedWordWaitsWhileBusy : Obligations.PresentedWordWaitsWhileBusy := by
  unfold Obligations.PresentedWordWaitsWhileBusy
  intro s t hb h
  obtain ⟨hcmds, hcfg⟩ := step_busy_keeps_inputs hb h
  refine ⟨hcmds, hcfg, fun c => ?_⟩
  have hport : ∀ u, stepPort s = .next u → ∃ u', stepPort { s with cfg := c } = .next u' ∧ WithCfg c u u' := by
    intro u hp
    obtain ⟨ret, hq, rfl⟩ := stepPort_busy hb hp
    exact ⟨_, stepPort_resume (s := { s with cfg := c }) hb hq, (blindCommand_cfg c).runReset ret s⟩
  obtain ⟨_, hstep, rfl⟩ := (unseenByReset_cfg c).step rfl hport h
  exact hstep

end Sys2Proof.Machine
end

section
/-! PROOF. `WARN` gates the diagnostics and nothing else (10_state.md R25, 41_open.md R102, 60_exceptions.md R136). -/

namespace Sys2Proof.Machine

/-! ### Records that grow without a diagnostic -/

/-- The record has grown from `s` to `t`, and no diagnostic is in what is new. -/
def SilentSince (s t : State) : Prop := ∃ new, t.log = new ++ s.log ∧ withoutDiags new = new

theorem SilentSince.of_log_eq {s t : State} (h : t.log = s.log) : SilentSince s t := ⟨[], h, rfl⟩

theorem SilentSince.trans {s t u : State} (h : SilentSince s t) (k : SilentSince t u) : SilentSince s u := by
  obtain ⟨a, ha, hsilent⟩ := h
  obtain ⟨b, hb, ksilent⟩ := k
  refine ⟨b ++ a, by rw [hb, ha, List.append_assoc], ?_⟩
  unfold withoutDiags at hsilent ksilent ⊢
  rw [List.filter_append, hsilent, ksilent]

/-- A rejection adds its response to the record. -/
theorem silentSince_reject (e : HardError) (s : State) : SilentSince s (reject e s) := ⟨[.rsp (rspWord e.code 0 0)], rfl, rfl⟩

/-- Step 1 of OPEN_SEQ adds its four events to the record. -/
theorem silentSince_openLines (s : State) : SilentSince s (openLines s) :=
  ⟨[.ev (.pullup .sda), .ev (.pullup .scl), .ev (.release .sda), .ev (.release .scl)], rfl, rfl⟩

theorem isDiag_ev_iff (e : Event) : isDiag (.ev e) = true ↔ ∃ code l, e = .diag code l := by
  cases e <;> simp [isDiag]

/-- A trace without a diagnostic leaves its record unfiltered. -/
theorem withoutDiags_events {es : List Event} (h : ∀ code l, Event.diag code l ∉ es) :
    withoutDiags (es.map Out.ev).reverse = (es.map Out.ev).reverse := by
  refine List.filter_eq_self.mpr fun o ho => ?_
  obtain ⟨e, he, rfl⟩ := List.mem_map.mp (List.mem_reverse.mp ho)
  rw [Bool.not_eq_true', Bool.eq_false_iff, Ne, isDiag_ev_iff]
  rintro ⟨code, l, rfl⟩
  exact h code l he

/-- Line activity under a handle with `WARN` 0 emits no diagnostic, whether its command ends after it or goes on. -/
theorem Acts.silentSince {b u t : State} (hu : Acts b u) (hw : b.handle.warn = false)
    (ht : (∃ v x, t = complete v (setXfer x u)) ∨ ∃ ret, t = setSeq (.resetNext ret) u) : SilentSince b t := by
  obtain ⟨es, hemit, htrace, -⟩ := hu.emitted ht
  have hdiag : ∀ code l, Event.diag code l ∉ es := by
    intro code l hm
    have := (htrace.diags code l hm).1
    rw [hw] at this; cases this
  obtain h | h := hemit
  · exact ⟨_, h, withoutDiags_events hdiag⟩
  · refine ⟨.rsp t.rsp :: (es.map Out.ev).reverse, h, ?_⟩
    exact congrArg (Out.rsp t.rsp :: ·) (withoutDiags_events hdiag)

/-- A command whose handle has `WARN` 0, which for `OPEN` is the one it latches, emits no diagnostic. -/
theorem exec_silentSince {i : Instr} {s t : State} (h : exec i s = .next t)
    (hw : if i = .openBus then s.cfg.warn = false else s.handle.warn = false) : SilentSince s t := by
  obtain ⟨e, rfl, -⟩ | ⟨b, u, ⟨hi, rfl⟩ | ⟨hi, rfl⟩, hu, ht⟩ := exec_acts h
  · exact silentSince_reject e s
  · rw [if_neg hi] at hw
    exact (SilentSince.of_log_eq (accept_log s)).trans (hu.silentSince hw ht)
  · rw [if_pos hi] at hw
    have hopen := silentSince_openLines (accept (construct s.openOperands s))
    exact hopen.trans (hu.silentSince hw ht)

/-! ### Runs that the erasure of diagnostics makes equal -/

/-- States that are equal when the diagnostics are erased differ in `WARN` and in the record, and their records in diagnostics alone. -/
theorem eq_of_eraseDiags_eq {t u : State} (h : eraseDiags t = eraseDiags u) (hw : t.handle.warn = false) :
    t = { u with handle := { u.handle with warn := false }, log := t.log } ∧ withoutDiags t.log = withoutDiags u.log := by
  constructor
  · have hlog : { eraseDiags t with log := t.log } = ({ eraseDiags u with log := t.log } : State) := by rw [h]
    have hhandle : { t.handle with warn := false } = t.handle := by rw [← hw]
    calc t = { t with handle := { t.handle with warn := false } } := by rw [hhandle]
      _ = _ := hlog
  · exact congrArg State.log h

/-- `t` and `u` end two runs from `s` with `WARN` 0 and 1 that differ in `WARN` and in the record's diagnostics only. -/
def ApartByWarn (s t u : State) : Prop :=
  t = { u with handle := { u.handle with warn := false }, log := t.log } ∧ DiagsApart s t u

/-- Two runs that are equal when the diagnostics are erased, the first of which emits none. -/
theorem apartByWarn_of_eraseDiags_eq {s t u : State} (h : eraseDiags t = eraseDiags u) (hw : t.handle.warn = false)
    (hs : SilentSince s t) : ApartByWarn s t u := by
  obtain ⟨heq, hlogs⟩ := eq_of_eraseDiags_eq h hw
  exact ⟨heq, hlogs, hs⟩

/-- `s` with `WARN` at `w` in its handle. -/
def State.withWarn (s : State) (w : Bool) : State := { s with handle := { s.handle with warn := w } }

theorem eraseDiags_withWarn (s : State) (w : Bool) : eraseDiags (s.withWarn w) = eraseDiags s := rfl

/-- No command but `OPEN` changes the handle. -/
theorem exec_keeps_handle {i : Instr} {s t : State} (hi : i ≠ .openBus) (h : exec i s = .next t) : t.handle = s.handle := by
  obtain ⟨e, rfl, -⟩ | ⟨b, u, ⟨-, rfl⟩ | ⟨hopen, -⟩, hu, ht⟩ := exec_acts h
  · rfl
  · obtain ⟨-, -, -, -, hhandle⟩ := hu.emitted ht
    exact hhandle
  · exact absurd hopen hi

/-- Every command but `OPEN` runs alike with `WARN` 0 and 1. -/
theorem exec_apart (i : Instr) (s : State) (hi : i ≠ .openBus) :
    ∃ t u, exec i (s.withWarn false) = .next t ∧ exec i (s.withWarn true) = .next u ∧ ApartByWarn s t u := by
  obtain ⟨t, ht⟩ := exec_exists_next i (s.withWarn false)
  obtain ⟨u, hu⟩ := exec_exists_next i (s.withWarn true)
  have herase : eraseDiags t = eraseDiags u := by
    have ht' := blindCommand_eraseDiags.exec hi ht
    have hu' := blindCommand_eraseDiags.exec hi hu
    rw [eraseDiags_withWarn] at ht' hu'
    rw [ht'] at hu'; injection hu'
  have hwarn : t.handle.warn = false := by rw [exec_keeps_handle hi ht]; rfl
  have hsilent : SilentSince (s.withWarn false) t := exec_silentSince ht (by rw [if_neg hi]; rfl)
  exact ⟨t, u, ht, hu, apartByWarn_of_eraseDiags_eq herase hwarn hsilent⟩

/-- A command in progress goes on alike with `WARN` 0 and 1. -/
theorem runReset_apart (ret : Pending) (s : State) :
    ApartByWarn s (runReset ret (s.withWarn false)) (runReset ret (s.withWarn true)) := by
  have herase : eraseDiags (runReset ret (s.withWarn false)) = eraseDiags (runReset ret (s.withWarn true)) := by
    rw [← blindCommand_eraseDiags.runReset, ← blindCommand_eraseDiags.runReset]; rfl
  have hwarn : (runReset ret (s.withWarn false)).handle.warn = false := by rw [(runReset_untouched ret _).handle]; rfl
  obtain ⟨u, hu, ht⟩ := runReset_acts ret (s.withWarn false)
  have hsilent : SilentSince (s.withWarn false) (runReset ret (s.withWarn false)) :=
    hu.silentSince rfl (ht.imp (fun ⟨x, h⟩ => ⟨0, x, h⟩) fun h => ⟨ret, h⟩)
  exact apartByWarn_of_eraseDiags_eq herase hwarn hsilent

/-! ### `OPEN` -/

/-- `s` with `WARN` at `w` on its configuration inputs. -/
def State.withCfgWarn (s : State) (w : Bool) : State := { s with cfg := { s.cfg with warn := w } }

/-- `OPEN` takes the same course with `WARN` 0 and 1 on its configuration inputs. -/
theorem execOpen_apart {s t u : State} (ht : exec .openBus (s.withCfgWarn false) = .next t)
    (hu : exec .openBus (s.withCfgWarn true) = .next u) :
    eraseDiags { t with cfg := s.cfg } = eraseDiags { u with cfg := s.cfg } := by
  have hruns : ∀ w, exec .openBus (s.withCfgWarn w) =
      if s.cfg.acceptable then
        .next (runReset .nothing (openLines (accept (construct (s.withCfgWarn w).cfg (s.withCfgWarn w)))))
      else .next (reject .configError (s.withCfgWarn w)) := fun _ => rfl
  rw [hruns] at ht hu
  cases ha : s.cfg.acceptable
  · rw [if_neg (by simp [ha])] at ht hu; injection ht with ht; injection hu with hu
    rw [← ht, ← hu]; rfl
  · rw [if_pos ha] at ht hu; injection ht with ht; injection hu with hu
    have hcfg := (blindCommand_cfg s.cfg).runReset .nothing
    rw [← ht, ← hu]
    rw [← hcfg, ← hcfg, ← blindCommand_eraseDiags.runReset, ← blindCommand_eraseDiags.runReset]
    rfl

/-- Settles O40: with the diagnostics erased the two runs are equal, and the run with `WARN` 0 has none to erase. -/
theorem warnChangesOnlyDiagnostics : Obligations.WarnChangesOnlyDiagnostics := by
  unfold Obligations.WarnChangesOnlyDiagnostics
  refine ⟨fun i s hi => exec_apart i s hi, fun s ret hw hr hb hq => ?_, fun s => ?_⟩
  · exact ⟨_, _, step_resume (s := s.withWarn false) hw hr hb hq, step_resume (s := s.withWarn true) hw hr hb hq,
      runReset_apart ret s⟩
  · obtain ⟨t, ht⟩ := exec_exists_next .openBus (s.withCfgWarn false)
    obtain ⟨u, hu⟩ := exec_exists_next .openBus (s.withCfgWarn true)
    have herase := execOpen_apart ht hu
    have hsilent : SilentSince (s.withCfgWarn false) t := exec_silentSince ht rfl
    refine ⟨t, u, ht, hu, ?_, congrArg State.log herase, hsilent⟩
    exact congrArg (fun x : State => { x with cfg := t.cfg, handle := t.handle, log := t.log }) herase

end Sys2Proof.Machine
end

section
/-! PROOF. The command port (10_state.md R40, R41; 60_exceptions.md R133): what a presented word makes a step do, and its one response. -/

namespace Sys2Proof.Machine

/-- A legal instance at rest, with no reset coming, runs the command that the presented word decodes to. -/
theorem step_runs_presented {s : State} {w : CmdWord} {ws : List CmdWord} {i : Instr} (hw : s.params.wellFormed = true)
    (hr : s.rstIn = none) (hb : s.busy = false) (hc : s.cmds = w :: ws) (hd : decode w = some i) :
    step s = exec i { s with cmds := ws } :=
  (step_eq_stepPort hw hr).trans (stepPort_taken hb hc hd)

/-- Settles O9, by the inversion of the command port. -/
theorem stepRunsPresentedCommand : Obligations.StepRunsPresentedCommand := by
  unfold Obligations.StepRunsPresentedCommand
  exact fun s w ws i => step_runs_presented

/-- A table word that decodes has a value of 12 bits, whose word decodes (30_encoding.md R79). -/
theorem decode_of_decodeTableWord {nbits w : Nat} {i : Instr} (h : decodeTableWord nbits w = some i) :
    decode (BitVec.ofNat 12 (w % 2 ^ nbits)) = some i := by
  unfold decodeTableWord at h
  split at h
  · exact h
  · cases h

/-- Settles O10: the word is presented to a controller at rest with no reset coming, which takes it again. -/
theorem fetchedTableWordRuns : Obligations.FetchedTableWordRuns := by
  unfold Obligations.FetchedTableWordRuns
  intro s nbits w i hw h
  exact step_runs_presented (s := s.withFetchWord nbits w) hw rfl rfl rfl (decode_of_decodeTableWord h)

/-- Settles O12: the command port answers the same state when there is no word to take. -/
theorem restWithoutWordChangesNothing : Obligations.RestWithoutWordChangesNothing := by
  unfold Obligations.RestWithoutWordChangesNothing
  exact fun s hw hr hb hc => (step_eq_stepPort hw hr).trans (stepPort_idle hb hc)

/-! ### Who writes the handle -/

/-- The checks of `OPEN` in the words of 60_exceptions.md R132. -/
theorem acceptable_iff (h : Handle) : h.acceptable = true ↔ h.sclId ≠ h.sdaId ∧ h.freq ≠ 0 := by
  simp [Handle.acceptable]

/-- `OPEN` latches configuration inputs that pass its checks; otherwise a command leaves the handle alone. -/
theorem exec_handle {i : Instr} {s t : State} (hw : s.params.wellFormed = true) (h : exec i s = .next t) :
    t.handle = s.handle ∨ (i = .openBus ∧ s.cfg.acceptable = true ∧ t.handle = s.cfg) := by
  obtain ⟨e, rfl⟩ | ⟨-, -, u, v, hu, -, -, rfl⟩ | ⟨-, -, hseq⟩ | ⟨hi, ha, hseq⟩ := exec_cases i s t hw h
  · exact .inl rfl
  · exact .inl hu.untouched.handle
  · exact .inl hseq.untouched.handle
  · exact .inr ⟨hi, ha, hseq.untouched.handle⟩

/-- The handle after a step of the command port. -/
theorem stepPort_handle {s t : State} (hw : s.params.wellFormed = true) (h : stepPort s = .next t) :
    t.handle = s.handle ∨ (t.handle = s.cfg ∧ s.cfg.sclId ≠ s.cfg.sdaId ∧ s.cfg.freq ≠ 0 ∧ s.busy = false ∧
      ∃ w ws, s.cmds = w :: ws ∧ decode w = some .openBus) := by
  obtain ⟨-, ret, -, rfl⟩ | ⟨-, -, rfl⟩ | ⟨hb, w, ws, hc, ⟨-, rfl⟩ | ⟨i, hd, hi⟩⟩ := stepPort_cases h
  · exact .inl (runReset_untouched ret s).handle
  · exact .inl rfl
  · exact .inl rfl
  · obtain hkept | ⟨rfl, ha, hlatched⟩ := exec_handle (s := { s with cmds := ws }) hw hi
    · exact .inl hkept
    · obtain ⟨hids, hfreq⟩ := (acceptable_iff s.cfg).mp ha
      exact .inr ⟨hlatched, hids, hfreq, hb, w, ws, hc, hd⟩

/-- Settles O19: a step is that of the command port, or ends in a power-on reset whose mark heads the record. -/
theorem onlyOpenWritesTheHandle : Obligations.OnlyOpenWritesTheHandle := by
  unfold Obligations.OnlyOpenWritesTheHandle
  intro s t h
  obtain ⟨hw, ⟨-, hp⟩ | ⟨hr, rfl⟩ | ⟨k, u, hr, hp, ⟨-, rfl⟩ | ⟨-, rfl⟩⟩⟩ := step_cases h
  · exact (stepPort_handle hw hp).imp_right .inr
  · exact .inr (.inl ⟨by simp [hr], [], rfl⟩)
  · exact (stepPort_handle hw hp).imp_right .inr
  · exact .inr (.inl ⟨by simp [hr], _, rfl⟩)

/-! ### Responses -/

/-- Since `s` exactly one response has left, the word `RSP` holds, and `BUSY` is 0; or none has, and `BUSY` is 1. -/
def RespondsAtEnd (s t : State) : Prop :=
  (t.busy = false ∧ responses t.log = t.rsp :: responses s.log) ∨ (t.busy = true ∧ responses t.log = responses s.log)

/-- Line activity of an accepted command gives no response before its end (10_state.md R41). -/
theorem Acts.respondsAtEnd {b u t : State} (hu : Acts b u) (hb : b.busy = true)
    (ht : (∃ v x, t = complete v (setXfer x u)) ∨ ∃ ret, t = setSeq (.resetNext ret) u) : RespondsAtEnd b t := by
  obtain ⟨es, hlog, -⟩ := hu.log
  have hresp : responses u.log = responses b.log := by rw [hlog, responses_record]
  obtain ⟨v, x, rfl⟩ | ⟨ret, rfl⟩ := ht
  · exact .inl ⟨rfl, congrArg (rspWord noError u.sfAcc v :: ·) hresp⟩
  · exact .inr ⟨by rw [hu.onlyLines]; exact hb, hresp⟩

/-- Step 1 of OPEN_SEQ gives no response. -/
theorem openLines_responses (s : State) : responses (openLines s).log = responses s.log := by
  rw [openLines_eq]; exact responses_record _ s.log

/-- What a command does before its line activity is not seen in the responses. -/
theorem RespondsAtEnd.of_responses_eq {s b t : State} (h : RespondsAtEnd b t) (hb : responses b.log = responses s.log) :
    RespondsAtEnd s t := by
  unfold RespondsAtEnd at h ⊢
  rwa [hb] at h

/-- A rejection is a response (60_exceptions.md R130). -/
theorem reject_respondsAtEnd (e : HardError) {s : State} (hb : s.busy = false) : RespondsAtEnd s (reject e s) :=
  .inl ⟨hb, rfl⟩

/-- Every command taken at rest is answered at its end. -/
theorem exec_respondsAtEnd {i : Instr} {s t : State} (hb : s.busy = false) (h : exec i s = .next t) : RespondsAtEnd s t := by
  obtain ⟨e, rfl, -⟩ | ⟨b, u, ⟨-, rfl⟩ | ⟨-, rfl⟩, hu, ht⟩ := exec_acts h
  · exact reject_respondsAtEnd e hb
  · exact (hu.respondsAtEnd rfl ht).of_responses_eq rfl
  · exact (hu.respondsAtEnd rfl ht).of_responses_eq (openLines_responses _)

/-- A step of the command port with something to do answers at the end of its command; with nothing to do it changes nothing. -/
theorem stepPort_respondsAtEnd {s t : State} (h : stepPort s = .next t) :
    RespondsAtEnd s t ∨ (s.busy = false ∧ s.cmds = [] ∧ t = s) := by
  obtain ⟨hb, ret, -, rfl⟩ | hidle | ⟨hb, w, ws, -, ⟨-, rfl⟩ | ⟨i, -, hi⟩⟩ := stepPort_cases h
  · obtain ⟨u, hu, ht⟩ := runReset_acts ret s
    exact .inl (hu.respondsAtEnd hb (ht.imp (fun ⟨x, h⟩ => ⟨0, x, h⟩) fun h => ⟨ret, h⟩))
  · exact .inr hidle
  · exact .inl (reject_respondsAtEnd (s := { s with cmds := ws }) .illegalCommand hb)
  · exact .inl (exec_respondsAtEnd (s := { s with cmds := ws }) hb hi)

/-- Settles O46: `BUSY` at the end of the step tells whether the response has been given. -/
theorem oneResponsePerTakenWord : Obligations.OneResponsePerTakenWord := by
  unfold Obligations.OneResponsePerTakenWord
  intro s t hr h
  obtain ⟨hw, -⟩ := step_cases h
  rw [step_eq_stepPort hw hr] at h
  refine ⟨fun hbusy => ?_, fun hdone htodo => ?_, fun hb hc => ?_⟩
  · obtain (⟨hdone, -⟩ | ⟨-, hnone⟩) | ⟨-, -, rfl⟩ := stepPort_respondsAtEnd h
    · rw [hbusy] at hdone; cases hdone
    · exact hnone
    · rfl
  · obtain (⟨-, hone⟩ | ⟨hbusy, -⟩) | ⟨hb, hc, -⟩ := stepPort_respondsAtEnd h
    · exact hone
    · rw [hbusy] at hdone; cases hdone
    · simp [hb, hc] at htodo
  · rw [stepPort_idle hb hc] at h; injection h with h; exact h.symm

end Sys2Proof.Machine
end

section
/-! PROOF. The half-period (10_state.md R26) and the layout of the control registers (R35). -/

namespace Sys2Proof.Machine

/-- A quotient in lowest terms stands for the number it is written with. -/
theorem toRat_quotient (num den : Nat) : (Micros.quotient num den).toRat = (num : Rat) / (den : Rat) :=
  Nat.cast_div_div_div_cancel_right (Nat.gcd_dvd_right num den) (Nat.gcd_dvd_left num den)

/-- The half-period as a number. -/
theorem toRat_halfPeriod (h : Handle) : h.halfPeriod.toRat = 500000 / (h.freq.toNat : Rat) :=
  toRat_quotient Config.halfPeriodNum h.freq.toNat

/-- Settles O52: the quotient in lowest terms is that of its numbers, so twice the frequency is half the quotient. -/
theorem halfPeriodIsExact : Obligations.HalfPeriodIsExact := by
  unfold Obligations.HalfPeriodIsExact
  refine ⟨toRat_halfPeriod, fun h hf => ?_, fun h g hg => ?_⟩
  · unfold Handle.halfPeriod
    rw [hf]; decide
  · calc g.halfPeriod.toRat = 500000 / ((2 * h.freq.toNat : Nat) : Rat) := by rw [toRat_halfPeriod, hg]
      _ = 500000 / (h.freq.toNat : Rat) / 2 := by rw [Nat.cast_mul, Nat.cast_ofNat, mul_comm, div_mul_eq_div_div]
      _ = h.halfPeriod.toRat / 2 := by rw [toRat_halfPeriod]

/-- STATUS bit by bit: one check of each of the 32 values that the five flags it is made of can have. -/
theorem status_layout (s : State) :
    s.status.getLsbD 0 = s.opened ∧ s.status.getLsbD 1 = s.busy ∧ s.status.getLsbD 2 = s.xfer ∧
      s.status.getLsbD 3 = s.drv.scl ∧ s.status.getLsbD 4 = s.drv.sda ∧ s.status.extractLsb' 5 7 = 0 := by
  unfold State.status
  generalize s.opened = opened, s.busy = busy, s.xfer = xfer, s.drv.scl = scl, s.drv.sda = sda
  revert opened busy xfer scl sda
  decide

/-- Settles O53: CR0 to CR2 and CR5 are the fields themselves, CR3 is one bit, CR4 is STATUS. -/
theorem controlRegistersReadAsLaidOut : Obligations.ControlRegistersReadAsLaidOut := by
  unfold Obligations.ControlRegistersReadAsLaidOut
  exact fun s => ⟨rfl, rfl, rfl, BitVec.toNat_ofBool _, rfl, status_layout s⟩

end Sys2Proof.Machine
end

section
/-! PROOF. What a step adds to the record (20_memory.md R60), and that it samples released lines only (R54). -/

namespace Sys2Proof.Machine

/-- A sample of a line the controller drives reads 0 and takes no answer of the environment (20_memory.md R54; log 12). -/
theorem sample_of_driven {s : State} {l : Line} (h : s.drv.get l = true) :
    sample l s = (false, emit (.sample l false) (setEnv { s.env with taken := s.env.taken + 1 } s)) :=
  if_pos h

/-- Settles O50: the four claims are fields of the state that such a sample leaves. -/
theorem sampleOfDrivenLineReadsZero : Obligations.SampleOfDrivenLineReadsZero := by
  unfold Obligations.SampleOfDrivenLineReadsZero
  intro s l h
  rw [sample_of_driven h]
  exact ⟨rfl, rfl, rfl, rfl⟩

/-- From `s` to `t` the record shows events, and after them at most the response, and no sample among them is of a driven line. -/
def SampledReleased (s t : State) : Prop := ∃ es, Emitted s t es ∧ SamplesReleased s.drv es

/-- Events that have led from `s` to `b` come before those that lead on from `b`. -/
theorem Emitted.prepend {s b t : State} {es fs : List Event} (hb : b.log = record es s.log) (h : Emitted b t fs) :
    Emitted s t (es ++ fs) := by
  unfold Emitted at h ⊢
  rwa [hb, record_trans] at h

/-- A rejection emits no event (60_exceptions.md R130). -/
theorem reject_sampledReleased (e : HardError) (s : State) : SampledReleased s (reject e s) := ⟨[], .inr rfl, trivial⟩

/-- Line activity with its end, the response or a failed rise. -/
theorem Acts.sampledReleased {b u t : State} (hu : Acts b u)
    (ht : (∃ v x, t = complete v (setXfer x u)) ∨ ∃ ret, t = setSeq (.resetNext ret) u) : SampledReleased b t := by
  obtain ⟨es, hemit, htrace, -⟩ := hu.emitted ht
  exact ⟨es, hemit, htrace.released⟩

/-- Step 1 of OPEN_SEQ samples nothing, and what follows it begins with both lines released (41_open.md R101). -/
theorem SampledReleased.after_openLines {b t : State} (h : SampledReleased (openLines b) t) : SampledReleased b t := by
  obtain ⟨es, hemit, hreleased⟩ := h
  rw [openLines_eq] at hemit hreleased
  refine ⟨[.release .scl, .release .sda, .pullup .scl, .pullup .sda] ++ es, hemit.prepend rfl, ?_⟩
  exact samplesReleased_append _ es b.drv (by simp [SamplesReleased]) hreleased

/-- No command samples a driven line, whatever the drive bits were when it was taken. -/
theorem exec_sampledReleased {i : Instr} {s t : State} (h : exec i s = .next t) : SampledReleased s t := by
  obtain ⟨e, rfl, -⟩ | ⟨b, u, ⟨-, rfl⟩ | ⟨-, rfl⟩, hu, ht⟩ := exec_acts h
  · exact reject_sampledReleased e s
  · exact hu.sampledReleased ht
  · exact (hu.sampledReleased ht).after_openLines

/-- The step of the command port samples no driven line: it goes on with a command, does nothing, or takes a word. -/
theorem stepPort_sampledReleased {s t : State} (h : stepPort s = .next t) : SampledReleased s t := by
  obtain ⟨-, ret, -, rfl⟩ | ⟨-, -, rfl⟩ | ⟨-, w, ws, -, ⟨-, rfl⟩ | ⟨i, -, hi⟩⟩ := stepPort_cases h
  · obtain ⟨u, hu, ht⟩ := runReset_acts ret s
    exact hu.sampledReleased (ht.imp (fun ⟨x, h⟩ => ⟨0, x, h⟩) fun h => ⟨ret, h⟩)
  · exact ⟨[], .inl rfl, trivial⟩
  · exact reject_sampledReleased .illegalCommand { s with cmds := ws }
  · exact exec_sampledReleased (s := { s with cmds := ws }) hi

/-- What a step shows in the record: the events of the command port with its response, or those up to a power-on reset and its mark. -/
theorem step_trace {s t : State} (h : step s = .next t) :
    ∃ es, (Emitted s t es ∨ t.log = .powerOn :: record es s.log) ∧ SamplesReleased s.drv es := by
  obtain ⟨-, ⟨-, hp⟩ | ⟨-, rfl⟩ | ⟨k, u, -, hp, ⟨-, rfl⟩ | ⟨-, rfl⟩⟩⟩ := step_cases h
  · obtain ⟨es, hemit, hreleased⟩ := stepPort_sampledReleased hp
    exact ⟨es, .inl hemit, hreleased⟩
  · exact ⟨[], .inr rfl, trivial⟩
  · obtain ⟨es, hemit, hreleased⟩ := stepPort_sampledReleased hp
    exact ⟨es, .inl hemit, hreleased⟩
  · obtain ⟨es, hemit, hreleased⟩ := stepPort_sampledReleased hp
    rw [hemit.eventsSince]
    exact ⟨es.take (k + 1), .inr rfl, samplesReleased_take _ _ es hreleased⟩

/-- Settles O44: every action of a sequence samples a line it has released, and a step cut short by `rst` shows a prefix of its trace. -/
theorem drivenLineIsNeverSampled : Obligations.DrivenLineIsNeverSampled := by
  unfold Obligations.DrivenLineIsNeverSampled
  exact ⟨fun _ _ _ => exec_sampledReleased, fun _ _ => step_trace⟩

/-- Settles O47: the trace of a step stands in front of the record before it, with a response or the mark of a reset or without. -/
theorem recordOnlyGrows : Obligations.RecordOnlyGrows := by
  unfold Obligations.RecordOnlyGrows
  intro s t h
  obtain ⟨es, (hlog | hlog) | hlog, -⟩ := step_trace h
  · exact ⟨(es.map Out.ev).reverse, hlog⟩
  · exact ⟨.rsp t.rsp :: (es.map Out.ev).reverse, hlog⟩
  · exact ⟨.powerOn :: (es.map Out.ev).reverse, hlog⟩

end Sys2Proof.Machine
end

section
/-! PROOF. The wire (20_memory.md R58, R66): the level of a line, and the conditions that `START` and `STOP` make on a quiet wire. -/

namespace Sys2Proof.Machine

/-! ### The level of a line -/

theorem wireLevel_eq_true_iff (driven held pulledUp : Bool) :
    wireLevel driven held pulledUp = true ↔ driven = false ∧ held = false ∧ pulledUp = true := by
  simp [wireLevel, and_assoc]

/-- A line that nobody else holds and that has its pull-up. -/
theorem wireLevel_quiet (driven : Bool) : wireLevel driven false true = !driven := by
  simp [wireLevel]

/-- Settles O55: the level of each line is the wired-AND of its own drive bit and its own outside. -/
theorem lineLevelIsWiredAnd : Obligations.LineLevelIsWiredAnd := by
  unfold Obligations.LineLevelIsWiredAnd
  exact fun d o => ⟨wireLevel_eq_true_iff d.scl o.sclHeld o.sclPulledUp, wireLevel_eq_true_iff d.sda o.sdaHeld o.sdaPulledUp,
    wireLevel_quiet d.scl, wireLevel_quiet d.sda⟩

/-! ### `START` and `STOP` with SDA high -/

/-- START_SEQ whose check reads 1 goes on without a reset (44_sequence_control.md R121). -/
theorem exec_start_of_sda_high {s : State} {vs cs ds : List Level} (ho : s.opened = true) (hw : WholeWait s.params.pollMax vs)
    (hscl : s.env.scl = vs ++ cs) (hsda : s.env.sda = true :: ds) :
    exec .start s = .next (s.ended
      { sf := waitSf vs 0, val := 0x00, drv := .low, xfer := true, scl := cs, sda := ds, samples := 1 + vs.length
        events := tRelease s.handle.halfPeriod .sda true ++ tWait s.params s.handle vs
          ++ tPull s.handle.halfPeriod .sda ++ tPull s.handle.halfPeriod .scl }) := by
  have hrun : exec .start s = .next (startSeq (accept s)) := if_pos ho
  rw [hrun, accept_ran s _ _ hscl hsda]
  simp only [startSeq, release_sda_ran, if_true, finish]
  rw [startTail_ran (accept s) _ _ _ _ _ _ _ _ _ hw, Nat.add_assoc, complete_ran]
  simp only [accept_handle, accept_params, List.nil_append, List.append_assoc]

/-- STOP_SEQ whose line activity ends with SDA high completes without a reset (44_sequence_control.md R122). -/
theorem exec_stop_of_sda_rises {s : State} {vs cs ds : List Level} (ho : s.opened = true) (hw : WholeWait s.params.pollMax vs)
    (hscl : s.env.scl = vs ++ cs) (hsda : s.env.sda = true :: ds) :
    exec .stop s = .next (s.ended
      { sf := waitSf vs 0, val := 0x00, drv := .released, xfer := false, scl := cs, sda := ds, samples := vs.length + 1
        events := tWait s.params s.handle vs ++ tRelease s.handle.halfPeriod .sda true }) := by
  have hrun : exec .stop s = .next (stopSeq (accept s)) := if_pos ho
  rw [hrun, accept_ran s _ _ hscl hsda]
  simp only [stopSeq]
  rw [stopLines_ran (accept s) _ _ _ _ _ _ _ _ _ _ hw]
  simp only [if_true, complete_ran, accept_handle, accept_params, List.nil_append]

/-- What a command that has ended shows since it was taken. -/
theorem eventsSince_ended (s : State) (e : Effect) : eventsSince s (s.ended e) = e.events := eventsSince_rsp rfl

/-! ### On a quiet wire -/

/-- A clock that rises at once makes a whole wait (40_line_primitives.md R93). -/
theorem wholeWait_high (pollMax : Nat) : WholeWait pollMax [true] := .inl ⟨0, Nat.zero_le pollMax, rfl⟩

/-- A RELWAIT whose clock rises at once is a RELEASE. -/
theorem tWait_high (p : Params) (h : Handle) : tWait p h [true] = tRelease h.halfPeriod .scl true := rfl

/-- SDA falls once while SCL is high, and that is START_SEQ's own pull: from low lines SDA is released before SCL, so its rise makes no
STOP (44_sequence_control.md R121). -/
theorem conditions_of_start (T : Micros) {d : Drv} (hd : d = .low ∨ d = .released) :
    conditions (quietLevels d (tRelease T .sda true ++ tRelease T .scl true ++ tPull T .sda ++ tPull T .scl)) = [.start] := by
  obtain rfl | rfl := hd <;> rfl

/-- From low lines SCL is released before SDA, so the rise of SDA is a STOP (44_sequence_control.md R122). -/
theorem conditions_of_stop (T : Micros) :
    conditions (quietLevels .low (tRelease T .scl true ++ tRelease T .sda true)) = [.stop] := rfl

/-- Settles O56: both commands find SDA high and wait for no clock, so their traces are those of `conditions_of_start` and
`conditions_of_stop`. -/
theorem startThenStopOnTheWire : Obligations.StartThenStopOnTheWire := by
  unfold Obligations.StartThenStopOnTheWire
  rintro s ho hd ⟨⟨cs, hscl⟩, ds, hsda⟩
  have hstart := exec_start_of_sda_high (cs := true :: cs) (ds := true :: ds) ho (wholeWait_high s.params.pollMax) hscl hsda
  refine ⟨_, _, hstart, exec_stop_of_sda_rises ho (wholeWait_high s.params.pollMax) rfl rfl, rfl, rfl, ?_, ?_⟩
  · rw [eventsSince_ended, tWait_high]; exact conditions_of_start _ hd
  · rw [eventsSince_ended, tWait_high]; exact conditions_of_stop _

end Sys2Proof.Machine
end

section
/-! PROOF. The command words (30_encoding.md R70 to R72, R77): a word is its two fields, a command is its opcode and its operand, and the
decoder and the opcode map agree on every word. -/

namespace Sys2Proof

/-! ### A word is its two fields -/

@[simp] theorem opField_assembleWord (op : BitVec 4) (arg : Byte) : opField (assembleWord op arg) = op :=
  BitVec.extractLsb'_append_eq_left

@[simp] theorem argField_assembleWord (op : BitVec 4) (arg : Byte) : argField (assembleWord op arg) = arg :=
  BitVec.extractLsb'_append_eq_right

/-- No bit of a word is outside its fields (30_encoding.md R70). -/
theorem assembleWord_fields (w : CmdWord) : assembleWord (opField w) (argField w) = w :=
  (BitVec.extractLsb'_append_extractLsb'_eq_extractLsb' rfl).trans BitVec.extractLsb'_eq_self

/-- The number of a word put together from two: the high part is worth `2 ^ n` for a low part of `n` bits. -/
theorem toNat_append_eq_add {m n : Nat} (x : BitVec m) (y : BitVec n) : (x ++ y).toNat = 2 ^ n * x.toNat + y.toNat := by
  rw [BitVec.toNat_append, ← Nat.shiftLeft_add_eq_or_of_lt y.isLt, Nat.shiftLeft_eq, mul_comm]

theorem toNat_assembleWord (op : BitVec 4) (arg : Byte) : (assembleWord op arg).toNat = 256 * op.toNat + arg.toNat :=
  toNat_append_eq_add op arg

@[simp] theorem opField_encode (i : Instr) : opField (encode i) = i.opcode := opField_assembleWord ..

@[simp] theorem argField_encode (i : Instr) : argField (encode i) = i.operand := argField_assembleWord ..

/-! ### The decoder reads the opcode and the operand of a command -/

/-- A command without operand is selected when `arg` is 0x00, and no other is (30_encoding.md R72). -/
theorem withoutOperand_eq_some {arg : Byte} {i j : Instr} : (withoutOperand arg i).toOption = some j ↔ i = j ∧ arg = 0 := by
  unfold withoutOperand
  split
  case isTrue h => simp [Except.toOption, h]
  case isFalse h => exact iff_of_false (Option.some_ne_none j).symm fun hsel => h hsel.2

/-- A word selects the command that has its opcode and its operand, and no other (30_encoding.md R71). -/
theorem decode_eq_some_iff {w : CmdWord} {i : Instr} : decode w = some i ↔ opField w = i.opcode ∧ argField w = i.operand := by
  constructor
  · intro h
    unfold decode decodeNamed at h
    split at h
    case h_1 hop | h_2 hop | h_3 hop | h_4 hop | h_6 hop | h_8 hop =>
      obtain ⟨rfl, harg⟩ := withoutOperand_eq_some.mp h
      exact ⟨BitVec.eq_of_toNat_eq hop, harg⟩
    case h_5 hop | h_7 hop =>
      cases h
      exact ⟨BitVec.eq_of_toNat_eq hop, rfl⟩
    case h_9 => cases h
  · rintro ⟨hop, harg⟩
    unfold decode decodeNamed
    rw [hop, harg]
    cases i <;> rfl

/-- Encoding a command and decoding the word gives the command back, with every operand. -/
theorem decode_encode (i : Instr) : decode (encode i) = some i :=
  decode_eq_some_iff.mpr ⟨opField_encode i, argField_encode i⟩

/-- A word that decodes is the word of the command it selects. -/
theorem encode_of_decode {w : CmdWord} {i : Instr} (h : decode w = some i) : encode i = w := by
  obtain ⟨hop, harg⟩ := decode_eq_some_iff.mp h
  unfold encode
  rw [← hop, ← harg, assembleWord_fields]

/-- Settles O1: the word's fields are the command's opcode and operand, which the decoder reads. -/
theorem encodedCommandsDecodeBack : Obligations.EncodedCommandsDecodeBack := by
  unfold Obligations.EncodedCommandsDecodeBack
  exact fun i _ => decode_encode i

/-! ### The opcode map's masks and patterns -/

/-- The word of a command has the command's pattern under its mask (30_encoding.md R71). -/
theorem encode_and_mask (i : Instr) : encode i &&& i.mask = i.pattern := by
  cases i with
  | openBus => exact Laws.WordShape.openBus.1
  | start => exact Laws.WordShape.start.1
  | stop => exact Laws.WordShape.stop.1
  | reset => exact Laws.WordShape.reset.1
  | sendBit arg => exact (Laws.WordShape.sendBit arg).1
  | readBit => exact Laws.WordShape.readBit.1
  | sendByte arg => exact (Laws.WordShape.sendByte arg).1
  | readByte => exact Laws.WordShape.readByte.1

/-- Every mask keeps the whole opcode (30_encoding.md R71). -/
theorem opField_and_mask (w : CmdWord) (i : Instr) : opField (w &&& i.mask) = opField w := by
  have hmask : opField i.mask = BitVec.allOnes 4 := by
    cases i with
    | sendBit _ | sendByte _ => exact (by decide : opField 0xF00 = BitVec.allOnes 4)
    | openBus | start | stop | reset | readBit | readByte => decide
  calc opField (w &&& i.mask) = opField w &&& opField i.mask := BitVec.extractLsb'_and
    _ = opField w := by rw [hmask, BitVec.and_allOnes]

/-- A word that matches a command's pattern agrees with the command's own word under the mask. -/
theorem and_mask_eq_encode {w : CmdWord} {i : Instr} (h : w &&& i.mask = i.pattern) : w &&& i.mask = encode i &&& i.mask :=
  h.trans (encode_and_mask i).symm

/-- A word that matches a command's pattern has the command's opcode, since no mask hides a bit of it. -/
theorem opField_of_match {w : CmdWord} {i : Instr} (h : w &&& i.mask = i.pattern) : opField w = i.opcode := by
  rw [← opField_and_mask w i, and_mask_eq_encode h, opField_and_mask, opField_encode]

/-- A mask of all ones leaves one word to match: the command's own. -/
theorem eq_encode_of_match {w : CmdWord} {i : Instr} (hmask : i.mask = BitVec.allOnes 12) (h : w &&& i.mask = i.pattern) :
    w = encode i := by
  have hmatch := and_mask_eq_encode h
  rwa [hmask, BitVec.and_allOnes, BitVec.and_allOnes] at hmatch

/-- A word that matches the pattern of a command decodes to a command of its opcode: the command itself, or where it has an operand
the command with the word's `arg`. -/
theorem exists_decode_of_match {w : CmdWord} {i : Instr} (h : w &&& i.mask = i.pattern) :
    ∃ j, decode w = some j ∧ j.opcode = i.opcode := by
  cases i with
  | sendBit _ => exact ⟨.sendBit (argField w), decode_eq_some_iff.mpr ⟨opField_of_match h, rfl⟩, rfl⟩
  | sendByte _ => exact ⟨.sendByte (argField w), decode_eq_some_iff.mpr ⟨opField_of_match h, rfl⟩, rfl⟩
  | openBus | start | stop | reset | readBit | readByte =>
    rw [eq_encode_of_match rfl h]
    exact ⟨_, decode_encode _, rfl⟩

/-- Settles O2: a decoded word is its command's own word, and a match fixes the opcode. -/
theorem decodedWordsMatchTheirPattern : Obligations.DecodedWordsMatchTheirPattern := by
  unfold Obligations.DecodedWordsMatchTheirPattern
  refine fun w => ⟨fun i h => ?_, fun i => exists_decode_of_match⟩
  rw [← encode_of_decode h]
  exact ⟨rfl, encode_and_mask i⟩

/-! ### The reserved words -/

/-- The opcodes of the commands with an operand (30_encoding.md R71). -/
def opsWithOperand : List (BitVec 4) := [0x5, 0x7]

/-- The opcodes of the commands without one (30_encoding.md R71, R77). -/
def opsWithoutOperand : List (BitVec 4) := [0x1, 0x2, 0x3, 0x4, 0x6, 0x8]

/-- The words that decode: any operand after the first opcodes, 0x00 after the others (30_encoding.md R72). -/
theorem isSome_decode_iff (w : CmdWord) :
    (decode w).isSome = true ↔ opField w ∈ opsWithOperand ∨ (opField w ∈ opsWithoutOperand ∧ argField w = 0) := by
  simp only [Option.isSome_iff_exists, decode_eq_some_iff, opsWithOperand, opsWithoutOperand, List.mem_cons, List.not_mem_nil, or_false]
  constructor
  · rintro ⟨i, hop, harg⟩
    cases i <;> simp [hop, harg, Instr.opcode, Instr.operand]
  · rintro ((hop | hop) | ⟨hop | hop | hop | hop | hop | hop, harg⟩)
    · exact ⟨.sendBit (argField w), hop, rfl⟩
    · exact ⟨.sendByte (argField w), hop, rfl⟩
    · exact ⟨.openBus, hop, harg⟩
    · exact ⟨.start, hop, harg⟩
    · exact ⟨.stop, hop, harg⟩
    · exact ⟨.reset, hop, harg⟩
    · exact ⟨.readBit, hop, harg⟩
    · exact ⟨.readByte, hop, harg⟩

/-- The opcodes of no command (30_encoding.md R77). -/
theorem reservedOp_iff : ∀ op : BitVec 4, (op = 0x0 ∨ 0x9 ≤ op.toNat) ↔ op ∉ opsWithOperand ∧ op ∉ opsWithoutOperand := by
  decide

/-- No opcode is of both kinds. -/
theorem not_mem_opsWithOperand : ∀ op ∈ opsWithoutOperand, op ∉ opsWithOperand := by
  decide

/-- The reserved words are the others (30_encoding.md R77). -/
theorem decode_eq_none_iff (w : CmdWord) :
    decode w = none ↔ opField w = 0x0 ∨ 0x9 ≤ (opField w).toNat ∨ (opField w ∈ opsWithoutOperand ∧ argField w ≠ 0) := by
  rw [← Option.not_isSome_iff_eq_none, isSome_decode_iff, ← or_assoc, reservedOp_iff]
  have hdisjoint := not_mem_opsWithOperand (opField w)
  tauto

/-! ### Counting them -/

/-- One operand in 256 is 0x00. -/
theorem countP_zero_operand : ((List.range 256).countP fun arg => decide (BitVec.ofNat 8 arg = 0)) = 1 := by
  calc _ = (List.range 256).count 0 := List.countP_congr fun arg harg => by
        have := List.mem_range.mp harg
        simp [BitVec.toNat_eq]; omega
    _ = 1 := List.count_eq_one_of_mem List.nodup_range (by simp)

/-- How many words of an opcode decode. -/
def admittedOperands (op : BitVec 4) : Nat :=
  if op ∈ opsWithOperand then 256 else if op ∈ opsWithoutOperand then 1 else 0

/-- The words of one opcode, one for each operand. -/
theorem countP_operands (op : BitVec 4) :
    ((List.range 256).countP fun arg => (decode (assembleWord op (BitVec.ofNat 8 arg))).isSome) = admittedOperands op := by
  have hdec : ∀ arg : Byte, (decode (assembleWord op arg)).isSome
      = decide (op ∈ opsWithOperand ∨ (op ∈ opsWithoutOperand ∧ arg = 0)) := fun arg => by
    rw [Bool.eq_iff_iff, isSome_decode_iff, opField_assembleWord, argField_assembleWord, decide_eq_true_iff]
  simp only [hdec, admittedOperands]
  by_cases hwith : op ∈ opsWithOperand
  · simp [hwith]
  · by_cases hwithout : op ∈ opsWithoutOperand
    · simp only [hwith, hwithout, false_or, true_and, if_false, if_true, countP_zero_operand]
    · simp [hwith, hwithout]

/-- The numbers below `m * k` are `m` rows of `k`. -/
theorem countP_range_mul (p : Nat → Bool) (m k : Nat) :
    (List.range (m * k)).countP p = ((List.range m).map fun i => (List.range k).countP fun j => p (i * k + j)).sum := by
  induction m with
  | zero => simp
  | succ m ih =>
    simp [Nat.add_mul, List.range_add, List.range_succ, ih, List.countP_map, Function.comp_def]

/-- The words in the order of their numbers: 256 operands to an opcode. -/
theorem ofNat_eq_assembleWord (op arg : Nat) (harg : arg < 256) :
    BitVec.ofNat 12 (op * 256 + arg) = assembleWord (BitVec.ofNat 4 op) (BitVec.ofNat 8 arg) := by
  apply BitVec.eq_of_toNat_eq
  rw [toNat_assembleWord, BitVec.toNat_ofNat, BitVec.toNat_ofNat, BitVec.toNat_ofNat]
  omega

/-- 518 of the 4096 words decode (30_encoding.md R77). -/
theorem countP_decode_isSome : ((List.range 4096).countP fun n => (decode (BitVec.ofNat 12 n)).isSome) = 518 := by
  have hrow : ∀ op : Nat, ((List.range 256).countP fun arg => (decode (BitVec.ofNat 12 (op * 256 + arg))).isSome)
      = admittedOperands (BitVec.ofNat 4 op) := fun op => by
    rw [← countP_operands]
    exact List.countP_congr fun arg harg => by rw [ofNat_eq_assembleWord op arg (List.mem_range.mp harg)]
  calc _ = ((List.range 16).map fun op => admittedOperands (BitVec.ofNat 4 op)).sum := by
        rw [countP_range_mul _ 16 256]; simp only [hrow]
    _ = 518 := by decide

/-- The other 3578 do not. -/
theorem countP_decode_isNone : ((List.range 4096).countP fun n => (decode (BitVec.ofNat 12 n)).isNone) = 3578 := by
  have hall := List.length_eq_countP_add_countP (fun n => (decode (BitVec.ofNat 12 n)).isSome) (l := List.range 4096)
  simp only [List.length_range, countP_decode_isSome, Bool.not_eq_true, Option.isSome_eq_false_iff, Bool.decide_eq_true] at hall
  omega

end Sys2Proof
end

section
/-! PROOF. Reserved words at the command port (60_exceptions.md R130), the words of the spec's tables and the assembler's lines
(30_encoding.md R80 to R82), the response word (R73 to R76), and the operand of `SENDBIT` (R72). -/

namespace Sys2Proof.Machine

/-! ### Reserved words are rejected -/

/-- A reserved word, when taken, leaves the port and gives one response of `err` 1 and nothing else (60_exceptions.md R130). -/
theorem step_rejects_reserved {s : State} {w : CmdWord} {ws : List CmdWord} (hw : s.params.wellFormed = true)
    (hr : s.rstIn = none) (hb : s.busy = false) (hc : s.cmds = w :: ws) (hd : decode w = none) :
    step s = .next { s with cmds := ws, rsp := 0x400, log := .rsp 0x400 :: s.log } := by
  have hword : rspWord HardError.illegalCommand.code 0 0 = 0x400 := by decide
  rw [step_eq_stepPort hw hr, stepPort_reserved hb hc hd, reject, hword]
  rfl

/-- Settles O3: the words that do not decode are counted row by row, and taking one is a rejection. -/
theorem reservedWordsAreRejected : Obligations.ReservedWordsAreRejected := by
  unfold Obligations.ReservedWordsAreRejected
  exact ⟨decode_eq_none_iff, countP_decode_isSome, countP_decode_isNone, fun _ _ _ => step_rejects_reserved⟩

/-- Settles O4: twelve words written out. -/
theorem sampleWordsDecode : Obligations.SampleWordsDecode := by
  unfold Obligations.SampleWordsDecode
  decide

/-! ### The address byte and the pseudo-instructions -/

/-- The address shifted left by one leaves bit 0 to the flag (30_encoding.md R82). -/
theorem addressByte_eq_append (a : BitVec 7) (flag : Bool) : addressByte a flag = a ++ BitVec.ofBool flag := by
  rw [BitVec.append_def]
  simp [addressByte, BitVec.shiftLeftZeroExtend_eq]

theorem toNat_addressByte (a : BitVec 7) (flag : Bool) : (addressByte a flag).toNat = 2 * a.toNat + flag.toNat := by
  rw [addressByte_eq_append, toNat_append_eq_add, BitVec.toNat_ofBool, pow_one]

/-- Settles O5: the address byte is the address with the flag appended. -/
theorem addressByteCarriesAddressAndFlag : Obligations.AddressByteCarriesAddressAndFlag := by
  unfold Obligations.AddressByteCarriesAddressAndFlag
  intro a flag
  refine ⟨addressByte_eq_append a flag, ?_, ?_, toNat_addressByte a flag⟩
  · rw [addressByte_eq_append]; exact BitVec.extractLsb'_append_eq_left
  · rw [addressByte_eq_append, BitVec.getLsbD_append]; simp

/-- The assembler refuses no address up to 127 (30_encoding.md R81). -/
theorem expand_addr {a : Nat} (ha : a ≤ 127) :
    (Pseudo.addrW a).expand = some (.sendByte (addressByte (BitVec.ofNat 7 a) false)) ∧
      (Pseudo.addrR a).expand = some (.sendByte (addressByte (BitVec.ofNat 7 a) true)) :=
  ⟨if_pos (decide_eq_true ha), if_pos (decide_eq_true ha)⟩

/-- It refuses every larger one. -/
theorem expand_addr_eq_none {a : Nat} (ha : 127 < a) : (Pseudo.addrW a).expand = none ∧ (Pseudo.addrR a).expand = none :=
  have hrefused : ¬ decide (a ≤ 127) = true := by simpa using ha
  ⟨if_neg hrefused, if_neg hrefused⟩

/-- The word that sends the address byte of an address up to 127. -/
theorem toNat_encode_addressByte {a : Nat} (ha : a ≤ 127) (flag : Bool) :
    (encode (.sendByte (addressByte (BitVec.ofNat 7 a) flag))).toNat = 0x700 + 2 * a + flag.toNat := by
  calc _ = 256 * 7 + (2 * (a % 2 ^ 7) + flag.toNat) := by
        rw [← BitVec.toNat_ofNat, ← toNat_addressByte]; exact toNat_assembleWord ..
    _ = 0x700 + 2 * a + flag.toNat := by omega

/-- Settles O6: `ACK` and `NACK` are fixed words, and the address byte is the operand of the other two. -/
theorem pseudoInstructionsExpand : Obligations.PseudoInstructionsExpand := by
  unfold Obligations.PseudoInstructionsExpand
  refine ⟨rfl, rfl, fun i h => ?_, fun i h => ?_, fun a => ⟨fun ha => ?_, expand_addr_eq_none⟩⟩
  · cases h; decide
  · cases h; decide
  · obtain ⟨hW, hR⟩ := expand_addr ha
    exact ⟨_, _, hW, toNat_encode_addressByte ha false, hR, toNat_encode_addressByte ha true⟩

/-! ### The response word -/

section fields

variable (err sf : BitVec 2) (val : Byte) (w : RspWord)

@[simp] theorem rspErr_rspWord : rspErr (rspWord err sf val) = err :=
  (BitVec.extractLsb'_append_eq_of_le (by decide)).trans BitVec.extractLsb'_append_eq_left

@[simp] theorem rspSf_rspWord : rspSf (rspWord err sf val) = sf :=
  (BitVec.extractLsb'_append_eq_of_le (by decide)).trans BitVec.extractLsb'_append_eq_right

@[simp] theorem rspVal_rspWord : rspVal (rspWord err sf val) = val := BitVec.extractLsb'_append_eq_right

/-- No bit of a response is outside its fields (30_encoding.md R73). -/
theorem rspWord_fields : rspWord (rspErr w) (rspSf w) (rspVal w) = w := by
  have hhigh : rspErr w ++ rspSf w = w.extractLsb' 8 4 := BitVec.extractLsb'_append_extractLsb'_eq_extractLsb' rfl
  unfold rspWord
  rw [hhigh]
  exact assembleWord_fields w

end fields

/-- Settles O7: the fields read back what was put in and make up the word; the codes and the level bytes are fixed values. -/
theorem responseWordCarriesItsFields : Obligations.ResponseWordCarriesItsFields := by
  unfold Obligations.ResponseWordCarriesItsFields
  exact ⟨fun err sf val => ⟨rspErr_rspWord err sf val, rspSf_rspWord err sf val, rspVal_rspWord err sf val⟩, rspWord_fields,
    rfl, rfl, rfl, rfl, rfl, rfl⟩

/-! ### The assembler's lines -/

/-- Settles O8: eight lines written out. -/
theorem assemblerLinesSpellCommands : Obligations.AssemblerLinesSpellCommands := by
  unfold Obligations.AssemblerLinesSpellCommands
  decide

/-! ### The operand of `SENDBIT` -/

/-- Any operand but 0x00 stands for the bit 1 (30_encoding.md R72). -/
theorem sentBit_of_ne_zero {x : Byte} (hx : x ≠ 0) : sentBit x = true := bne_iff_ne.mpr hx

/-- SENDBIT_SEQ uses its operand for the bit alone (42_bit_transfer.md R105). -/
theorem exec_sendBit_congr {a b : Byte} (h : sentBit a = sentBit b) (s : State) : exec (.sendBit a) s = exec (.sendBit b) s := by
  simp only [exec, execSendBit, sendBitSeq, h]

/-- Settles O54: both operands stand for the bit 1. -/
theorem nonZeroOperandsSendTheSameBit : Obligations.NonZeroOperandsSendTheSameBit := by
  unfold Obligations.NonZeroOperandsSendTheSameBit
  exact fun s a b ha hb => exec_sendBit_congr ((sentBit_of_ne_zero ha).trans (sentBit_of_ne_zero hb).symm) s

end Sys2Proof.Machine
end

section
/-! PROOF. The line primitives (40_line_primitives.md): what PULL and RELEASE do (R90, R91), the settle rule along whole commands (R92), and
the bound of RELWAIT (R94). -/

namespace Sys2Proof.Machine

/-! ### PULL and RELEASE -/

theorem Drv.get_set_same (d : Drv) (l : Line) (b : Bool) : (d.set l b).get l = b := by
  cases l <;> rfl

theorem Drv.get_set_of_ne (d : Drv) {l m : Line} (b : Bool) (h : m ≠ l) : (d.set l b).get m = d.get m := by
  cases l <;> cases m
  case scl.sda | sda.scl => rfl
  all_goals exact absurd rfl h

/-- Settles O48: the frame and the record hold by the definition of PULL, for either value of the drive bit. -/
theorem pullDrivesAndWaits : Obligations.PullDrivesAndWaits := by
  unfold Obligations.PullDrivesAndWaits
  exact fun s l => ⟨rfl, s.drv.get_set_same l true, rfl, fun m => s.drv.get_set_of_ne true⟩

/-- A sample of a released line is answered by the environment (20_memory.md R54). -/
theorem sample_of_released {s : State} {l : Line} (h : s.drv.get l = false) :
    sample l s = (s.env.answer l, emit (.sample l (s.env.answer l)) (setEnv (s.env.afterSample l) s)) :=
  if_neg (by simp [h])

/-- RELEASE samples the line that it has just released, so the environment answers (40_line_primitives.md R91). -/
theorem release_eq (l : Line) (s : State) :
    release l s = (s.env.answer l,
      emit (.sample l (s.env.answer l)) (setEnv (s.env.afterSample l) (waitHalf (float l s)))) :=
  sample_of_released (s.drv.get_set_same l false)

/-- The trace of every RELEASE (40_line_primitives.md R91). -/
theorem release_log (l : Line) (s : State) : (release l s).2.log = record (tRelease s.T l (s.env.answer l)) s.log := by
  rw [release_eq]; rfl

/-- Settles O49, by what RELEASE makes of any state. -/
theorem releaseWaitsThenSamplesOnce : Obligations.ReleaseWaitsThenSamplesOnce := by
  unfold Obligations.ReleaseWaitsThenSamplesOnce
  exact fun s l => ⟨_, release_eq l s, rfl, s.drv.get_set_same l false, fun m => s.drv.get_set_of_ne false, rfl⟩

/-! ### The bound of RELWAIT -/

/-- A poll emits two events: its delay and its sample (40_line_primitives.md R93). -/
theorem poll_log (l : Line) (s : State) :
    (poll l s).2.log = record [.waitMs s.params.pollIntervalMs, .sample l (poll l s).1] s.log := by
  obtain ⟨e, h⟩ := sample_snd l (waitMs s.params.pollIntervalMs s)
  simp only [poll, h]; rfl

/-- `n` rounds of polling emit at most two events each. -/
theorem pollLoop_log (n : Nat) (l : Line) (r : Level × State) :
    ∃ es, (pollLoop n l r).2.log = record es r.2.log ∧ es.length ≤ 2 * n := by
  induction n generalizing r with
  | zero => exact ⟨[], rfl, le_rfl⟩
  | succ n ih =>
    simp only [pollLoop]
    split
    · obtain ⟨es, hlog, hlen⟩ := ih (poll l r.2)
      rw [poll_log, record_trans] at hlog
      exact ⟨_, hlog, by simp only [List.length_append, List.length_cons, List.length_nil]; omega⟩
    · exact ⟨[], rfl, Nat.zero_le _⟩

/-- The end of a wait emits a diagnostic or nothing (60_exceptions.md R134). -/
theorem waitEnd_log (l : Line) (w : Level × State) :
    ∃ es, (if w.1 then w.2 else timeOut l w.2).log = record es w.2.log ∧ es.length ≤ 1 := by
  unfold timeOut warn
  split
  · exact ⟨[], rfl, Nat.zero_le 1⟩
  · split
    · exact ⟨[.diag .waitTimeout l], rfl, le_rfl⟩
    · exact ⟨[], rfl, Nat.zero_le 1⟩

/-- RELWAIT emits the three events of its RELEASE, two for each poll, and at most one diagnostic (40_line_primitives.md R94). -/
theorem relwait_log (l : Line) (s : State) :
    ∃ es, (relwait l s).2.log = record es s.log ∧ 3 ≤ es.length ∧ es.length ≤ 3 + 2 * s.params.pollMax + 1 := by
  obtain ⟨polls, hpolls, hrounds⟩ := pollLoop_log s.params.pollMax l ((release l s).1, setPollCnt 0 (release l s).2)
  obtain ⟨diag, hdiag, hone⟩ := waitEnd_log l (pollLoop s.params.pollMax l ((release l s).1, setPollCnt 0 (release l s).2))
  have hrelease : (tRelease s.T l (s.env.answer l)).length = 3 := rfl
  refine ⟨tRelease s.T l (s.env.answer l) ++ polls ++ diag, ?_, ?_, ?_⟩
  · rw [← record_trans, ← record_trans, ← release_log]
    exact hdiag.trans (congrArg (record diag) hpolls)
  all_goals rw [List.length_append, List.length_append]; omega

/-- Settles O51: the record by `relwait_log`, and `SFACC` by the result. -/
theorem boundedWaitIsBounded : Obligations.BoundedWaitIsBounded := by
  unfold Obligations.BoundedWaitIsBounded
  intro s l
  obtain ⟨es, hlog, hmin, hmax⟩ := relwait_log l s
  refine ⟨(relwait l s).1, (relwait l s).2, es, rfl, hlog, hmin, hmax, ?_, fun hlow => ?_, fun hhigh => ?_⟩
  · rw [relwait_drv]; exact s.drv.get_set_same l false
  · rw [relwait_sfAcc, hlow]; rfl
  · rw [relwait_sfAcc, hhigh]; rfl

/-! ### The settle rule -/

/-- From `s` to `t` the record shows events, and after them at most the response, and each `Drive` and `Release` among them is followed
by `WaitUs(T)`. -/
def SettledSince (T : Micros) (s t : State) : Prop := ∃ es, Emitted s t es ∧ Settled T es

/-- A rejection emits no event (60_exceptions.md R130). -/
theorem reject_emitted (e : HardError) (s : State) : Emitted s (reject e s) [] := .inr rfl

/-- Line activity with its end settles at the half-period it began with, since it leaves the handle alone (10_state.md R47). -/
theorem Acts.settledSince {b u t : State} (hu : Acts b u)
    (ht : (∃ v x, t = complete v (setXfer x u)) ∨ ∃ ret, t = setSeq (.resetNext ret) u) : SettledSince b.T b t := by
  obtain ⟨es, hemit, htrace, -⟩ := hu.emitted ht
  exact ⟨es, hemit, htrace.settled⟩

/-- A command other than `OPEN` settles at the half-period in force. -/
theorem exec_settledSince {i : Instr} {s t : State} (hi : i ≠ .openBus) (h : exec i s = .next t) : SettledSince s.T s t := by
  obtain ⟨e, rfl, -⟩ | ⟨b, u, ⟨-, rfl⟩ | ⟨hopen, -⟩, hu, ht⟩ := exec_acts h
  · exact ⟨[], reject_emitted e s, trivial⟩
  · exact hu.settledSince ht
  · exact absurd hopen hi

/-- `OPEN` is rejected, or shows the four events of step 1 and then settles at the half-period of the handle it has latched
(41_open.md R100, R101). -/
theorem exec_open_settledSince {s t : State} (h : exec .openBus s = .next t) :
    ((s.cfg.sclId = s.cfg.sdaId ∨ s.cfg.freq = 0) ∧ Emitted s t []) ∨
      ∃ es, Emitted s t ([.release .scl, .release .sda, .pullup .scl, .pullup .sda] ++ es) ∧ Settled s.cfg.halfPeriod es := by
  obtain ⟨e, rfl, hbad⟩ | ⟨b, u, ⟨hne, -⟩ | ⟨-, rfl⟩, hu, ht⟩ := exec_acts h
  · have hcfg : ¬(s.cfg.sclId ≠ s.cfg.sdaId ∧ s.cfg.freq ≠ 0) := by
      rw [← acceptable_iff, Bool.not_eq_true]; exact hbad rfl
    exact .inl ⟨by rwa [not_and_or, not_ne_iff, not_ne_iff] at hcfg, reject_emitted e s⟩
  · exact absurd rfl hne
  · obtain ⟨es, hemit, hsettled⟩ := hu.settledSince ht
    exact .inr ⟨es, hemit.prepend (congrArg State.log (openLines_eq _)), hsettled⟩

/-- Settles O43: commands, `OPEN` and resumed steps are line activity with its end, and line activity settles. -/
theorem everyLineTransitionSettles : Obligations.EveryLineTransitionSettles := by
  unfold Obligations.EveryLineTransitionSettles
  refine ⟨fun i s t => exec_settledSince, fun s t => exec_open_settledSince, fun s t hr hb h => ?_⟩
  obtain ⟨u, hu, ht⟩ := step_resume_acts hr hb h
  exact hu.settledSince ht

end Sys2Proof.Machine
end

section
/-! PROOF. `OPEN` (41_open.md): the handle it latches (R100, R102), its trace on given answers (R101), and its frame on every environment. -/

namespace Sys2Proof.Machine

/-! ### An accepted `OPEN` -/

/-- The state in which the RESET_SEQ of an accepted `OPEN` begins (41_open.md R100, R101). -/
def openBegins (s : State) : State := openLines (accept (construct s.cfg s))

/-- An `OPEN` that passes the checks runs RESET_SEQ with nothing after it. -/
theorem exec_open_of_acceptable {s : State} (hids : s.cfg.sclId ≠ s.cfg.sdaId) (hfreq : s.cfg.freq ≠ 0) :
    exec .openBus s = .next (runReset .nothing (openBegins s)) :=
  if_pos ((acceptable_iff s.cfg).mpr ⟨hids, hfreq⟩)

/-- That state in full: the construction, the acceptance and step 1 of OPEN_SEQ, and nothing else. -/
theorem openBegins_eq (s : State) :
    openBegins s = { s with
      handle := s.cfg, opened := true, busy := true, sfAcc := 0, seq := .inCommand, drv := .released
      log := record [.release .scl, .release .sda, .pullup .scl, .pullup .sda] s.log } :=
  openLines_eq (accept (construct s.cfg s))

@[simp] theorem openBegins_busy (s : State) : (openBegins s).busy = true := by rw [openBegins_eq]
@[simp] theorem openBegins_xfer (s : State) : (openBegins s).xfer = s.xfer := by rw [openBegins_eq]
@[simp] theorem openBegins_rsp (s : State) : (openBegins s).rsp = s.rsp := by rw [openBegins_eq]
@[simp] theorem openBegins_params (s : State) : (openBegins s).params = s.params := by rw [openBegins_eq]

/-- Acceptance and step 1 of OPEN_SEQ touch nothing that the construction of the handle has written or left alone. -/
theorem openBegins_untouched (s : State) : Untouched (construct s.cfg s) (openBegins s) := by
  rw [openBegins_eq]
  exact ⟨rfl, rfl, rfl, rfl, rfl, rfl⟩

/-- Settles O18: RESET_SEQ leaves the handle, `OPENED` and the inputs as the construction has left them. -/
theorem openLatchesHandle : Obligations.OpenLatchesHandle := by
  unfold Obligations.OpenLatchesHandle
  intro s hids hfreq
  obtain ⟨hhandle, hopened, hparams, hcfg, hcmds, hrst⟩ :=
    (openBegins_untouched s).trans (runReset_untouched .nothing (openBegins s))
  exact ⟨_, exec_open_of_acceptable hids hfreq, hhandle, hopened, hparams, hcfg, hcmds, hrst⟩

/-! ### On given answers -/

/-- A RESET_SEQ that is the last of its command is over, and what is pending follows (44_sequence_control.md R124, R126). -/
theorem runReset_ran_last (s : State) (ret : Pending) {p : ResetPass} (hp : p.Fits s.params) (hl : p.isLast = true)
    (hpulses : 1 ≤ s.params.burstPulses) (a b : Bool) (cs ds : List Level) (n : Nat) (r : PrivateRegs) (f : BitVec 2)
    (es : List Event) :
    ∃ r', runReset ret (s.ran ⟨a, b⟩ ⟨p.sclAnswers ++ cs, p.sdaAnswers ++ ds, n⟩ r f es)
      = finish ret (setXfer false
          (s.ran .released ⟨cs, ds, n + p.samples⟩ r' (resetSf p f) (es ++ tReset s.params s.handle p))) := by
  obtain ⟨r', h⟩ := resetRound_ran s p hp hpulses a b cs ds n r f es
  exact ⟨r', by simp only [runReset, h, hl, if_true]⟩

/-- The line activity of an accepted `OPEN` begins with step 1 of OPEN_SEQ (41_open.md R101). -/
theorem openBegins_ran {s : State} {cs ds : List Level} (hscl : s.env.scl = cs) (hsda : s.env.sda = ds) :
    openBegins s = (accept (construct s.cfg s)).ran .released ⟨cs, ds, s.env.taken⟩ s.regs 0
      [.release .scl, .release .sda, .pullup .scl, .pullup .sda] := by
  unfold openBegins
  rw [accept_ran (construct s.cfg s) cs ds hscl hsda, openLines_ran]
  rfl

/-- Settles O29: after step 1 comes one whole RESET_SEQ of the new handle, the last of its command, and then the response. -/
theorem openResult : Obligations.OpenResult := by
  unfold Obligations.OpenResult
  intro s p cs ds hw hids hfreq hp hl hscl hsda
  obtain ⟨-, hpulses, -⟩ := (wellFormed_iff s.params).mp hw
  obtain ⟨r, hreset⟩ := runReset_ran_last (accept (construct s.cfg s)) .nothing hp hl hpulses false false cs ds s.env.taken
    s.regs 0 [.release .scl, .release .sda, .pullup .scl, .pullup .sda]
  rw [exec_open_of_acceptable hids hfreq, openBegins_ran hscl hsda]
  exact congrArg _ (hreset.trans (complete_ran (construct s.cfg s) false .released cs ds p.samples r _ _ 0))

/-! ### On every environment -/

/-- How an `OPEN` that passes the checks can stand after its step: ended, or in progress with nothing pending. -/
theorem openBegins_outcome {s : State} (hw : s.params.wellFormed = true) :
    SequenceOutcome false (openBegins s) (runReset .nothing (openBegins s)) := by
  obtain ⟨-, hpulses, hbursts⟩ := (wellFormed_iff s.params).mp hw
  exact runReset_outcome .nothing _ _ (.nil _) (by rwa [openBegins_params]) (by rwa [openBegins_params])

/-- The trace of a sequence stands in the record after that of step 1 of OPEN_SEQ. -/
theorem record_openBegins (s : State) (es : List Event) :
    record es (openBegins s).log = record ([.release .scl, .release .sda, .pullup .scl, .pullup .sda] ++ es) s.log := by
  rw [openBegins_eq, record_trans]

/-- Settles O39: the two outcomes of RESET_SEQ by `BUSY`, each with the record that it leaves. -/
theorem openFrame : Obligations.OpenFrame := by
  unfold Obligations.OpenFrame
  intro s hw hids hfreq
  have houtcome := openBegins_outcome hw
  obtain ⟨hhandle, hopened, hparams, hcfg, hcmds, hrst⟩ := (openBegins_untouched s).trans houtcome.untouched
  obtain ⟨es, hlog⟩ := houtcome.log (openBegins_busy s)
  have hfields := houtcome.fields (openBegins_busy s)
  rw [record_openBegins] at hlog
  rw [openBegins_rsp, openBegins_xfer] at hfields
  refine ⟨_, es, exec_open_of_acceptable hids hfreq, hhandle, hopened, hparams, hcfg, hcmds, hrst, ?_⟩
  obtain ⟨hdone, hseq, hrsp, hxfer, hdrv⟩ | ⟨hbusy, hseq, hrsp, hxfer, hdrv⟩ := hfields
  · obtain ⟨-, hlog⟩ | ⟨hbusy, -⟩ := hlog
    · exact ⟨hdrv, fun hbusy => absurd hbusy (by simp [hdone]), fun _ => ⟨hseq, hrsp, hxfer, hlog⟩⟩
    · simp [hdone] at hbusy
  · obtain ⟨hdone, -⟩ | ⟨-, hlog, -⟩ := hlog
    · simp [hbusy] at hdone
    · exact ⟨hdrv, fun _ => ⟨hseq, hxfer, hrsp, hlog⟩, fun hdone => absurd hdone (by simp [hbusy])⟩

end Sys2Proof.Machine
end

section
/-! PROOF. The bit transfers (42_bit_transfer.md): what `SENDBIT` and `READBIT` do on given answers of their clock wait (R105 to R107),
and the frame that all four transfers keep on every environment. -/

namespace Sys2Proof.Machine

/-! ### On given answers -/

/-- An accepted `SENDBIT` is SENDBIT_SEQ and a response with no result (42_bit_transfer.md R105). -/
theorem exec_sendBit_of_opened {s : State} (ho : s.opened = true) (arg : Byte) :
    exec (.sendBit arg) s = .next (complete 0 (sendBitSeq arg (accept s))) := if_pos ho

/-- An accepted `READBIT` answers with the bit that READBIT_SEQ returns (42_bit_transfer.md R106). -/
theorem exec_readBit_of_opened {s : State} (ho : s.opened = true) :
    exec .readBit s = .next (complete (levelByte (readBitSeq (accept s)).1) (readBitSeq (accept s)).2) := if_pos ho

/-- Settles O20: the run of SENDBIT_SEQ from the acceptance on ends with both lines low, and then comes the response. -/
theorem sendBitResult : Obligations.SendBitResult := by
  unfold Obligations.SendBitResult
  intro s arg a cs ds ho hwait hscl hsda
  have hrun := sendBitSeq_ran (accept s) s.drv.scl s.drv.sda cs ds s.env.taken s.regs 0 [] arg a hwait
  rw [exec_sendBit_of_opened ho, accept_ran s _ (sdaOfSend (sentBit arg) a ++ ds) hscl hsda, hrun, complete_ran_xfer]
  rfl

/-- Settles O21: the run of READBIT_SEQ returns the bare sample that follows its clock wait, and the response carries it. -/
theorem readBitResult : Obligations.ReadBitResult := by
  unfold Obligations.ReadBitResult
  intro s a cs ds ho hwait hscl hsda
  have hrun := readBitSeq_ran (accept s) s.drv.scl s.drv.sda cs ds s.env.taken s.regs 0 [] a hwait
  rw [exec_readBit_of_opened ho, accept_ran s _ _ hscl hsda, hrun, complete_ran_xfer]
  rfl

/-! ### On every environment -/

/-- Line activity leaves the transfer state alone (10_state.md R30): a sequence writes `XFER` apart from it. -/
theorem Acts.xfer {s t : State} (h : Acts s t) : t.xfer = s.xfer := by rw [h.onlyLines]

/-- Settles O37: a transfer is line activity and its response, and line activity writes neither `XFER` nor what `Untouched` names. -/
theorem transferFrame : Obligations.TransferFrame := by
  unfold Obligations.TransferFrame
  intro i s hi ho
  obtain ⟨u, val, hu, hdrv, hsf, hexec⟩ := exec_transfer i hi s ho
  obtain ⟨hhandle, hopened, hparams, hcfg, hcmds, hrst⟩ := hu.untouched
  obtain ⟨es, hlog, -⟩ := hu.log
  exact ⟨complete val u, es, hexec, rfl, rfl, hdrv, hu.xfer, hhandle, hopened.trans ho, hparams, hcfg, hcmds, hrst,
    rspErr_rspWord .., rspSf_rspWord .., hsf, congrArg (Out.rsp (complete val u).rsp :: ·) hlog⟩

end Sys2Proof.Machine
end

section
/-! PROOF. The byte transfers (43_byte_transfer.md): what SENDBYTE_SEQ and READBYTE_SEQ make of a state on given answers of the
environment, so what `SENDBYTE` and `READBYTE` do (R110 to R115), and the frame that `SENDBYTE` shows on a quiet wire. -/

namespace Sys2Proof.Machine

/-! ### The sequences on given answers -/

/-- `SFACC` after one more bit transfer. -/
theorem slotsSf_concat (ws : List BitSlot) (w : BitSlot) :
    ∀ sf : BitVec 2, slotsSf sf (ws ++ [w]) = waitSf w.wait (slotsSf sf ws) := by
  induction ws with
  | nil => exact fun _ => rfl
  | cons v ws ih => exact fun sf => ih (waitSf v.wait sf)

/-- The shift register ACC holds the byte once its eight bits came in, most-significant first (43_byte_transfer.md R111). -/
theorem foldl_shiftIn_wireBits (y : Byte) : (wireBits y).foldl shiftIn 0 = y := by
  ext i hi
  interval_cases i <;> simp [wireBits, shiftIn]

section sequences

variable (s : State) (a b : Bool) (cs ds : List Level) (n : Nat) (r : PrivateRegs) (f : BitVec 2) (es : List Event)

theorem loadShr_ran (x : Byte) (d : Drv) (e : Env) :
    loadShr x (s.ran d e r f es) = s.ran d e { r with shr := x, bitCnt := 0 } f es := rfl

theorem clearAcc_ran (d : Drv) (e : Env) :
    clearAcc (s.ran d e r f es) = s.ran d e { r with acc := 0, bitCnt := 0 } f es := rfl

/-- SENDBYTE_SEQ(x) (43_byte_transfer.md R110): the loop over the bits, then READBIT_SEQ for the ack slot. -/
theorem sendByteSeq_ran (x : Byte) (ws : List BitSlot) (ack : BitSlot) (hlen : ws.length = 8)
    (hw : ∀ w ∈ ack :: ws, WholeWait s.params.pollMax w.wait) :
    ∃ r', sendByteSeq x (s.ran ⟨a, b⟩
          ⟨ws.flatMap (·.wait) ++ (ack.wait ++ cs), sdaOfSends (wireBits x) ws ++ (sdaOfRead ack ++ ds), n⟩ r f es)
      = (ack.result, s.ran .low
          ⟨cs, ds, n + ((sdaOfSends (wireBits x) ws).length + (ws.flatMap (·.wait)).length + (2 + ack.wait.length))⟩ r'
          (slotsSf f (ws ++ [ack]))
          (es ++ ((List.zipWith (tSendBit s.params s.handle) (wireBits x) ws).flatten ++ tReadBit s.params s.handle ack))) := by
  obtain ⟨hack, hbits⟩ := List.forall_mem_cons.mp hw
  obtain ⟨a', b', r', hsend⟩ := sendBits_ran s ws a b (ack.wait ++ cs) (sdaOfRead ack ++ ds) n { r with shr := x, bitCnt := 0 } f es
    hbits
  simp only [hlen, topBits_eight] at hsend
  exact ⟨_, by rw [sendByteSeq, loadShr_ran, hsend, readBitSeq_ran s _ _ _ _ _ _ _ _ _ hack, slotsSf_concat, List.append_assoc,
    Nat.add_assoc n]⟩

/-- READBYTE_SEQ() (43_byte_transfer.md R111): the loop over the bits, from an empty ACC. -/
theorem readByteSeq_ran (y : Byte) (ws : List BitSlot) (hy : ws.map (·.result) = wireBits y)
    (hw : ∀ w ∈ ws, WholeWait s.params.pollMax w.wait) :
    ∃ r', readByteSeq (s.ran ⟨a, b⟩ ⟨ws.flatMap (·.wait) ++ cs, ws.flatMap sdaOfRead ++ ds, n⟩ r f es)
      = (y, s.ran .low ⟨cs, ds, n + (16 + (ws.flatMap (·.wait)).length)⟩ r' (slotsSf f ws)
          (es ++ ws.flatMap (tReadBit s.params s.handle))) := by
  have hlen : ws.length = 8 := by simpa [wireBits] using congrArg List.length hy
  obtain ⟨a', b', r', hacc, hlow, hread⟩ := readBits_ran s ws a b cs ds n { r with acc := 0, bitCnt := 0 } f es hw
  obtain ⟨rfl, rfl⟩ := hlow (List.ne_nil_of_length_eq_add_one hlen)
  have hbyte : r'.acc = y := by rw [hacc, hy, foldl_shiftIn_wireBits]
  rw [hlen] at hread
  exact ⟨r', by simp only [readByteSeq, clearAcc_ran, hread, ran_regs, hbyte, Drv.low]⟩

end sequences

/-! ### The commands on given answers -/

/-- An accepted `SENDBYTE` answers with the bit that SENDBYTE_SEQ returns (43_byte_transfer.md R110). -/
theorem exec_sendByte_of_opened {s : State} (ho : s.opened = true) (x : Byte) :
    exec (.sendByte x) s = .next (complete (levelByte (sendByteSeq x (accept s)).1) (sendByteSeq x (accept s)).2) := if_pos ho

/-- An accepted `READBYTE` answers with the byte that READBYTE_SEQ returns (43_byte_transfer.md R111). -/
theorem exec_readByte_of_opened {s : State} (ho : s.opened = true) :
    exec .readByte s = .next (complete (readByteSeq (accept s)).1 (readByteSeq (accept s)).2) := if_pos ho

/-- Settles O22: the run of SENDBYTE_SEQ from the acceptance on returns the sample of the ack slot, and the response carries it. -/
theorem sendByteResult : Obligations.SendByteResult := by
  unfold Obligations.SendByteResult
  intro s x ws ack cs ds ho hlen hwaits hscl hsda
  obtain ⟨r', hrun⟩ := sendByteSeq_ran (accept s) s.drv.scl s.drv.sda cs ds s.env.taken s.regs 0 [] x ws ack hlen hwaits
  rw [exec_sendByte_of_opened ho, accept_ran s _ (sdaOfSends (wireBits x) ws ++ (sdaOfRead ack ++ ds)) hscl hsda, hrun,
    complete_ran_xfer]
  rfl

/-- Settles O23: the run of READBYTE_SEQ from the acceptance on returns the byte its samples spell, and the response carries it. -/
theorem readByteResult : Obligations.ReadByteResult := by
  unfold Obligations.ReadByteResult
  intro s y ws cs ds ho hy hwaits hscl hsda
  obtain ⟨r', hrun⟩ := readByteSeq_ran (accept s) s.drv.scl s.drv.sda cs ds s.env.taken s.regs 0 [] y ws hy hwaits
  rw [exec_readByte_of_opened ho, accept_ran s _ _ hscl hsda, hrun, complete_ran_xfer]
  rfl

/-! ### What a trace shows on a quiet wire

A trace that takes both lines from low to low can be cut at that point: its data bits and its conditions are those of the pieces. -/

theorem bitsAtClockFall_quietLevels_append (es fs : List Event) :
    ∀ d : Drv, bitsAtClockFall (quietLevels d (es ++ fs))
      = bitsAtClockFall (quietLevels d es) ++ bitsAtClockFall (quietLevels (es.foldl Drv.after d) fs) := by
  induction es with
  | nil => exact fun _ => rfl
  | cons e es ih => exact fun d => (congrArg (_ ++ ·) (ih (d.after e))).trans (List.append_assoc ..).symm

theorem conditions_quietLevels_append (es fs : List Event) :
    ∀ d : Drv, conditions (quietLevels d (es ++ fs))
      = conditions (quietLevels d es) ++ conditions (quietLevels (es.foldl Drv.after d) fs) := by
  induction es with
  | nil => exact fun _ => rfl
  | cons e es ih => exact fun d => (congrArg (_ ++ ·) (ih (d.after e))).trans (List.append_assoc ..).symm

/-- Entered with both lines low, the trace leaves them low, shows the data bits `bits` at its falling clock edges and makes no
condition (20_memory.md R66). -/
structure ShowsBits (es : List Event) (bits : List Level) : Prop where
  endsLow : es.foldl Drv.after .low = .low
  bitsShown : bitsAtClockFall (quietLevels .low es) = bits
  noCondition : conditions (quietLevels .low es) = []

theorem ShowsBits.nil : ShowsBits [] [] := ⟨rfl, rfl, rfl⟩

theorem ShowsBits.append {es fs : List Event} {bs cs : List Level} (h : ShowsBits es bs) (k : ShowsBits fs cs) :
    ShowsBits (es ++ fs) (bs ++ cs) where
  endsLow := by rw [List.foldl_append, h.endsLow, k.endsLow]
  bitsShown := by rw [bitsAtClockFall_quietLevels_append, h.endsLow, h.bitsShown, k.bitsShown]
  noCondition := by rw [conditions_quietLevels_append, h.endsLow, h.noCondition, k.noCondition, List.append_nil]

/-- A bit transfer in which every sample reads 1, the clock rising at once. -/
def quietSlot : BitSlot := { first := true, wait := [true], result := true }

/-- A sent bit stands on SDA while the clock is high (42_bit_transfer.md R105, R108). -/
theorem showsBits_tSendBit (p : Params) (h : Handle) (b : Level) : ShowsBits (tSendBit p h b quietSlot) [b] := by
  cases b with
  | false => exact ⟨rfl, rfl, rfl⟩
  | true => exact ⟨rfl, rfl, rfl⟩

/-- A slot in which the controller reads leaves SDA high (42_bit_transfer.md R106). -/
theorem showsBits_tReadBit (p : Params) (h : Handle) : ShowsBits (tReadBit p h quietSlot) [true] := ⟨rfl, rfl, rfl⟩

theorem showsBits_tSendBits (p : Params) (h : Handle) (bits : List Level) :
    ShowsBits (List.zipWith (tSendBit p h) bits (List.replicate bits.length quietSlot)).flatten bits := by
  induction bits with
  | nil => exact .nil
  | cons b bits ih => exact (showsBits_tSendBit p h b).append ih

/-! ### `SENDBYTE` on a quiet wire -/

/-- Only a 1 samples SDA, when it is released. -/
theorem sdaOfSends_quiet (bits : List Level) :
    sdaOfSends bits (List.replicate bits.length quietSlot) = List.replicate (bits.count true) true := by
  induction bits with
  | nil => rfl
  | cons b bits ih =>
    have hcons : sdaOfSends (b :: bits) (List.replicate (bits.length + 1) quietSlot)
        = sdaOfSend b quietSlot ++ sdaOfSends bits (List.replicate bits.length quietSlot) := rfl
    rw [List.length_cons, hcons, ih]
    cases b <;> simp [sdaOfSend, quietSlot, List.replicate_succ]

/-- Ten answers of 1 are enough for the sent bits and the two samples of the ack slot. -/
theorem sdaAnswers_of_quiet (x : Byte) (ds : List Level) :
    List.replicate 10 true ++ ds = sdaOfSends (wireBits x) (List.replicate 8 quietSlot)
      ++ (sdaOfRead quietSlot ++ (List.replicate (8 - (wireBits x).count true) true ++ ds)) := by
  have hcount : (wireBits x).count true ≤ 8 := List.count_le_length
  have hten : 10 = (wireBits x).count true + (2 + (8 - (wireBits x).count true)) := by omega
  have hsends : sdaOfSends (wireBits x) (List.replicate 8 quietSlot) = List.replicate ((wireBits x).count true) true :=
    sdaOfSends_quiet (wireBits x)
  have hread : sdaOfRead quietSlot = List.replicate 2 true := rfl
  rw [hsends, hread, hten]
  simp only [List.replicate_add, List.append_assoc]

/-- Settles O58: on a quiet wire all nine slots of `sendByteResult` are quiet, and its trace shows one bit for each. -/
theorem sendByteFrameOnTheWire : Obligations.SendByteFrameOnTheWire := by
  unfold Obligations.SendByteFrameOnTheWire
  rintro s x ho hd ⟨⟨cs, hscl⟩, ds, hsda⟩
  have hwaits : ∀ w ∈ quietSlot :: List.replicate 8 quietSlot, WholeWait s.params.pollMax w.wait := fun w hw => by
    obtain rfl := List.eq_of_mem_replicate (n := 9) hw
    exact wholeWait_high _
  have hrsp : rspWord noError (slotsSf 0 (List.replicate 8 quietSlot ++ [quietSlot])) (levelByte quietSlot.result) = 0x001 := by
    decide
  have hframe := (showsBits_tSendBits s.params s.handle (wireBits x)).append (showsBits_tReadBit s.params s.handle)
  refine ⟨_, sendByteResult s x (List.replicate 8 quietSlot) quietSlot cs _ ho rfl hwaits hscl
    (hsda.trans (sdaAnswers_of_quiet x ds)), hrsp, ?_, ?_⟩
  · rw [eventsSince_ended, hd]; exact hframe.bitsShown
  · rw [eventsSince_ended, hd]; exact hframe.noCondition

end Sys2Proof.Machine
end

section
/-! PROOF. The start/stop/reset sequencer (44_sequence_control.md): what `START`, `STOP` and `RESET` do on given answers of the
environment (R120 to R124), how a command in progress goes on (R126), the frame of the sequences on every environment, and what a
repeated `START` (R125) and a `RESET` show on a quiet wire. -/

namespace Sys2Proof.Machine

/-! ### `START` and `STOP` without a reset -/

/-- Settles O24: a check that reads 1 leaves RESET_SEQ out. -/
theorem startResult : Obligations.StartResult := by
  unfold Obligations.StartResult
  exact fun _ _ _ _ ho hwait hscl hsda => exec_start_of_sda_high ho hwait hscl hsda

/-- Settles O26: a rise of SDA leaves RESET_SEQ out. -/
theorem stopResult : Obligations.StopResult := by
  unfold Obligations.StopResult
  exact fun _ _ _ _ ho hwait hscl hsda => exec_stop_of_sda_rises ho hwait hscl hsda

/-! ### RESET_SEQ and what follows it, on given answers

`s` is the state the step began in, and `n` samples, the events `es` and the soft failures `f` come before the RESET_SEQ. -/

/-- The samples of a RESET_SEQ added to those before it, split by line as the claims count them. -/
theorem add_samples (p : ResetPass) (m n : Nat) : m + n + p.samples = m + (n + p.sclAnswers.length + p.sdaAnswers.length) := by
  simp only [ResetPass.samples, Nat.add_assoc]

section resets

variable {s : State} {p : ResetPass} (hp : p.Fits s.params) (hpulses : 1 ≤ s.params.burstPulses) {d : Drv} {cs ds : List Level}
  {n : Nat} {r : PrivateRegs} {f : BitVec 2} {es : List Event}

include hp hpulses

/-- With nothing pending the command ends with its RESET_SEQ (44_sequence_control.md R124). -/
theorem runReset_nothing_ended (hl : p.isLast = true) :
    runReset .nothing (s.ran d ⟨p.sclAnswers ++ cs, p.sdaAnswers ++ ds, s.env.taken + n⟩ r f es)
      = s.ended { sf := resetSf p f, val := 0x00, drv := .released, xfer := false, scl := cs, sda := ds
                  samples := n + p.sclAnswers.length + p.sdaAnswers.length
                  events := es ++ tReset s.params s.handle p } := by
  obtain ⟨r', hreset⟩ := runReset_ran_last s .nothing hp hl hpulses d.scl d.sda cs ds (s.env.taken + n) r f es
  rw [add_samples] at hreset
  exact hreset

/-- With a `START` pending the command ends by way of the tail of START_SEQ (44_sequence_control.md R121, R126). -/
theorem runReset_toStart_ended (hl : p.isLast = true) {vs : List Level} (hwait : WholeWait s.params.pollMax vs) :
    runReset .toStart (s.ran d ⟨p.sclAnswers ++ (vs ++ cs), p.sdaAnswers ++ ds, s.env.taken + n⟩ r f es)
      = s.ended { sf := waitSf vs (resetSf p f), val := 0x00, drv := .low, xfer := true, scl := cs, sda := ds
                  samples := n + p.sclAnswers.length + p.sdaAnswers.length + vs.length
                  events := es ++ tReset s.params s.handle p ++ tWait s.params s.handle vs
                    ++ tPull s.handle.halfPeriod .sda ++ tPull s.handle.halfPeriod .scl } := by
  obtain ⟨r', hreset⟩ := runReset_ran_last s .toStart hp hl hpulses d.scl d.sda (vs ++ cs) ds (s.env.taken + n) r f es
  rw [hreset, finish, startTail_setXfer, Drv.released, startTail_ran s _ _ _ _ _ _ _ _ _ hwait, add_samples, Nat.add_assoc]
  simp only [← List.append_assoc]
  rfl

/-- A failed rise leaves the command in progress with what was pending before (44_sequence_control.md R126; log 1). -/
theorem runReset_paused (hl : p.isLast = false) (hb : s.busy = true) (ret : Pending) :
    ∃ r', runReset ret (s.ran d ⟨p.sclAnswers ++ cs, p.sdaAnswers ++ ds, s.env.taken + n⟩ r f es)
      = s.paused ret r' { sf := resetSf p f, scl := cs, sda := ds, samples := n + p.sclAnswers.length + p.sdaAnswers.length
                          events := es ++ tReset s.params s.handle p } := by
  obtain ⟨r', hreset⟩ := runReset_ran_again s ret p hp hl hpulses d.scl d.sda cs ds (s.env.taken + n) r f es
  rw [add_samples] at hreset
  refine ⟨r', hreset.trans ?_⟩
  simp only [State.paused, ← hb]
  rfl

end resets

/-! ### The commands up to their RESET_SEQ -/

/-- An accepted `RESET` is RESET_SEQ (44_sequence_control.md R123). -/
theorem exec_reset_of_opened {s : State} (ho : s.opened = true) : exec .reset s = .next (runReset .nothing (accept s)) := if_pos ho

/-- START_SEQ whose check reads 0 invokes RESET_SEQ and is pending after it (44_sequence_control.md R121). -/
theorem exec_start_of_sda_low {s : State} {cs ds : List Level} (ho : s.opened = true) (hscl : s.env.scl = cs)
    (hsda : s.env.sda = false :: ds) :
    exec .start s = .next (runReset .toStart ((accept s).ran ⟨s.drv.scl, false⟩ ⟨cs, ds, s.env.taken + 1⟩ s.regs 0
      (tRelease s.handle.halfPeriod .sda false))) := by
  have hrun : exec .start s = .next (startSeq (accept s)) := if_pos ho
  rw [hrun, accept_ran s _ _ hscl hsda, startSeq, release_sda_ran]
  rfl

/-- STOP_SEQ whose line activity ends with SDA low invokes RESET_SEQ (44_sequence_control.md R122). -/
theorem exec_stop_of_sda_stays_low {s : State} {vs cs ds : List Level} (ho : s.opened = true)
    (hwait : WholeWait s.params.pollMax vs) (hscl : s.env.scl = vs ++ cs) (hsda : s.env.sda = false :: ds) :
    exec .stop s = .next (runReset .nothing ((accept s).ran .released ⟨cs, ds, s.env.taken + (vs.length + 1)⟩
      { s.regs with pollCnt := vs.length - 1 } (waitSf vs 0)
      (tWait s.params s.handle vs ++ tRelease s.handle.halfPeriod .sda false))) := by
  have hrun : exec .stop s = .next (stopSeq (accept s)) := if_pos ho
  rw [hrun, accept_ran s _ _ hscl hsda, stopSeq, stopLines_ran (accept s) _ _ _ _ _ _ _ _ _ _ hwait]
  rfl

/-! ### The commands on given answers -/

/-- Settles O28: RESET_SEQ is the whole command. -/
theorem resetResult : Obligations.ResetResult := by
  unfold Obligations.ResetResult
  intro s p cs ds hw ho hp hl hscl hsda
  obtain ⟨-, hpulses, -⟩ := (wellFormed_iff s.params).mp hw
  rw [exec_reset_of_opened ho, accept_ran s _ _ hscl hsda, ← Nat.zero_add p.sclAnswers.length]
  exact congrArg _ (runReset_nothing_ended (s := accept s) (n := 0) hp hpulses hl)

/-- Settles O27: RESET_SEQ follows the line activity of STOP_SEQ, and nothing follows it. -/
theorem stopAfterFailedRise : Obligations.StopAfterFailedRise := by
  unfold Obligations.StopAfterFailedRise
  intro s p vs cs ds hw ho hp hl hwait hscl hsda
  obtain ⟨-, hpulses, -⟩ := (wellFormed_iff s.params).mp hw
  rw [exec_stop_of_sda_stays_low ho hwait hscl hsda]
  exact congrArg _ (runReset_nothing_ended (s := accept s) hp hpulses hl)

/-- Settles O25: RESET_SEQ follows the check of START_SEQ, and the tail of START_SEQ follows it, recovered or not. -/
theorem startAfterReset : Obligations.StartAfterReset := by
  unfold Obligations.StartAfterReset
  intro s p vs cs ds hw ho hp hl hwait hscl hsda
  obtain ⟨-, hpulses, -⟩ := (wellFormed_iff s.params).mp hw
  rw [exec_start_of_sda_low ho hscl hsda]
  exact congrArg _ (runReset_toStart_ended (s := accept s) hp hpulses hl hwait)

/-- Settles O30: each of the four commands comes to a RESET_SEQ with what is pending after it, and the failed rise ends the step
there. -/
theorem failedRiseInResetLeavesCommandInProgress : Obligations.FailedRiseInResetLeavesCommandInProgress := by
  unfold Obligations.FailedRiseInResetLeavesCommandInProgress
  intro s p cs ds hw hp hl
  obtain ⟨-, hpulses, -⟩ := (wellFormed_iff s.params).mp hw
  refine ⟨fun ho hscl hsda => ?reset, fun ho hscl hsda => ?start, fun vs ho hwait hscl hsda => ?stop,
    fun hids hfreq hscl hsda => ?openBus⟩
  case reset =>
    rw [exec_reset_of_opened ho, accept_ran s _ _ hscl hsda, ← Nat.zero_add p.sclAnswers.length]
    exact (runReset_paused (s := accept s) (n := 0) hp hpulses hl rfl .nothing).imp fun _ => congrArg _
  case start =>
    rw [exec_start_of_sda_low ho hscl hsda]
    exact (runReset_paused (s := accept s) hp hpulses hl rfl .toStart).imp fun _ => congrArg _
  case stop =>
    rw [exec_stop_of_sda_stays_low ho hwait hscl hsda]
    exact (runReset_paused (s := accept s) hp hpulses hl rfl .nothing).imp fun _ => congrArg _
  case openBus =>
    rw [exec_open_of_acceptable hids hfreq, openBegins_ran hscl hsda, ← Nat.zero_add p.sclAnswers.length]
    exact (runReset_paused (s := accept (construct s.cfg s)) (n := 0) hp hpulses hl rfl .nothing).imp fun _ => congrArg _

/-! ### A command in progress, on given answers -/

/-- A state is itself after no activity, its environment written out. -/
theorem eq_ran_of_answers {s : State} {cs ds : List Level} (hscl : s.env.scl = cs) (hsda : s.env.sda = ds) :
    s = s.ran s.drv ⟨cs, ds, s.env.taken⟩ s.regs s.sfAcc [] := by
  subst hscl hsda; rfl

/-- Settles O31: the step is the RESET_SEQ that is next with what is pending, from the soft failures so far. -/
theorem commandInProgressGoesOn : Obligations.CommandInProgressGoesOn := by
  unfold Obligations.CommandInProgressGoesOn
  intro s p cs ds hw hr hb hp hscl hsda
  obtain ⟨-, hpulses, -⟩ := (wellFormed_iff s.params).mp hw
  have hstep : ∀ ret, s.seq = .resetNext ret → step s = .next (runReset ret
      (s.ran s.drv ⟨p.sclAnswers ++ cs, p.sdaAnswers ++ ds, s.env.taken⟩ s.regs s.sfAcc [])) := fun ret hq => by
    rw [← eq_ran_of_answers hscl hsda]; exact step_resume hw hr hb hq
  refine ⟨fun hl hq => ?ends, fun vs rs hl hq hwait hcs => ?startEnds, fun ret hl hq => ?again⟩
  case ends =>
    rw [hstep _ hq, ← Nat.zero_add p.sclAnswers.length]
    exact congrArg _ (runReset_nothing_ended (n := 0) hp hpulses hl)
  case startEnds =>
    subst hcs
    rw [hstep _ hq, ← Nat.zero_add p.sclAnswers.length]
    exact congrArg _ (runReset_toStart_ended (n := 0) hp hpulses hl hwait)
  case again =>
    rw [hstep _ hq, ← Nat.zero_add p.sclAnswers.length]
    exact (runReset_paused (n := 0) hp hpulses hl hb ret).imp fun _ => congrArg _

/-! ### On every environment -/

/-- A sequence that is left in progress has just seen SDA fail to rise (44_sequence_control.md R122, R126). -/
theorem SequenceOutcome.failedRise {isStart : Bool} {b t : State} (h : SequenceOutcome isStart b t) (hb : t.busy = true) :
    ∃ r, t.log = .ev (.sample .sda false) :: .ev (.waitUs t.T) :: .ev (.release .sda) :: r := by
  obtain ⟨u, hu, ⟨rfl, -⟩ | ⟨rfl, -, r, hlog⟩⟩ := h
  · cases hb
  · exact ⟨r, by rw [← hu.T] at hlog; exact hlog⟩

/-- Settles O33: a rejection leaves `BUSY` 0 and a transfer ends, so what is left in progress is a sequence. -/
theorem unfinishedOnlyWhenSdaFailsToRise : Obligations.UnfinishedOnlyWhenSdaFailsToRise := by
  unfold Obligations.UnfinishedOnlyWhenSdaFailsToRise
  intro i s t hw hrest hexec hbusy
  obtain ⟨e, rfl⟩ | ⟨-, -, u, val, -, -, -, rfl⟩ | ⟨hi, -, hseq⟩ | ⟨rfl, -, hseq⟩ := exec_cases i s t hw hexec
  · exact absurd (hrest.symm.trans hbusy) Bool.false_ne_true
  · cases hbusy
  · exact ⟨.inr hi, hseq.failedRise hbusy⟩
  · exact ⟨.inl rfl, hseq.failedRise hbusy⟩

/-- Settles O38: the two outcomes of a sequence by `BUSY`, each with the record that it leaves. -/
theorem sequenceFrame : Obligations.SequenceFrame := by
  unfold Obligations.SequenceFrame
  intro i s hi hw ho
  obtain ⟨t, hexec, houtcome⟩ := exec_sequence i hi s hw ho
  obtain ⟨hhandle, hopened, hparams, hcfg, hcmds, hrst⟩ := houtcome.untouched
  obtain ⟨es, hlog⟩ := houtcome.log (accept_busy s)
  have hfields := houtcome.fields (accept_busy s)
  refine ⟨t, es, hexec, hhandle, hopened.trans ho, hparams, hcfg, hcmds, hrst, fun hbusy => ?inProgress, fun hdone => ?ended⟩
  case inProgress =>
    obtain ⟨-, hseq, hrsp, hxfer, hdrv⟩ := hfields.resolve_left (by simp [hbusy])
    obtain ⟨-, hlog, -⟩ := hlog.resolve_left (by simp [hbusy])
    exact ⟨by simpa [pendingOf] using hseq, hdrv, hxfer, hrsp, hlog⟩
  case ended =>
    obtain ⟨-, hseq, hrsp, hxfer, hdrv⟩ := hfields.resolve_right (by simp [hdone])
    obtain ⟨-, hlog⟩ := hlog.resolve_right (by simp [hdone])
    exact ⟨hseq, hrsp, hlog, hxfer, by simpa using hdrv⟩

/-! ### Repeated start on a quiet wire -/

/-- What two commands that have ended one after the other show since the first was taken. -/
theorem eventsSince_ended_ended (s : State) (e e' : Effect) :
    eventsSince s ((s.ended e).ended e') = e.events ++ e'.events := by
  simp [eventsSince, State.trace, State.ended, eventsOf, eventsOf_record]

/-- The trace of START_SEQ with SDA high and a clock that rises at once. -/
def tQuietStart (T : Micros) : List Event := tRelease T .sda true ++ tRelease T .scl true ++ tPull T .sda ++ tPull T .scl

theorem drv_after_tQuietStart (T : Micros) (d : Drv) : (tQuietStart T).foldl Drv.after d = .low := rfl

/-- Settles O57: the second `START` begins with the lines low, where the first has left them, and either makes its own START. -/
theorem repeatedStartOnTheWire : Obligations.RepeatedStartOnTheWire := by
  unfold Obligations.RepeatedStartOnTheWire
  rintro s ho hd ⟨⟨cs, hscl⟩, ds, hsda⟩
  have hfirst := exec_start_of_sda_high (cs := true :: cs) (ds := true :: ds) ho (wholeWait_high s.params.pollMax) hscl hsda
  refine ⟨_, _, hfirst, exec_start_of_sda_high ho (wholeWait_high s.params.pollMax) rfl rfl, rspErr_rspWord ..,
    rspErr_rspWord .., ?_⟩
  rw [eventsSince_ended_ended, tWait_high]
  have hcut := conditions_quietLevels_append (tQuietStart s.handle.halfPeriod) (tQuietStart s.handle.halfPeriod) s.drv
  rw [drv_after_tQuietStart, tQuietStart, conditions_of_start _ hd, conditions_of_start _ (.inl rfl)] at hcut
  exact hcut

/-! ### `RESET` on a quiet wire -/

/-- From released lines a burst makes one falling clock edge for each pulse, no condition, and leaves the lines released
(44_sequence_control.md R124). -/
theorem tBurst_on_quiet_wire (T : Micros) (b : List Level) :
    (tBurst T b).foldl Drv.after .released = .released ∧
      bitsAtClockFall (quietLevels .released (tBurst T b)) = List.replicate b.length true ∧
      conditions (quietLevels .released (tBurst T b)) = [] := by
  induction b with
  | nil => exact ⟨rfl, rfl, rfl⟩
  | cons v b ih =>
    obtain ⟨hdrv, hbits, hconds⟩ := ih
    have hcons : tBurst T (v :: b) = (tPull T .scl ++ tRelease T .scl v) ++ tBurst T b := rfl
    have hpulse : (tPull T .scl ++ tRelease T .scl v).foldl Drv.after .released = .released := rfl
    rw [hcons, List.foldl_append, bitsAtClockFall_quietLevels_append, conditions_quietLevels_append, hpulse, hbits, hconds]
    exact ⟨hdrv, rfl, rfl⟩

/-- A RESET_SEQ in which every sample reads 1: one burst is enough. -/
def quietPass (pulses : Nat) : ResetPass :=
  { first := true, bursts := [List.replicate pulses true], last := .recovered [true] }

theorem quietPass_fits {p : Params} (hw : p.wellFormed = true) : (quietPass p.burstPulses).Fits p := by
  obtain ⟨-, -, hbursts⟩ := (wellFormed_iff p).mp hw
  exact ⟨List.cons_ne_nil _ _, fun b hb => by rw [List.mem_singleton.mp hb, List.length_replicate], hbursts,
    wholeWait_high p.pollMax⟩

theorem quietPass_sclAnswers (pulses : Nat) : (quietPass pulses).sclAnswers = List.replicate (pulses + 1) true := by
  simp [quietPass, ResetPass.sclAnswers, List.replicate_succ']

/-- The last act of a quiet RESET_SEQ: SCL is pulled before SDA, so the one condition is the STOP (44_sequence_control.md R124). -/
def tQuietRecover (T : Micros) : List Event := tPull T .scl ++ tPull T .sda ++ tRelease T .scl true ++ tRelease T .sda true

theorem tReset_quietPass (p : Params) (h : Handle) (n : Nat) :
    tReset p h (quietPass n) = tRelease h.halfPeriod .sda true ++
      (tBurst h.halfPeriod (List.replicate n true) ++ (.sample .sda true :: tQuietRecover h.halfPeriod)) := by
  simp [tReset, quietPass, tBursts, tResetEnd, ResetEnd.checkedHigh, tWait_high, tQuietRecover]

/-- From released lines a quiet RESET_SEQ makes one falling clock edge for each pulse and one more for its pull of SCL, and no
condition but its STOP (44_sequence_control.md R124). -/
theorem tReset_quietPass_on_quiet_wire (p : Params) (h : Handle) (n : Nat) :
    bitsAtClockFall (quietLevels .released (tReset p h (quietPass n))) = List.replicate (n + 1) true ∧
      conditions (quietLevels .released (tReset p h (quietPass n))) = [.stop] := by
  obtain ⟨hdrv, hbits, hconds⟩ := tBurst_on_quiet_wire h.halfPeriod (List.replicate n true)
  have hfirst : (tRelease h.halfPeriod .sda true).foldl Drv.after .released = .released := rfl
  rw [tReset_quietPass, List.replicate_succ']
  constructor
  · rw [bitsAtClockFall_quietLevels_append, bitsAtClockFall_quietLevels_append, hfirst, hbits, hdrv, List.length_replicate]
    rfl
  · rw [conditions_quietLevels_append, conditions_quietLevels_append, hfirst, hconds, hdrv]
    rfl

/-- Settles O59: on a quiet wire the pass of `resetResult` is `quietPass`, whose trace shows the pulses and the STOP. -/
theorem resetOnTheWire : Obligations.ResetOnTheWire := by
  unfold Obligations.ResetOnTheWire
  rintro s hw ho hd ⟨⟨cs, hscl⟩, ds, hsda⟩
  rw [← quietPass_sclAnswers] at hscl
  have hrsp : rspWord noError (waitSf [true] 0) 0x00 = 0x000 := by decide
  obtain ⟨hbits, hconds⟩ := tReset_quietPass_on_quiet_wire s.params s.handle s.params.burstPulses
  refine ⟨_, resetResult s (quietPass s.params.burstPulses) cs ds hw ho (quietPass_fits hw) rfl hscl hsda, hrsp, ?_, ?_⟩
  · rw [eventsSince_ended, hd, hconds]
  · rw [eventsSince_ended, hd, hbits, List.length_replicate]

end Sys2Proof.Machine
end

section
/-! PROOF. Exceptions (60_exceptions.md): the two rejections of `exec` (R131, R132) and what the diagnostics of a run say (R134 to R136). -/

namespace Sys2Proof.Machine

/-! ### Rejections -/

/-- Settles O16: `exec_notOpen` with the response word of `NotOpen` (30_encoding.md R74). -/
theorem commandBeforeOpenIsRejected : Obligations.CommandBeforeOpenIsRejected := by
  unfold Obligations.CommandBeforeOpenIsRejected
  intro i s hi ho
  have hword : rspWord HardError.notOpen.code 0 0 = 0x800 := by decide
  rw [exec_notOpen i hi s ho, reject, respond, hword]

/-- A configuration that fails a check of `OPEN` (60_exceptions.md R132). -/
theorem acceptable_eq_false_iff (h : Handle) : h.acceptable = false ↔ h.sclId = h.sdaId ∨ h.freq = 0 := by
  rw [← Bool.not_eq_true, acceptable_iff, not_and_or, not_ne_iff, not_ne_iff]

/-- Settles O17: `exec_badConfig` with the response word of `ConfigError` (30_encoding.md R74). -/
theorem badConfigurationIsRejected : Obligations.BadConfigurationIsRejected := by
  unfold Obligations.BadConfigurationIsRejected
  intro s hbad
  have hword : rspWord HardError.configError.code 0 0 = 0xC00 := by decide
  rw [exec_badConfig s ((acceptable_eq_false_iff s.cfg).mpr hbad), reject, respond, hword]

/-! ### Diagnostics -/

/-- In the state `t` after a run, what a diagnostic of that run tells: `WARN` is 1, the line is that of the soft failure, and the
failure's bit of `SFACC` is set (60_exceptions.md R134 to R136). -/
def DiagTells (t : State) (code : DiagCode) (l : Line) : Prop :=
  t.handle.warn = true ∧
    ((code = .waitTimeout ∧ l = .scl ∧ t.sfAcc.getLsbD 0 = true) ∨
      (code = .resetGiveup ∧ l = .sda ∧ t.sfAcc.getLsbD 1 = true))

/-- From `s` to `t` the record shows events, and after them at most the response, and every diagnostic among them tells of `t`. -/
def DiagsTellSince (s t : State) : Prop :=
  ∃ es, Emitted s t es ∧ ∀ code l, Event.diag code l ∈ es → DiagTells t code l

/-- A run that emits nothing has no diagnostic. -/
theorem diagsTellSince_of_emitted_nil {s t : State} (h : Emitted s t []) : DiagsTellSince s t :=
  ⟨[], h, fun _ _ hm => absurd hm List.not_mem_nil⟩

/-- Line activity leaves `WARN` alone and keeps the soft-failure bits, so its diagnostics tell of the state that it ends in. -/
theorem Acts.diagsTellSince {b u t : State} (hu : Acts b u)
    (ht : (∃ v x, t = complete v (setXfer x u)) ∨ ∃ ret, t = setSeq (.resetNext ret) u) : DiagsTellSince b t := by
  obtain ⟨es, hemit, htrace, hsf, hhandle⟩ := hu.emitted ht
  refine ⟨es, hemit, fun code l hm => ?_⟩
  have htells := htrace.diags code l hm
  rwa [← hsf, ← hhandle] at htells

/-- Step 1 of OPEN_SEQ emits no diagnostic (41_open.md R101). -/
theorem DiagsTellSince.after_openLines {b t : State} (h : DiagsTellSince (openLines b) t) : DiagsTellSince b t := by
  obtain ⟨es, hemit, htells⟩ := h
  refine ⟨_, hemit.prepend (congrArg State.log (openLines_eq b)), fun code l hm => htells code l ?_⟩
  simpa using hm

/-- The diagnostics of a command: a rejection has none, and what is accepted is line activity. -/
theorem exec_diagsTellSince {i : Instr} {s t : State} (h : exec i s = .next t) : DiagsTellSince s t := by
  obtain ⟨e, rfl, -⟩ | ⟨b, u, ⟨-, rfl⟩ | ⟨-, rfl⟩, hu, ht⟩ := exec_acts h
  · exact diagsTellSince_of_emitted_nil (reject_emitted e s)
  · exact hu.diagsTellSince ht
  · exact (hu.diagsTellSince ht).after_openLines

/-- The diagnostics of a step of the command port: those of the command in progress, none, or those of the command taken. -/
theorem stepPort_diagsTellSince {s t : State} (h : stepPort s = .next t) : DiagsTellSince s t := by
  obtain ⟨-, ret, -, rfl⟩ | ⟨-, -, rfl⟩ | ⟨-, w, ws, -, ⟨-, rfl⟩ | ⟨i, -, hi⟩⟩ := stepPort_cases h
  · obtain ⟨u, hu, ht⟩ := runReset_acts ret s
    exact hu.diagsTellSince (ht.imp (fun ⟨x, h⟩ => ⟨0, x, h⟩) fun h => ⟨ret, h⟩)
  · exact diagsTellSince_of_emitted_nil (.inl rfl)
  · exact diagsTellSince_of_emitted_nil (reject_emitted .illegalCommand { s with cmds := ws })
  · exact exec_diagsTellSince (s := { s with cmds := ws }) hi

/-- Settles O45: a command is rejected or is line activity with its end, and a step with no reset coming is that of the command port. -/
theorem diagnosticsNameTheirLine : Obligations.DiagnosticsNameTheirLine := by
  unfold Obligations.DiagnosticsNameTheirLine
  rintro s t (⟨i, h⟩ | ⟨hr, h⟩)
  · exact exec_diagsTellSince h
  · obtain ⟨hw, -⟩ := step_cases h
    rw [step_eq_stepPort hw hr] at h
    exact stepPort_diagsTellSince h

end Sys2Proof.Machine
end

section
/-! PROOF. Power-on reset (70_reset_and_hazards.md R160, 10_state.md R45): asserted at once, in the middle of a step, or still to come;
and the chain of stop and reset, which has no bound (70_reset_and_hazards.md R170, 44_sequence_control.md R126). -/

namespace Sys2Proof.Machine

/-! ### Power-on reset -/

/-- Settles O13: with `rst` asserted at once the step is `powerOn`, which writes the fields of R45 and no input. -/
theorem powerOnResetState : Obligations.PowerOnResetState := by
  unfold Obligations.PowerOnResetState
  intro s hw hr
  exact ⟨powerOn s, step_powerOn hw hr, rfl, rfl, rfl, rfl, rfl, rfl, rfl, rfl, rfl, rfl, rfl, rfl⟩

/-- What the step would do without a reset coming, the command port does with the reset coming (log 8). -/
theorem stepPort_of_step_without_rst {s t : State} (h : step { s with rstIn := none } = .next t) :
    stepPort s = .next { t with rstIn := s.rstIn } := by
  obtain ⟨hw, -⟩ := step_cases h
  rw [step_eq_stepPort hw rfl] at h
  exact stepPort_rstIn (s := { s with rstIn := none }) s.rstIn h

/-- An abandoned command has shown its events and the mark of the reset, and no response (70_reset_and_hazards.md R160). -/
theorem responses_abandon (es : List Event) (s : State) : responses (abandon es s).log = responses s.log :=
  responses_record es s.log

/-- Settles O14: the command port does what the step without reset does, and the number of its entries decides whether `rst` cuts it. -/
theorem powerOnResetAbandonsCommand : Obligations.PowerOnResetAbandonsCommand := by
  unfold Obligations.PowerOnResetAbandonsCommand
  intro s t k hw hr h
  have hport := stepPort_of_step_without_rst h
  refine ⟨fun hcut => ?during, fun hlater => ?later⟩
  case during =>
    exact ⟨abandon ((eventsSince s t).take (k + 1)) s, step_rst_during (u := { t with rstIn := s.rstIn }) hw hr hport hcut,
      rfl, rfl, rfl, rfl, rfl, rfl, rfl, rfl, responses_abandon _ s⟩
  case later => exact step_rst_later (u := { t with rstIn := s.rstIn }) hw hr hport hlater

/-! ### The chain of stop and reset -/

/-- A RESET_SEQ in which every sample reads 1 but the last: the SDA of its STOP_SEQ fails to rise (44_sequence_control.md R126). -/
def failedPass (pulses : Nat) : ResetPass := { quietPass pulses with last := .again [true] }

/-- The failed pass fits where the quiet one does: they differ in the level of their last sample alone. -/
theorem failedPass_fits {p : Params} (hw : p.wellFormed = true) : (failedPass p.burstPulses).Fits p :=
  quietPass_fits hw

/-- The environment's answers are those of `m` failed passes, one after the other. -/
def State.FailsToRise (s : State) (m : Nat) : Prop :=
  s.env.scl = (List.replicate m (failedPass s.params.burstPulses).sclAnswers).flatten ∧
    s.env.sda = (List.replicate m (failedPass s.params.burstPulses).sdaAnswers).flatten

/-- The answers of the first failed pass, and those of the others after it. -/
theorem State.FailsToRise.split {s : State} {m : Nat} (h : s.FailsToRise (m + 1)) :
    s.env.scl = (failedPass s.params.burstPulses).sclAnswers
        ++ (List.replicate m (failedPass s.params.burstPulses).sclAnswers).flatten ∧
      s.env.sda = (failedPass s.params.burstPulses).sdaAnswers
        ++ (List.replicate m (failedPass s.params.burstPulses).sdaAnswers).flatten := by
  unfold FailsToRise at h
  rwa [List.replicate_succ, List.replicate_succ, List.flatten_cons, List.flatten_cons] at h

/-- A `RESET` of a legal instance is in progress, no reset is coming, and SDA will fail to rise `m` times more. -/
structure InChain (m : Nat) (s : State) : Prop where
  legal : s.params.wellFormed = true
  noRst : s.rstIn = none
  busy : s.busy = true
  next : s.seq = .resetNext .nothing
  answers : s.FailsToRise m

/-- A command left in progress has given no response (44_sequence_control.md R126). -/
theorem responses_paused (s : State) (ret : Pending) (r : PrivateRegs) (p : Progress) :
    responses (s.paused ret r p).log = responses s.log :=
  responses_record p.events s.log

/-- Each RESET_SEQ of the chain is a step that leaves the command in the chain (44_sequence_control.md R126; log 1). -/
theorem InChain.step {m : Nat} {s : State} (h : InChain (m + 1) s) :
    ∃ t, Machine.step s = .next t ∧ InChain m t ∧ responses t.log = responses s.log := by
  obtain ⟨hscl, hsda⟩ := h.answers.split
  obtain ⟨-, -, hagain⟩ := commandInProgressGoesOn s _ _ _ h.legal h.noRst h.busy (failedPass_fits h.legal) hscl hsda
  obtain ⟨r, hstep⟩ := hagain .nothing rfl h.next
  exact ⟨_, hstep, ⟨h.legal, h.noRst, rfl, rfl, rfl, rfl⟩, responses_paused ..⟩

/-- A run whose first step answers a next state goes on from there. -/
theorem run_succ_of_next {M : Host.Core} {s t : M.State} (h : M.step s = .next t) (k : Nat) : M.run (k + 1) s = M.run k t := by
  rw [Host.Core.run, h]

/-- After `k` steps from `s` a command is in progress, and no response has been given since. -/
def InProgressAfter (k : Nat) (s : State) : Prop :=
  ∃ t, core.run k s = .next t ∧ t.busy = true ∧ responses t.log = responses s.log

/-- A step without a response can be put in front. -/
theorem InProgressAfter.of_step {k : Nat} {s t : State} (ht : InProgressAfter k t) (hstep : step s = .next t)
    (hresp : responses t.log = responses s.log) : InProgressAfter (k + 1) s := by
  obtain ⟨u, hrun, hbusy, hresp'⟩ := ht
  have hsucc : core.run (k + 1) s = core.run k t := run_succ_of_next (M := core) (s := s) hstep k
  exact ⟨u, hsucc.trans hrun, hbusy, hresp'.trans hresp⟩

/-- The command is in progress, without a response, after any number of steps for which SDA fails to rise. -/
theorem InChain.inProgressAfter {k m : Nat} {s : State} (h : InChain m s) (hk : k ≤ m) : InProgressAfter k s := by
  induction k generalizing m s with
  | zero => exact ⟨s, rfl, h.busy, rfl⟩
  | succ k ih =>
    obtain ⟨j, rfl⟩ := Nat.exists_eq_add_of_lt hk
    obtain ⟨t, hstep, hchain, hresp⟩ := h.step
    exact (ih hchain (Nat.le_add_right k j)).of_step hstep hresp

/-- An opened controller at rest with `RESET` presented, and an environment on which SDA fails to rise `m` times. -/
def chainStart (m : Nat) : State :=
  { State.reset with
    opened := true
    cmds := [0x400]
    env := { scl := (List.replicate m (failedPass Config.reference.burstPulses).sclAnswers).flatten
             sda := (List.replicate m (failedPass Config.reference.burstPulses).sdaAnswers).flatten
             taken := 0 } }

/-- The word 0x400 is `RESET` (30_encoding.md R71). -/
theorem decode_reset_word : decode 0x400 = some .reset := by decide

/-- The step that takes the `RESET` runs into the first failed rise, and enters the chain. -/
theorem chainStart_step (m : Nat) :
    ∃ t, step (chainStart (m + 1)) = .next t ∧ InChain m t ∧ responses t.log = responses (chainStart (m + 1)).log := by
  have hw : Config.reference.wellFormed = true := by decide
  have hanswers : (chainStart (m + 1)).FailsToRise (m + 1) := ⟨rfl, rfl⟩
  obtain ⟨hscl, hsda⟩ := hanswers.split
  obtain ⟨hreset, -⟩ := failedRiseInResetLeavesCommandInProgress { chainStart (m + 1) with cmds := [] } _ _ _ hw
    (failedPass_fits hw) rfl
  obtain ⟨r, hexec⟩ := hreset rfl hscl hsda
  have hstep := step_runs_presented (s := chainStart (m + 1)) hw rfl rfl rfl decode_reset_word
  exact ⟨_, hstep.trans hexec, ⟨hw, rfl, rfl, rfl, rfl, rfl⟩, responses_paused ..⟩

/-- Settles O32: the environment fails to raise SDA once more than the number of steps asked for. -/
theorem stopResetChainIsUnbounded : Obligations.StopResetChainIsUnbounded := by
  unfold Obligations.StopResetChainIsUnbounded
  intro n
  refine ⟨chainStart (n + 1), rfl, rfl, rfl, rfl, fun k hk => ?_⟩
  obtain ⟨t, hstep, hchain, hresp⟩ := chainStart_step n
  exact (hchain.inProgressAfter hk).of_step hstep hresp

end Sys2Proof.Machine
end
